-- ==== Sys2Proof/Word.lean ====
section
/-! DEFINITION. The word types of the Tsumiki DSP core (00_scope.md R8, R11). -/

namespace Sys2Proof

/-- A command word: 32 bits, bit 0 least significant (00_scope.md R11). -/
abbrev Word := BitVec 32

/-- `Num`, the datapath number: an IEEE 754 binary64 bit pattern (00_scope.md R8). The arithmetic on it is in
Machine/Binary64.lean. -/
abbrev Num := BitVec 64

/-- `F32`: an IEEE 754 binary32 bit pattern, used only for output samples (00_scope.md R8, R19). -/
abbrev F32 := BitVec 32

end Sys2Proof
end

