-- ==== Sys2Proof/Config.lean ====
section
/-! DEFINITION. What an implementation fixes and the spec leaves open: the structural parameters (00_scope.md R9), the
attack law (42_envelope.md R198), the sine shape (40_primitive_math.md R144), the modulation bases and offsets
(44_modulation.md R231), the open fields of the numerics record (00_scope.md R14), and the free values. -/

namespace Sys2Proof

/-- One value per modulation source, in the fixed source order (44_modulation.md R230). -/
structure PerSource where
  lfo : Num
  env : Num
  wheel : Num
  vel : Num
  press : Num
deriving DecidableEq, Repr, Inhabited

end Sys2Proof

namespace Sys2Proof.Config

/-! ## The parameters of an implementation (00_scope.md R9, 93_implementation_defined.md section 1; assumptions 1, 2 and 5) -/

/-- The two attack laws of 42_envelope.md R198. -/
inductive AttackLaw where
  | expReverse
  | linear
deriving DecidableEq, Repr, Inhabited

/-- The sine approximation of the waveshaper (40_primitive_math.md R144): the default polynomial, or another function.
What R144 says of every such function (odd, monotone, exact at 0, 1 and -1) is not asked of it, so what is proved for all
parameters holds for more functions than R144 allows. -/
inductive SineShape where
  | polynomial
  | other (f : Num → Num)

/-- What an implementation fixes: the six structural parameters with the constraint R9 puts on each, the attack law, the
sine shape, the modulation bases and offsets. Every definition of the model that reads one takes this record. -/
structure Params where
  /-- voices in the pool -/
  NV : Nat
  /-- slots in a voice's stack -/
  NS : Nat
  /-- slots in the note reservation ring -/
  RN : Nat
  /-- slots in the poly-pressure reservation ring -/
  RP : Nat
  /-- MIDI channels, each with a pitch table -/
  NCH : Nat
  /-- delay RAM entries per channel at most -/
  DCAP_MAX : Nat
  /-- the attack law of the envelopes -/
  attackLaw : AttackLaw
  /-- the sine approximation of the waveshaper -/
  sineShape : SineShape
  /-- `ModBase[s]` of every source -/
  modBase : PerSource
  /-- `ModOffset[s]` of every source -/
  modOffset : PerSource
  nv_pos : 0 < NV
  ns_pos : 0 < NS
  rn_pos : 0 < RN
  rp_pos : 0 < RP
  nch_pos : 0 < NCH
  nch_le : NCH ≤ 256
  dcap_max_pos : 0 < DCAP_MAX

/-- The reference instance of 00_scope.md R9, with the attack law that 42_envelope.md R198 and 90_conflicts.md C3 take as
the behaviour, the polynomial of R144, and the bases 1 and offsets 0 of R231. -/
@[reducible] def reference : Params where
  NV := 16
  NS := 7
  RN := 32
  RP := 32
  NCH := 16
  DCAP_MAX := 96000
  attackLaw := .expReverse
  sineShape := .polynomial
  modBase :=
    ⟨0x3FF0000000000000, 0x3FF0000000000000, 0x3FF0000000000000, 0x3FF0000000000000, 0x3FF0000000000000⟩
  modOffset := ⟨0, 0, 0, 0, 0⟩
  nv_pos := by decide
  ns_pos := by decide
  rn_pos := by decide
  rp_pos := by decide
  nch_pos := by decide
  nch_le := by decide
  dcap_max_pos := by decide

/-- The parameters of the machine that `State`, `Instr`, `exec`, `step`, `State.reset` and `core` name where none are
given: the reference instance, so that every step of it can be evaluated. Every statement is about all parameters. -/
@[reducible] def params : Params := reference

/-- Keys of a pitch table; fixed by the spec, no parameter (00_scope.md R9). -/
abbrev KEYS : Nat := 128

/-! ## Free values: constants with no body, so that nothing can be proved of what they are. -/

/-- The open function behind `NUM.exp2` (00_scope.md R14); `Machine.exp2` builds the laws of 40_primitive_math.md
R140, R142 and R147 around it (assumption 3). -/
opaque exp2Free : Num → Num
/-- The open function behind `NUM.log2` (assumption 3). -/
opaque log2Free : Num → Num
/-- The open function behind `NUM.sin` (assumption 3). -/
opaque sinFree : Num → Num
/-- The open function behind `NUM.cos` (assumption 3). -/
opaque cosFree : Num → Num

/-- The bits of a NaN that an operation makes: IEEE 754 leaves its sign and payload open. The first argument numbers
the operation, the other two are its operands (assumption 4). -/
opaque nanBits : Nat → Num → Num → Num

/-- A pitch table entry where the sum of 45_tuning.md R253 is no number (an infinite period multiple against an infinite
pitch of the other sign). The arguments are the two terms. `Machine.keyPitch` keeps it in the `[0, 128]` of R257 (e)
(assumption 17). -/
opaque keyFree : Num → Num → Num

/-- What DELAY.STEP reads where the delay RAM has no element at the cursor (20_memory.md R81: no rule reaches it).
Arguments: a number that differs for each such read, and the cursor (assumption 13). -/
opaque absentElement : Nat → Nat → Num

/-- The cursor after one that counts modulo a delay length of 0 (assumption 13). Arguments as for `absentElement`. -/
opaque absentCursor : Nat → Nat → Nat

/-- Which port goes first when a frame is complete on both (60_exceptions.md R393, 93_implementation_defined.md U4):
true for the command port. The argument is the state's free-value counter (assumption 6). -/
opaque commandFirst : Nat → Bool

/-- How many of the control port's complete frames overlap a RECALC (20_memory.md R88, 93_implementation_defined.md
U3). Arguments: the free-value counter. Reduced modulo the number of choices where it is used (assumption 7). -/
opaque overlapCount : Nat → Nat

/-- Which of the values a register takes during an overlapped RECALC the snapshot reads (20_memory.md R88). Arguments:
the free-value counter and the register's address (assumption 7). -/
opaque overlapPick : Nat → Nat → Nat

end Sys2Proof.Config
end

