-- ==== Sys2Proof/Syntax.lean ====
section
/-! DEFINITION. The instructions: the seven host commands (30_encoding.md R117) and the thirty-three unit operations
(30_encoding.md R120), one constructor per row of spec/opcode_table.json, with their operands as data. -/

namespace Sys2Proof

/-- A stereo channel: `c = 0` left, `c = 1` right (10_state.md R45, R52). -/
inductive Chan where
  | left
  | right
deriving DecidableEq, Repr, Inhabited

/-- Which waveshaper record CFG.WAVE writes: `CFG.car.wave`, `CFG.mod.wave` or `CFG.lfoWave` (41_oscillator.md R161). -/
inductive WaveDst where
  | carrier
  | modulator
  | lfo
deriving DecidableEq, Repr, Inhabited

/-- Which operator CFG.OP configures (41_oscillator.md R163). -/
inductive OpSel where
  | carrier
  | modulator
deriving DecidableEq, Repr, Inhabited

/-- The three envelopes of a voice (10_state.md R37): amplitude, FM-depth, modulation engine. -/
inductive EnvSel where
  | amp
  | fm
  | modEnv
deriving DecidableEq, Repr, Inhabited

/-- The two one-pole coefficients CFG.LP1 computes: `CFG.dLpAlpha` and `CFG.dHpAlpha` (43_filters.md R210). -/
inductive OnePole where
  | lowPass
  | highPass
deriving DecidableEq, Repr, Inhabited

/-- The eight modulation destinations, in the order of their numbers (44_modulation.md R232). -/
inductive Dest where
  | pitch
  | level
  | pan
  | cutoff
  | resonance
  | mix
  | lfoSpeed
  | lfoLevel
deriving DecidableEq, Repr, Inhabited

/-- `MidiNote` (10_state.md R46): `velocity >= 0` is a note-on, `velocity < 0` a note-off. -/
structure MidiNote (Z : Config.Params) where
  ch : Fin Z.NCH
  pitch : Num
  velocity : Num
  id : Word
deriving DecidableEq, Repr

/-- The instructions. A unit operation carries the operands its rule names; a host cannot issue one
(30_encoding.md R120). `Instr` alone is the instruction type of the reference instance (assumption 1). -/
inductive Instr (Z : Config.Params := Config.params) where
  | activate (fs : Num)
  | deactivate
  | recalc (fs : Num)
  | reserve (ch : BitVec 8) (pitch velocity : Num) (id offset : Word)
  | reservep (ch : BitVec 8) (pitch pressure : Num) (id offset : Word)
  | process (fs : Num) (count : Word)
  | pwrite (addr : BitVec 16) (value : Num)
  | cfgWave (dst : WaveDst) (shapeX shapeY : Num)
  | cfgOp (op : OpSel)
  | cfgEnv (e : EnvSel)
  | cfgLp1 (f : OnePole) (cutoff : Num)
  | cfgSvf
  | cfgModdest
  | cfgTune (ch : Fin Z.NCH)
  | cfgStack
  | cfgDelay
  | cfgGlobal (fs : Num)
  | tick
  | applyNoteon (ev : MidiNote Z)
  | applyNoteoff (ev : MidiNote Z)
  | applyPressure (ev : MidiNote Z) (pressure : Num)
  | voiceStart (v : Fin Z.NV)
  | voiceRestart (v : Fin Z.NV)
  | syncStep (v : Fin Z.NV) (k : Fin Z.NS) (dS : Num)
  | carStep (v : Fin Z.NV) (k : Fin Z.NS) (delta pulse fmIn : Num)
  | modStep (v : Fin Z.NV) (k : Fin Z.NS) (delta pulse : Num)
  | lfoStep (v : Fin Z.NV) (sp lv : Num)
  | envStep (e : EnvSel) (v : Fin Z.NV) (gate : Bool)
  | lp1Step (c : Chan) (alpha x : Num)
  | hp1Step (c : Chan) (alpha x : Num)
  | svfRetune (co rs mx : Num)
  | svfStep (v : Fin Z.NV) (c : Chan) (alpha damping x : Num)
  | modAdd (d : Dest) (src : PerSource)
  | modMulbias (d : Dest) (src : PerSource)
  | modPitch (d : Dest) (src : PerSource)
  | stackRender (v : Fin Z.NV) (pm pn f : Num)
  | voiceRender (v : Fin Z.NV)
  | delayStep (xl xr : Num)
  | mix (sel : BitVec Z.NV)
  | out (mixL mixR dl dr : Num)
deriving DecidableEq, Repr

end Sys2Proof
end

