-- ==== Sys2Proof/Decode.lean ====
section
/-! DEFINITION. Decoding and encoding. Host commands are frames of 32-bit words on the command or control port
(30_encoding.md R110 to R119). A unit operation has no port encoding of its own (30_encoding.md R120): the model gives
it a frame on a port of its own, whose first word holds the operation's id in bits 7..0 (assumption 9). -/

namespace Sys2Proof

variable {Z : Config.Params}

/-! ## Ports, fields, errors -/

/-- Where a frame arrives: the command port, the control port (30_encoding.md R110), or the model's unit-operation
port (assumption 9). -/
inductive Port where
  | command
  | control
  | unitOp
deriving DecidableEq, Repr

/-- Why a frame is no instruction. The first three are the illegal commands of 30_encoding.md R119. -/
inductive DecodeError where
  /-- a reserved `op`: 0x00 or 0x08 to 0xFF -/
  | unknownOp
  /-- a header bit that 30_encoding.md R118 reserves is 1 -/
  | reservedBits
  /-- a header other than PWRITE's on the control port -/
  | notOnControlPort
  /-- not the number of words the format has -/
  | frameLength
  /-- an id that 30_encoding.md R120 does not assign -/
  | unknownUop
  /-- a unit frame's selector that names nothing, or an unused bit that is 1 -/
  | badSelector
deriving DecidableEq, Repr

/-- `op`, bits 31..24 of a header (30_encoding.md R111). -/
def opField (h : Word) : Nat := (h.extractLsb' 24 8).toNat

/-- `a`, bits 23..16 of a header (30_encoding.md R111). -/
def aField (h : Word) : BitVec 8 := h.extractLsb' 16 8

/-- `b`, bits 15..0 of a header (30_encoding.md R111). -/
def bField (h : Word) : BitVec 16 := h.extractLsb' 0 16

/-- A binary64 operand from its two words, the low one first (30_encoding.md R113). -/
def joinNum (lo hi : Word) : Num := hi ++ lo

/-- The low word of a binary64 operand. -/
def lowWord (x : Num) : Word := x.extractLsb' 0 32

/-- The high word of a binary64 operand. -/
def highWord (x : Num) : Word := x.extractLsb' 32 32

/-- A binary64 operand's two words, low word first. -/
def numWords (x : Num) : List Word := [lowWord x, highWord x]

/-- The words of a frame, told from bits 31..24 of its header alone; one for an unknown `op` (30_encoding.md R112,
R116). -/
def frameWords (h : Word) : Nat :=
  match opField h with
  | 1 => 3
  | 2 => 1
  | 3 => 3
  | 4 => 7
  | 5 => 7
  | 6 => 4
  | 7 => 3
  | _ => 1

/-! ## Host commands -/

/-- A host command from its header and operand words (30_encoding.md R112, R117); reserved header bits are checked
(30_encoding.md R118). -/
def decodeCommand (Z : Config.Params) (h : Word) (ops : List Word) : Except DecodeError (Instr Z) :=
  match opField h with
  | 1 =>
    match ops with
    | [x0, x1] => if aField h = 0 ∧ bField h = 0 then .ok (.activate (joinNum x0 x1)) else .error .reservedBits
    | _ => .error .frameLength
  | 2 =>
    match ops with
    | [] => if aField h = 0 ∧ bField h = 0 then .ok .deactivate else .error .reservedBits
    | _ => .error .frameLength
  | 3 =>
    match ops with
    | [x0, x1] => if aField h = 0 ∧ bField h = 0 then .ok (.recalc (joinNum x0 x1)) else .error .reservedBits
    | _ => .error .frameLength
  | 4 =>
    match ops with
    | [p0, p1, v0, v1, id, off] =>
      if bField h = 0 then .ok (.reserve (aField h) (joinNum p0 p1) (joinNum v0 v1) id off) else .error .reservedBits
    | _ => .error .frameLength
  | 5 =>
    match ops with
    | [p0, p1, v0, v1, id, off] =>
      if bField h = 0 then .ok (.reservep (aField h) (joinNum p0 p1) (joinNum v0 v1) id off) else .error .reservedBits
    | _ => .error .frameLength
  | 6 =>
    match ops with
    | [x0, x1, n] => if aField h = 0 ∧ bField h = 0 then .ok (.process (joinNum x0 x1) n) else .error .reservedBits
    | _ => .error .frameLength
  | 7 =>
    match ops with
    | [x0, x1] => if aField h = 0 then .ok (.pwrite (bField h) (joinNum x0 x1)) else .error .reservedBits
    | _ => .error .frameLength
  | _ => .error .unknownOp

/-- The control port accepts PWRITE only (30_encoding.md R110, R119). -/
def decodeControl (Z : Config.Params) (h : Word) (ops : List Word) : Except DecodeError (Instr Z) :=
  if opField h = 7 then decodeCommand Z h ops else .error .notOnControlPort

/-! ## Unit operations: frames of the model's own port (assumption 9) -/

/-- The id of a unit operation, bits 7..0 (30_encoding.md R120). -/
def uopField (h : Word) : Nat := (h.extractLsb' 0 8).toNat

/-- The first selector of a unit frame, bits 15..8: a voice, a channel, a destination, a record. -/
def selX (h : Word) : Nat := (h.extractLsb' 8 8).toNat

/-- The second selector, bits 23..16: a copy, a stereo channel, an envelope. -/
def selY (h : Word) : Nat := (h.extractLsb' 16 8).toNat

/-- The third selector, bits 31..24: a gate. -/
def selZ (h : Word) : Nat := (h.extractLsb' 24 8).toNat

/-- The voice mask of MIX, bits 31..8. -/
def maskField (h : Word) : BitVec 24 := h.extractLsb' 8 24

/-- A number below `n`, or none. -/
def toFin (n i : Nat) : Option (Fin n) := if h : i < n then some ⟨i, h⟩ else none

def waveDstOf : Nat → Option WaveDst
  | 0 => some .carrier
  | 1 => some .modulator
  | 2 => some .lfo
  | _ => none

def opSelOf : Nat → Option OpSel
  | 0 => some .carrier
  | 1 => some .modulator
  | _ => none

def envSelOf : Nat → Option EnvSel
  | 0 => some .amp
  | 1 => some .fm
  | 2 => some .modEnv
  | _ => none

def onePoleOf : Nat → Option OnePole
  | 0 => some .lowPass
  | 1 => some .highPass
  | _ => none

def chanOf : Nat → Option Chan
  | 0 => some .left
  | 1 => some .right
  | _ => none

def boolOf : Nat → Option Bool
  | 0 => some false
  | 1 => some true
  | _ => none

def destOf : Nat → Option Dest
  | 0 => some .pitch
  | 1 => some .level
  | 2 => some .pan
  | 3 => some .cutoff
  | 4 => some .resonance
  | 5 => some .mix
  | 6 => some .lfoSpeed
  | 7 => some .lfoLevel
  | _ => none

/-- The number is 0: an unused selector. -/
def unused (n : Nat) : Option Unit := if n = 0 then some () else none

/-- How many operand words a unit frame has; none for an id that is not assigned (30_encoding.md R120). -/
def unitOperandWords (u : Nat) : Option Nat :=
  match u with
  | 0x10 => some 4
  | 0x11 => some 0
  | 0x12 => some 0
  | 0x13 => some 2
  | 0x14 => some 0
  | 0x15 => some 0
  | 0x16 => some 0
  | 0x17 => some 0
  | 0x18 => some 0
  | 0x19 => some 2
  | 0x20 => some 0
  | 0x21 => some 5
  | 0x22 => some 5
  | 0x23 => some 7
  | 0x24 => some 0
  | 0x25 => some 0
  | 0x30 => some 2
  | 0x32 => some 6
  | 0x33 => some 4
  | 0x34 => some 4
  | 0x35 => some 0
  | 0x36 => some 4
  | 0x37 => some 4
  | 0x38 => some 6
  | 0x39 => some 6
  | 0x3A => some 10
  | 0x3B => some 10
  | 0x3C => some 10
  | 0x3D => some 6
  | 0x3E => some 0
  | 0x3F => some 4
  | 0x40 => some 0
  | 0x41 => some 8
  | _ => none

/-- The source vector of a MOD.* frame. -/
def joinSource (a0 a1 b0 b1 c0 c1 d0 d1 e0 e1 : Word) : PerSource :=
  ⟨joinNum a0 a1, joinNum b0 b1, joinNum c0 c1, joinNum d0 d1, joinNum e0 e1⟩

/-- The canonical velocity of a note-off, -1 (10_state.md R46). The velocity words of an APPLY.NOTEOFF frame hold the
velocity exclusive-or this value, so that words of zeros are the canonical note-off (assumption 9). -/
def offVelocity : Num := 0xBFF0000000000000#64

/-- A unit operation from its first word and its operand words. Every operand value is one: only a selector or an unused
bit can make the frame name no operation. -/
def parseUnit (Z : Config.Params) (h : Word) (ops : List Word) : Option (Instr Z) :=
  match uopField h, ops with
  | 0x10, [a0, a1, b0, b1] => do
    unused (selY h); unused (selZ h); return .cfgWave (← waveDstOf (selX h)) (joinNum a0 a1) (joinNum b0 b1)
  | 0x11, [] => do unused (selY h); unused (selZ h); return .cfgOp (← opSelOf (selX h))
  | 0x12, [] => do unused (selY h); unused (selZ h); return .cfgEnv (← envSelOf (selX h))
  | 0x13, [a0, a1] => do
    unused (selY h); unused (selZ h); return .cfgLp1 (← onePoleOf (selX h)) (joinNum a0 a1)
  | 0x14, [] => do unused (selX h); unused (selY h); unused (selZ h); return .cfgSvf
  | 0x15, [] => do unused (selX h); unused (selY h); unused (selZ h); return .cfgModdest
  | 0x16, [] => do unused (selY h); unused (selZ h); return .cfgTune (← toFin Z.NCH (selX h))
  | 0x17, [] => do unused (selX h); unused (selY h); unused (selZ h); return .cfgStack
  | 0x18, [] => do unused (selX h); unused (selY h); unused (selZ h); return .cfgDelay
  | 0x19, [a0, a1] => do unused (selX h); unused (selY h); unused (selZ h); return .cfgGlobal (joinNum a0 a1)
  | 0x20, [] => do unused (selX h); unused (selY h); unused (selZ h); return .tick
  | 0x21, [p0, p1, v0, v1, id] => do
    unused (selY h); unused (selZ h)
    return .applyNoteon ⟨← toFin Z.NCH (selX h), joinNum p0 p1, joinNum v0 v1, id⟩
  | 0x22, [p0, p1, v0, v1, id] => do
    unused (selY h); unused (selZ h)
    return .applyNoteoff ⟨← toFin Z.NCH (selX h), joinNum p0 p1, joinNum v0 v1 ^^^ offVelocity, id⟩
  | 0x23, [p0, p1, v0, v1, id, x0, x1] => do
    unused (selY h); unused (selZ h)
    return .applyPressure ⟨← toFin Z.NCH (selX h), joinNum p0 p1, joinNum v0 v1, id⟩ (joinNum x0 x1)
  | 0x24, [] => do unused (selY h); unused (selZ h); return .voiceStart (← toFin Z.NV (selX h))
  | 0x25, [] => do unused (selY h); unused (selZ h); return .voiceRestart (← toFin Z.NV (selX h))
  | 0x30, [a0, a1] => do
    unused (selZ h); return .syncStep (← toFin Z.NV (selX h)) (← toFin Z.NS (selY h)) (joinNum a0 a1)
  | 0x32, [a0, a1, b0, b1, c0, c1] => do
    unused (selZ h)
    return .carStep (← toFin Z.NV (selX h)) (← toFin Z.NS (selY h)) (joinNum a0 a1) (joinNum b0 b1)
      (joinNum c0 c1)
  | 0x33, [a0, a1, b0, b1] => do
    unused (selZ h)
    return .modStep (← toFin Z.NV (selX h)) (← toFin Z.NS (selY h)) (joinNum a0 a1) (joinNum b0 b1)
  | 0x34, [a0, a1, b0, b1] => do
    unused (selY h); unused (selZ h); return .lfoStep (← toFin Z.NV (selX h)) (joinNum a0 a1) (joinNum b0 b1)
  | 0x35, [] => do return .envStep (← envSelOf (selY h)) (← toFin Z.NV (selX h)) (← boolOf (selZ h))
  | 0x36, [a0, a1, b0, b1] => do
    unused (selY h); unused (selZ h); return .lp1Step (← chanOf (selX h)) (joinNum a0 a1) (joinNum b0 b1)
  | 0x37, [a0, a1, b0, b1] => do
    unused (selY h); unused (selZ h); return .hp1Step (← chanOf (selX h)) (joinNum a0 a1) (joinNum b0 b1)
  | 0x38, [a0, a1, b0, b1, c0, c1] => do
    unused (selX h); unused (selY h); unused (selZ h)
    return .svfRetune (joinNum a0 a1) (joinNum b0 b1) (joinNum c0 c1)
  | 0x39, [a0, a1, b0, b1, c0, c1] => do
    unused (selZ h)
    return .svfStep (← toFin Z.NV (selX h)) (← chanOf (selY h)) (joinNum a0 a1) (joinNum b0 b1) (joinNum c0 c1)
  | 0x3A, [a0, a1, b0, b1, c0, c1, d0, d1, e0, e1] => do
    unused (selY h); unused (selZ h); return .modAdd (← destOf (selX h)) (joinSource a0 a1 b0 b1 c0 c1 d0 d1 e0 e1)
  | 0x3B, [a0, a1, b0, b1, c0, c1, d0, d1, e0, e1] => do
    unused (selY h); unused (selZ h); return .modMulbias (← destOf (selX h)) (joinSource a0 a1 b0 b1 c0 c1 d0 d1 e0 e1)
  | 0x3C, [a0, a1, b0, b1, c0, c1, d0, d1, e0, e1] => do
    unused (selY h); unused (selZ h); return .modPitch (← destOf (selX h)) (joinSource a0 a1 b0 b1 c0 c1 d0 d1 e0 e1)
  | 0x3D, [a0, a1, b0, b1, c0, c1] => do
    unused (selY h); unused (selZ h)
    return .stackRender (← toFin Z.NV (selX h)) (joinNum a0 a1) (joinNum b0 b1) (joinNum c0 c1)
  | 0x3E, [] => do unused (selY h); unused (selZ h); return .voiceRender (← toFin Z.NV (selX h))
  | 0x3F, [a0, a1, b0, b1] => do
    unused (selX h); unused (selY h); unused (selZ h); return .delayStep (joinNum a0 a1) (joinNum b0 b1)
  | 0x40, [] => if (maskField h).toNat < 2 ^ Z.NV then some (.mix ((maskField h).setWidth Z.NV)) else none
  | 0x41, [a0, a1, b0, b1, c0, c1, d0, d1] => do
    unused (selX h); unused (selY h); unused (selZ h)
    return .out (joinNum a0 a1) (joinNum b0 b1) (joinNum c0 c1) (joinNum d0 d1)
  | _, _ => none

/-- A unit operation from its frame, rejected by name where it names none. -/
def decodeUnit (Z : Config.Params) (h : Word) (ops : List Word) : Except DecodeError (Instr Z) :=
  match unitOperandWords (uopField h) with
  | none => .error .unknownUop
  | some n =>
    if ops.length = n then
      match parseUnit Z h ops with
      | some i => .ok i
      | none => .error .badSelector
    else .error .frameLength

/-! ## The decoder -/

/-- Decode one whole frame that arrived on a port. Total on any words. -/
def decode (Z : Config.Params) (p : Port) (ws : List Word) : Except DecodeError (Instr Z) :=
  match ws with
  | [] => .error .frameLength
  | h :: ops =>
    match p with
    | .command => decodeCommand Z h ops
    | .control => decodeControl Z h ops
    | .unitOp => decodeUnit Z h ops

/-- How many words the frame with header `h` has on port `p`. -/
def frameLength (p : Port) (h : Word) : Nat :=
  match p with
  | .command => frameWords h
  | .control => frameWords h
  | .unitOp => match unitOperandWords (uopField h) with
    | some n => n + 1
    | none => 1

/-! ## The encoder -/

/-- A header word from its three fields (30_encoding.md R111). -/
def header (op : BitVec 8) (a : BitVec 8) (b : BitVec 16) : Word := op ++ a ++ b

/-- The first word of a unit frame from the id and the three selectors (assumption 9). -/
def unitHeader (u x y z : Nat) : Word := BitVec.ofNat 8 z ++ BitVec.ofNat 8 y ++ BitVec.ofNat 8 x ++ BitVec.ofNat 8 u

def waveDstNumber : WaveDst → Nat
  | .carrier => 0
  | .modulator => 1
  | .lfo => 2

def opSelNumber : OpSel → Nat
  | .carrier => 0
  | .modulator => 1

def envSelNumber : EnvSel → Nat
  | .amp => 0
  | .fm => 1
  | .modEnv => 2

def onePoleNumber : OnePole → Nat
  | .lowPass => 0
  | .highPass => 1

def chanNumber : Chan → Nat
  | .left => 0
  | .right => 1

def destCode : Dest → Nat
  | .pitch => 0
  | .level => 1
  | .pan => 2
  | .cutoff => 3
  | .resonance => 4
  | .mix => 5
  | .lfoSpeed => 6
  | .lfoLevel => 7

/-- The operand words of a source vector. -/
def sourceWords (p : PerSource) : List Word :=
  numWords p.lfo ++ numWords p.env ++ numWords p.wheel ++ numWords p.vel ++ numWords p.press

/-- The operand words of a note on the unit-operation port, its velocity as the frame holds it. -/
def noteWords (ev : MidiNote Z) (vel : Num) : List Word := numWords ev.pitch ++ numWords vel ++ [ev.id]

/-- The words of an instruction: a command's frame (30_encoding.md R112, R117), or a unit operation's frame on the
model's own port. -/
def encode : Instr Z → List Word
  | .activate fs => header 0x01 0 0 :: numWords fs
  | .deactivate => [header 0x02 0 0]
  | .recalc fs => header 0x03 0 0 :: numWords fs
  | .reserve ch pitch vel id off => header 0x04 ch 0 :: (numWords pitch ++ numWords vel ++ [id, off])
  | .reservep ch pitch p id off => header 0x05 ch 0 :: (numWords pitch ++ numWords p ++ [id, off])
  | .process fs n => header 0x06 0 0 :: (numWords fs ++ [n])
  | .pwrite addr v => header 0x07 0 addr :: numWords v
  | .cfgWave d x y => unitHeader 0x10 (waveDstNumber d) 0 0 :: (numWords x ++ numWords y)
  | .cfgOp o => [unitHeader 0x11 (opSelNumber o) 0 0]
  | .cfgEnv e => [unitHeader 0x12 (envSelNumber e) 0 0]
  | .cfgLp1 f c => unitHeader 0x13 (onePoleNumber f) 0 0 :: numWords c
  | .cfgSvf => [unitHeader 0x14 0 0 0]
  | .cfgModdest => [unitHeader 0x15 0 0 0]
  | .cfgTune ch => [unitHeader 0x16 ch.val 0 0]
  | .cfgStack => [unitHeader 0x17 0 0 0]
  | .cfgDelay => [unitHeader 0x18 0 0 0]
  | .cfgGlobal fs => unitHeader 0x19 0 0 0 :: numWords fs
  | .tick => [unitHeader 0x20 0 0 0]
  | .applyNoteon ev => unitHeader 0x21 ev.ch.val 0 0 :: noteWords ev ev.velocity
  | .applyNoteoff ev => unitHeader 0x22 ev.ch.val 0 0 :: noteWords ev (ev.velocity ^^^ offVelocity)
  | .applyPressure ev p => unitHeader 0x23 ev.ch.val 0 0 :: (noteWords ev ev.velocity ++ numWords p)
  | .voiceStart v => [unitHeader 0x24 v.val 0 0]
  | .voiceRestart v => [unitHeader 0x25 v.val 0 0]
  | .syncStep v k d => unitHeader 0x30 v.val k.val 0 :: numWords d
  | .carStep v k d p f => unitHeader 0x32 v.val k.val 0 :: (numWords d ++ numWords p ++ numWords f)
  | .modStep v k d p => unitHeader 0x33 v.val k.val 0 :: (numWords d ++ numWords p)
  | .lfoStep v sp lv => unitHeader 0x34 v.val 0 0 :: (numWords sp ++ numWords lv)
  | .envStep e v g => [unitHeader 0x35 v.val (envSelNumber e) g.toNat]
  | .lp1Step c a x => unitHeader 0x36 (chanNumber c) 0 0 :: (numWords a ++ numWords x)
  | .hp1Step c a x => unitHeader 0x37 (chanNumber c) 0 0 :: (numWords a ++ numWords x)
  | .svfRetune co rs mx => unitHeader 0x38 0 0 0 :: (numWords co ++ numWords rs ++ numWords mx)
  | .svfStep v c a d x => unitHeader 0x39 v.val (chanNumber c) 0 :: (numWords a ++ numWords d ++ numWords x)
  | .modAdd d src => unitHeader 0x3A (destCode d) 0 0 :: sourceWords src
  | .modMulbias d src => unitHeader 0x3B (destCode d) 0 0 :: sourceWords src
  | .modPitch d src => unitHeader 0x3C (destCode d) 0 0 :: sourceWords src
  | .stackRender v pm pn f => unitHeader 0x3D v.val 0 0 :: (numWords pm ++ numWords pn ++ numWords f)
  | .voiceRender v => [unitHeader 0x3E v.val 0 0]
  | .delayStep xl xr => unitHeader 0x3F 0 0 0 :: (numWords xl ++ numWords xr)
  | .mix sel => [sel.setWidth 24 ++ 0x40#8]
  | .out ml mr dl dr => unitHeader 0x41 0 0 0 :: (numWords ml ++ numWords mr ++ numWords dl ++ numWords dr)

/-- The port an instruction is encoded for. -/
def portOf : Instr Z → Port
  | .activate _ | .deactivate | .recalc _ | .reserve _ _ _ _ _ | .reservep _ _ _ _ _ | .process _ _ | .pwrite _ _ => .command
  | .cfgWave _ _ _ | .cfgOp _ | .cfgEnv _ | .cfgLp1 _ _ | .cfgSvf | .cfgModdest | .cfgTune _ | .cfgStack | .cfgDelay => .unitOp
  | .cfgGlobal _ | .tick | .applyNoteon _ | .applyNoteoff _ | .applyPressure _ _ | .voiceStart _ | .voiceRestart _ => .unitOp
  | .syncStep _ _ _ | .carStep _ _ _ _ _ | .modStep _ _ _ _ | .lfoStep _ _ _ | .envStep _ _ _ | .lp1Step _ _ _ => .unitOp
  | .hp1Step _ _ _ | .svfRetune _ _ _ | .svfStep _ _ _ _ _ | .modAdd _ _ | .modMulbias _ _ | .modPitch _ _ => .unitOp
  | .stackRender _ _ _ _ | .voiceRender _ | .delayStep _ _ | .mix _ | .out _ _ _ _ => .unitOp

/-! ## The opcode table's numbering -/

/-- The `n` words of an instruction whose bits are `w`, the first word holding bits 31..0. -/
def tableWords : Nat → Nat → List Word
  | 0, _ => []
  | n + 1, w => BitVec.ofNat 32 w :: tableWords n (w / 2 ^ 32)

/-- Which port a row of the opcode table belongs to: the unit-operation ids have 8 bits, the headers 32. -/
def tablePort (nbits : Nat) : Port := if nbits ≤ 8 then .unitOp else .command

/-- The frame of an instruction of the opcode table whose bits are `w`: as many words as its first word says. -/
def tableFrame (nbits w : Nat) : List Word :=
  tableWords (frameLength (tablePort nbits) (BitVec.ofNat 32 w)) w

/-- The instruction the decoder reads from an instruction whose bits are `w`, numbered as spec/opcode_table.json numbers
them. -/
def decodeTableWord (nbits w : Nat) : Option Instr :=
  match decode Config.params (tablePort nbits) (tableFrame nbits w) with
  | .ok i => some i
  | .error _ => none

end Sys2Proof
end

