-- ==== Sys2Proof/Machine/Binary64.lean ====
section
/-! DEFINITION. The IEEE 754 binary64 datapath of 00_scope.md R8 and R14: `add sub mul div floor abs`, the comparisons,
`ofInt`, `isFinite` and `toF32`, each rounded once, to nearest, ties to even. A magnitude is held as a natural number of
units of `2^-1074` (the smallest positive binary64), so every operation computes exactly and narrows once at the end. -/

namespace Sys2Proof.Machine

/-! ## Reading a bit pattern -/

/-- The exponent field, bits 62..52. -/
def expField (x : Num) : Nat := (x.extractLsb' 52 11).toNat

/-- The fraction field, bits 51..0. -/
def fracField (x : Num) : Nat := (x.extractLsb' 0 52).toNat

/-- The sign bit, bit 63. -/
def signBit (x : Num) : Bool := x.msb

/-- `x is NaN`. -/
def isNaN (x : Num) : Bool := expField x == 2047 && fracField x != 0

/-- `x` is an infinity. -/
def isInf (x : Num) : Bool := expField x == 2047 && fracField x == 0

/-- `NUM.isFinite` (00_scope.md R14): neither infinite nor NaN. -/
def isFinite (x : Num) : Bool := expField x != 2047

/-- `x` is +0 or -0. -/
def isZero (x : Num) : Bool := expField x == 0 && fracField x == 0

/-- How many units of `2^-1074` make 1. -/
def unitsPerOne : Nat := 2 ^ 1074

/-- The magnitude of a pattern in units of `2^-1074`. An infinity reads as `2^2098`, above every finite magnitude. -/
def magUnits (x : Num) : Nat :=
  if expField x = 0 then fracField x else (2 ^ 52 + fracField x) * 2 ^ (expField x - 1)

/-- The signed value in units of `2^-1074`. -/
def units (x : Num) : Int := if signBit x then -(magUnits x : Int) else (magUnits x : Int)

/-! ## Making a bit pattern -/

/-- Round the magnitude `num / den`, in units of the format's smallest positive value, to `p` significant bits, to
nearest with ties to even, and give the exponent and fraction fields as one number. A magnitude below `2^p` units
keeps every unit (gradual underflow); a carry out of the significand moves into the exponent. -/
def roundMag (p num den : Nat) : Nat :=
  let sh := Nat.log2 (num / den) - (p - 1)
  let d := den * 2 ^ sh
  let m := num / d
  let r := num % d
  let up := decide (d < 2 * r) || (decide (2 * r = d) && decide (m % 2 = 1))
  sh * 2 ^ (p - 1) + (if up then m + 1 else m)

/-- A binary64 pattern from a sign and the exponent and fraction fields; at or above the infinity's field it is the
infinity of its sign. -/
def packNum (neg : Bool) (fields : Nat) : Num :=
  BitVec.ofNat 64 ((if neg then 2 ^ 63 else 0) + min fields (2047 * 2 ^ 52))

/-- The binary64 nearest to `num / den` units of `2^-1074`, with the given sign. -/
def roundNum (neg : Bool) (num den : Nat) : Num := packNum neg (roundMag 53 num den)

/-- A zero of the given sign. -/
def zeroOf (neg : Bool) : Num := packNum neg 0

/-- An infinity of the given sign. -/
def infOf (neg : Bool) : Num := packNum neg (2047 * 2 ^ 52)

/-- The NaN an operation makes: a quiet NaN whose sign and payload are free (assumption 4, DESIGN CHOICE). -/
def nanOf (op : Nat) (a b : Num) : Num :=
  0x7FF8000000000000#64 ||| (Config.nanBits op a b &&& 0x8007FFFFFFFFFFFF#64)

/-! ## The operations of the numerics record (00_scope.md R14) -/

/-- Negation: the sign bit flipped. -/
def fneg (x : Num) : Num := x ^^^ 0x8000000000000000#64

/-- `NUM.abs`: the sign bit cleared. -/
def fabs (x : Num) : Num := x &&& 0x7FFFFFFFFFFFFFFF#64

/-- `NUM.add`. An exact zero sum is +0 unless both operands are negative zeros. -/
def fadd (a b : Num) : Num :=
  if isNaN a || isNaN b then nanOf 0 a b
  else if isInf a then (if isInf b && (signBit a != signBit b) then nanOf 0 a b else a)
  else if isInf b then b
  else
    let n := units a + units b
    if n = 0 then zeroOf (signBit a && signBit b) else roundNum (decide (n < 0)) n.natAbs 1

/-- `NUM.sub`. -/
def fsub (a b : Num) : Num := fadd a (fneg b)

/-- `NUM.mul`. -/
def fmul (a b : Num) : Num :=
  let neg := signBit a != signBit b
  if isNaN a || isNaN b then nanOf 1 a b
  else if isInf a || isInf b then (if isZero a || isZero b then nanOf 1 a b else infOf neg)
  else roundNum neg (magUnits a * magUnits b) unitsPerOne

/-- `NUM.div`. -/
def fdiv (a b : Num) : Num :=
  let neg := signBit a != signBit b
  if isNaN a || isNaN b then nanOf 2 a b
  else if isInf a then (if isInf b then nanOf 2 a b else infOf neg)
  else if isInf b then zeroOf neg
  else if isZero b then (if isZero a then nanOf 2 a b else infOf neg)
  else roundNum neg (magUnits a * unitsPerOne) (magUnits b)

/-- `NUM.ofInt`. -/
def ofInt (i : Int) : Num := roundNum (decide (i < 0)) (i.natAbs * unitsPerOne) 1

/-- The integer `floor(x)` of a finite `x`. -/
def floorInt (x : Num) : Int := units x / (unitsPerOne : Int)

/-- `NUM.floor`: an infinity and a zero are their own floor. -/
def ffloor (x : Num) : Num :=
  if isNaN x then nanOf 3 x x
  else if isInf x || isZero x then x
  else ofInt (floorInt x)

/-- `NUM.lt`: false on a NaN operand (00_scope.md R12). -/
def flt (a b : Num) : Bool := !isNaN a && !isNaN b && decide (units a < units b)

/-- `NUM.le`: false on a NaN operand. -/
def fle (a b : Num) : Bool := !isNaN a && !isNaN b && decide (units a ≤ units b)

/-- `NUM.eq`: false on a NaN operand; +0 equals -0. -/
def feq (a b : Num) : Bool := !isNaN a && !isNaN b && decide (units a = units b)

/-- `NUM.toF32` (00_scope.md R19): nearest binary32, ties to even; a magnitude beyond the largest binary32 becomes the
infinity of its sign. One unit of binary32 is `2^-149`, that is `2^925` units of binary64. -/
def toF32 (x : Num) : F32 :=
  if isNaN x then 0x7FC00000#32 ||| ((Config.nanBits 4 x x).truncate 32 &&& 0x803FFFFF#32)
  else
    let fields := if isInf x then 255 * 2 ^ 23 else roundMag 24 (magUnits x) (2 ^ 925)
    BitVec.ofNat 32 ((if signBit x then 2 ^ 31 else 0) + min fields (255 * 2 ^ 23))

end Sys2Proof.Machine
end

