-- ==== Sys2Proof/Machine/Numerics.lean ====
section
/-! DEFINITION. The named constants (00_scope.md R10), the helper functions over `Num` (00_scope.md R15 to R18), the open
functions of the numerics record with their stated laws (40_primitive_math.md R140, R147) and the primitive math
(40_primitive_math.md R140 to R146). -/

namespace Sys2Proof.Machine

/-! ## Constants -/

/-- The binary64 nearest to the decimal `num / den`. -/
def decimal (num den : Nat) : Num := roundNum false (num * unitsPerOne) den

/-- The binary64 nearest to `- num / den`. -/
def negDecimal (num den : Nat) : Num := roundNum true (num * unitsPerOne) den

/-- +0. -/
def n0 : Num := 0#64
def nHalf : Num := decimal 1 2
def n1 : Num := decimal 1 1
def n2 : Num := decimal 2 1
def nNeg1 : Num := negDecimal 1 1
def nNegHalf : Num := negDecimal 1 2

/-- `ExpThreshold = 0.001` (00_scope.md R10). -/
def expThreshold : Num := decimal 1 1000
/-- `FbThreshold = 1.0e-6`. -/
def fbThreshold : Num := decimal 1 1000000
/-- `SkewMin = 1/64`. -/
def skewMin : Num := decimal 1 64
/-- `SqMax = 1 - 1/64`. -/
def sqMax : Num := decimal 63 64
/-- `ResMax = 0.99`. -/
def resMax : Num := decimal 99 100
/-- `FsMin = 1.0`. -/
def fsMin : Num := decimal 1 1
/-- `FsMax = 768000.0`. -/
def fsMax : Num := decimal 768000 1
/-- `CutMin = 0.0`. -/
def cutMin : Num := decimal 0 1
/-- `CutMax = 160.0`. -/
def cutMax : Num := decimal 160 1
/-- `GLOBAL_ID = -1`, an `I32`. -/
def globalId : Word := 0xFFFFFFFF#32
/-- `LOG2_10 = 3.321928094887362`. -/
def log2Ten : Num := decimal 3321928094887362 1000000000000000
/-- `PI = 3.141592653589793`. -/
def piNum : Num := decimal 3141592653589793 1000000000000000
/-- `SQRT2 = 1.4142135623730951`. -/
def sqrt2 : Num := decimal 14142135623730951 10000000000000000
/-- `A4_HZ = 440.0`. -/
def a4Hz : Num := decimal 440 1
/-- `A4_PITCH = 69.0`. -/
def a4Pitch : Num := decimal 69 1
/-- `LEN_MAX = 4294967295`, a `U32`. -/
def lenMax : Word := 0xFFFFFFFF#32

/-! ## Helpers of 00_scope.md R15 to R18 -/

/-- `clamp(x, lo, hi)`; a NaN passes through (00_scope.md R15). -/
def clamp (x lo hi : Num) : Num := if flt x lo then lo else if flt hi x then hi else x

/-- `fmin(a, b)`; a NaN in `a` returns `b`. -/
def fmin (a b : Num) : Num := if flt a b then a else b

/-- `fmax(a, b)`; a NaN in `a` returns `b`. -/
def fmax (a b : Num) : Num := if flt b a then a else b

/-- `RoundInt(x) = floor(x + 0.5)`, for finite `x`. -/
def roundInt (x : Num) : Int := floorInt (fadd x nHalf)

/-- `Sanitize(v, lo, hi, dflt)`: NaN becomes the default, anything else is clamped. -/
def sanitize (v lo hi dflt : Num) : Num := if isNaN v then dflt else clamp v lo hi

/-- `ToBool(v) = (v >= 0.5)`; NaN is false. -/
def toBool (v : Num) : Bool := fle nHalf v

/-- `clamp` on integers, as CFG.STACK and CFG.DELAY use it (47_stacked_voice.md R300, 48_delay.md R330). -/
def clampInt (x lo hi : Int) : Int := if x < lo then lo else if hi < x then hi else x

/-- `Frac(x) = x - floor(x)` (00_scope.md R16). -/
def frac (x : Num) : Num := fsub x (ffloor x)

/-- `WrapState(x)`: the fractional part, or 0 where it is not finite or not in `[0, 1)` (00_scope.md R16). -/
def wrapState (x : Num) : Num :=
  let r := frac x
  if isFinite r && fle n0 r && flt r n1 then r else n0

/-- `Guard(w)`: a non-finite value becomes a signed half (00_scope.md R17). -/
def guardNum (w : Num) : Num := if isFinite w then w else if flt w n0 then nNegHalf else nHalf

/-- `sat_inc` on a voice age (00_scope.md R18). -/
def satInc (n : Word) : Word := if n = lenMax then lenMax else n + 1

/-! ## The open functions with the laws the spec states of them (40_primitive_math.md R140, R147; assumption 3) -/

/-- `r` where it lies in `[lo, hi]`, else `d`: an open function's value kept to a law. -/
def kept (r lo hi d : Num) : Num := if fle lo r && fle r hi then r else d

/-- The least positive binary64. -/
def leastPositive : Num := 1#64

/-- The operand EnvTime gives `exp2` (R141). -/
def envOperand (v : Int) : Num := fdiv (fmul (ofInt v) log2Ten) (decimal 20 1)

/-- `x` is EnvTime's operand for an index in `0..80`. -/
def isEnvOperand (x : Num) : Bool := (List.range 81).any fun v => x == envOperand v

/-- What R142 asks of `r = exp2(..)` in `EnvRate`: the rate is above 0 at every sample rate, so at the largest. -/
def ratePositive (r : Num) : Bool := flt n0 (fdiv n1 (fmul (fmul (decimal 1 1000) r) fsMax))

/-- `r` where R140 and R147 (b) allow it of `exp2` at `x`: positive, and finite for `x` in `[-20, 20]`; and on the
operands of EnvTime as R142 asks. -/
def expAllowed (x r : Num) : Bool :=
  flt n0 r && (isFinite r || !(fle (negDecimal 20 1) x && fle x (decimal 20 1))) &&
    (ratePositive r || !isEnvOperand x)

/-- `NUM.exp2`: exactly 1 at 0 (R147 c); NaN, -Inf and +Inf as R140 gives them; positive for every finite operand (R140)
and finite on `[-20, 20]` (R147 b). The ranges the rules state of what it feeds hold too, and no more than they say:
`[1/16, 16]` on `[-4, 4]` (41_oscillator.md R163, 49_processor.md R355), and a positive envelope rate (R142). Otherwise
whatever the open function gives. DESIGN CHOICE: `exp2(1)` stays open in `[1/16, 16]`, since R147 fixes `exp2` at 0 alone
and assumes nothing else, although R140 and 95_test_vectors.md (L2.1) give `pitchToFreq(81) = 880` and mark it exact for
any `NUM`, which needs `exp2(1) = 2`. So stay the values at the operands of EnvTime, although R142 gives
`EnvRate(v, 1) = 1` for `v <= 60`, and all others that a worked value of the spec needs (assumption 23). -/
def exp2 (x : Num) : Num :=
  if isNaN x then nanOf 5 x x
  else if isInf x then (if signBit x then n0 else x)
  else if isZero x then n1
  else
    let r := Config.exp2Free x
    if fle (negDecimal 4 1) x && fle x (decimal 4 1) then kept r (decimal 1 16) (decimal 16 1) n1
    else if expAllowed x r then r
    else if fle (negDecimal 20 1) x && fle x (decimal 20 1) then n1
    else leastPositive

/-- `NUM.log2`: exactly 0 at 1 and 1 at 2 (R147 d); finite on positive finite operands (R147 b). -/
def log2Num (x : Num) : Num :=
  if feq x n1 then n0
  else if feq x n2 then n1
  else
    let r := Config.log2Free x
    if isFinite x && flt n0 x then (if isFinite r then r else n0) else r

/-- A value of `sin` or `cos` kept as R147 (e) states it on `[0, pi/2]`. -/
def quarterWave (x r : Num) : Num := if fle n0 x && fle x (fdiv piNum n2) then kept r n0 n1 n0 else r

/-- `NUM.sin` (radians), bound by R147 (e) alone (assumption 23). -/
def sinNum (x : Num) : Num := quarterWave x (Config.sinFree x)

/-- `NUM.cos` (radians), bound by R147 (e) alone (assumption 23). -/
def cosNum (x : Num) : Num := quarterWave x (Config.cosFree x)

/-! ## Primitive math (40_primitive_math.md) -/

/-- `pitchToFreq(p) = 440 * 2^((p - 69)/12)` (R140): 440 exactly at 69; what it is at 81 rests on `exp2(1)`
(assumption 23). -/
def pitchToFreq (p : Num) : Num := fmul a4Hz (exp2 (fdiv (fsub p a4Pitch) (decimal 12 1)))

/-- `EnvTime(v) = 0.001 * exp2(v * LOG2_10 / 20)` seconds (R141). -/
def envTime (v : Int) : Num :=
  fmul (decimal 1 1000) (exp2 (envOperand v))

/-- `EnvRate(v, fs) = fmin(1, 1 / (EnvTime(v) * fs))` (R142). DESIGN CHOICE: it is in `(0, 1]`; that it is 1 at `fs = 1`
for `v` from 25 to 60 needs more of `exp2` than R147 fixes and stays open (assumption 23). -/
def envRate (v : Int) (fs : Num) : Num := fmin n1 (fdiv n1 (fmul (envTime v) fs))

/-- `PanLaw(pan)`: the equal-power gains, left and right (R143). DESIGN CHOICE: both are in `[0, SQRT2]`; the centre gains
of 1, the sum of the squares and with them the default note's peak of exactly 0.5 (49_processor.md R369,
95_test_vectors.md T8, P1) need values of `sin`, `cos` and `exp2` that R147 does not fix, and stay open (assumption 23). -/
def panLaw (pan : Num) : Num × Num :=
  let theta := fmul (fadd pan n1) (fdiv piNum (decimal 4 1))
  (fmul sqrt2 (cosNum theta), fmul sqrt2 (sinNum theta))

/-- The default of R144: `t * (1.5 - 0.5 * t * t)`. -/
def sinPolynomial (t : Num) : Num := fmul t (fsub (decimal 3 2) (fmul (fmul nHalf t) t))

/-- `SinShape(t)`, the function the parameters hold (R144; assumption 5). -/
def sinShape (Z : Config.Params) (t : Num) : Num :=
  match Z.sineShape with
  | .polynomial => sinPolynomial t
  | .other f => f t

/-- `SafeRate(fs)` (R145). -/
def safeRate (fs : Num) : Num := if isNaN fs then fsMin else clamp fs fsMin fsMax

/-- `OnePoleAlpha(cutoff, fs)` (R146). -/
def onePoleAlpha (cutoff fs : Num) : Num :=
  let f := fmin (fdiv fs n2) (pitchToFreq cutoff)
  let rc := fdiv n1 (fmul (fmul n2 piNum) f)
  let dt := fdiv n1 fs
  let a := fmin n1 (fdiv dt (fadd rc dt))
  if isNaN a then n0 else clamp a n0 n1

end Sys2Proof.Machine
end

