-- ==== Sys2Proof/Machine/State.lean ====
section
/-! DEFINITION. The state of the machine as plain data (10_state.md R30 to R53), the reasons a step can stop, and the
state after reset (10_state.md R58, 70_reset_and_hazards.md R430). -/

namespace Sys2Proof.Machine

variable {Z : Config.Params}

/-! ## Status registers -/

/-- STATUS (10_state.md R31). -/
structure Status where
  active : Bool
  cfgValid : Bool
deriving DecidableEq, Repr, Inhabited

/-- The causes the FAULT register can hold (10_state.md R32), in the order of their codes 0 to 3. -/
inductive Cause where
  | none
  | illegalCommand
  | badState
  | badOperand
deriving DecidableEq, Repr, Inhabited

/-! ## The Config record (10_state.md R44) -/

/-- `WaveCfg` (41_oscillator.md R161). -/
structure WaveCfg where
  up : Num
  down : Num
  b1 : Num
  b2 : Num
  sinF : Num
  triF : Num
  sq : Num
deriving DecidableEq, Repr, Inhabited

/-- `OpCfg` (41_oscillator.md R163). -/
structure OpCfg where
  ratio : Num
  level : Num
  wave : WaveCfg
  sync : Bool
  fb : Num
deriving DecidableEq, Repr, Inhabited

/-- `EnvCfg` (42_envelope.md R190). -/
structure EnvCfg where
  attackDelta : Num
  decayRate : Num
  releaseRate : Num
  sustain : Num
deriving DecidableEq, Repr, Inhabited

/-- The stack mode (47_stacked_voice.md R300). -/
inductive StkMode where
  | unison
  | harmonic
deriving DecidableEq, Repr, Inhabited

/-- One entry per modulation destination (44_modulation.md R232). -/
structure PerDest (α : Type) where
  pitch : α
  level : α
  pan : α
  cutoff : α
  resonance : α
  mix : α
  lfoSpeed : α
  lfoLevel : α
deriving DecidableEq, Repr, Inhabited

/-- CFG (10_state.md R44): the derived coefficients, written only by RECALC's `CFG.*` operations. -/
structure Cfg where
  fs : Num
  invFs : Num
  master : Num
  bend : Num
  wheel : Num
  after : Num
  mono : Bool
  car : OpCfg
  mod : OpCfg
  pan : Num
  lfoWave : WaveCfg
  lfoSpeed : Num
  lfoLevel : Num
  amp : EnvCfg
  fmEnv : EnvCfg
  modEnv : EnvCfg
  cutoff : Num
  res : Num
  mix : Num
  filterOn : Bool
  depth : PerDest PerSource
  dActive : PerDest Bool
  stkMode : StkMode
  stackSize : Nat
  detune : Num
  dLen : Nat
  dFb : Num
  dMix : Num
  dCross : Bool
  dLpAlpha : Num
  dHpAlpha : Num
deriving DecidableEq, Repr, Inhabited

/-- The pitch tables `TABLE[ch][key]` (10_state.md R53). -/
abbrev PitchTables (Z : Config.Params) := Vector (Vector Num Config.KEYS) Z.NCH

/-- CFG while it is undefined (10_state.md R44; 93_implementation_defined.md U1): a free value (assumption 8). -/
opaque undefinedCfg : Nat → Cfg

/-- TABLE while it is undefined (10_state.md R53; 93_implementation_defined.md U1): a free value (assumption 8). -/
opaque undefinedTable : Nat → PitchTables Z

/-! ## The voice pool (10_state.md R45 to R50) -/

/-- The lifecycle state of a voice (46_scheduler.md R279). -/
inductive Life where
  | inactive
  | active
  | release
deriving DecidableEq, Repr, Inhabited

/-- `OpState` (10_state.md R47). -/
structure OpState where
  phase : Num
  prevOut : Num
deriving DecidableEq, Repr, Inhabited

/-- `EnvState` (10_state.md R48). -/
structure EnvState where
  level : Num
  decaying : Bool
deriving DecidableEq, Repr, Inhabited

/-- `SvfState` (10_state.md R49). -/
structure SvfState where
  low : Num
  band : Num
deriving DecidableEq, Repr, Inhabited

/-- One thing per stereo channel: `c = 0` is `left`, `c = 1` is `right`. -/
structure Stereo (α : Type) where
  left : α
  right : α
deriving DecidableEq, Repr, Inhabited

/-- A voice (10_state.md R45). `stackSize` is the spec's `S`, `length` its `Length`. -/
structure Voice (Z : Config.Params) where
  state : Life
  note : MidiNote Z
  length : Word
  pressure : Num
  stackSize : Nat
  base : Vector Num Z.NS
  sync : Vector Num Z.NS
  car : Vector OpState Z.NS
  mod : Vector OpState Z.NS
  amp : EnvState
  fm : EnvState
  modEnv : EnvState
  lfoPhase : Num
  lfoOut : Num
  flt : Stereo SvfState
deriving DecidableEq, Repr

/-! ## Reservation rings and delay (10_state.md R51, R52) -/

/-- A note reservation; free when `offset < 0`, live when `offset >= 0`. -/
structure NoteRes (Z : Config.Params) where
  note : MidiNote Z
  offset : Int
deriving DecidableEq, Repr

/-- A poly-pressure reservation. -/
structure PressRes (Z : Config.Params) where
  note : MidiNote Z
  pressure : Num
  offset : Int
deriving DecidableEq, Repr

/-- A space of `Num` elements as (index, value) pairs in canonical form: indices strictly rising, no entry equal to what
an unlisted index reads as (`Memory.wf` in Machine/Ops.lean). -/
abbrev Memory := List (Nat × Num)

/-- One delay channel (10_state.md R52): its RAM, where an unlisted element reads +0, its write cursor, the previous
sample's feedback and the two one-pole states. -/
structure DelayChan where
  ram : Memory
  w : Nat
  fb : Num
  lp : Num
  hp : Num
deriving DecidableEq, Repr, Inhabited

/-! ## The whole machine (10_state.md R30) -/

/-- The machine's state. The first ten fields are the tree of 10_state.md R30; `cmd`, `ctl`, `resetIn`,
`resetAfter` and `out` are the ports and the reset input (30_encoding.md R110, 70_reset_and_hazards.md R430); `uops`,
`ret` and `free` are the model's own (assumptions 6, 9, 10). `State` alone is the state of the reference instance
(assumption 1). -/
structure State (Z : Config.Params := Config.params) where
  status : Status
  fault : Cause
  param : Memory
  cfg : Cfg
  dcap : Nat
  table : PitchTables Z
  voices : Vector (Voice Z) Z.NV
  nres : Vector (NoteRes Z) Z.RN
  pres : Vector (PressRes Z) Z.RP
  dly : Stereo DelayChan
  /-- words that have arrived at the command port and are not yet consumed -/
  cmd : List Word
  /-- words that have arrived at the control port and are not yet consumed -/
  ctl : List Word
  /-- the reset input: asserted -/
  resetIn : Bool
  /-- the reset input: asserted during the coming step, after this many of the pairs that step emits (assumption 11) -/
  resetAfter : Option Nat
  /-- the sample pairs emitted on the two output ports, in order -/
  out : List (F32 × F32)
  /-- the model's unit-operation port: words that issue a unit operation on its own (assumption 9) -/
  uops : List Word
  /-- what the last unit operation issued on that port returned (assumption 9) -/
  ret : List Num
  /-- the model's free-value counter (assumption 10) -/
  free : Nat
deriving DecidableEq, Repr

/-! ## Reasons a step can stop -/

/-- Why the machine stops with a fault: it never does, so there is no constructor. Every error of a host is recorded in
the FAULT register and the machine goes on (60_exceptions.md R390, R394). Safe: nothing raises one. -/
inductive Fault where
deriving DecidableEq, Repr

/-- Why the machine has no meaning for what it was given. -/
inductive Refusal where
  /-- Raised by an arm of `exec` whose instruction has no meaning yet. Safe. -/
  | notModelled (mnemonic : String)
  /-- Raised by `step` where a whole frame on the model's own unit-operation port names no unit operation: an id that
  30_encoding.md R120 does not assign, a selector that names no voice, copy, channel, destination or record, or a bit
  the frame does not use. No operand value is refused. Safe: no host reaches that port (assumption 9). -/
  | notAUnitOperation
deriving DecidableEq, Repr

/-! ## Reset values -/

/-- The note of a voice or slot after reset (10_state.md R45): channel 0, pitch 0, velocity 0, `GLOBAL_ID`. -/
def MidiNote.resetNote : MidiNote Z := ⟨⟨0, Z.nch_pos⟩, 0, 0, 0xFFFFFFFF⟩

/-- The reset voice (10_state.md R45). -/
def Voice.reset : Voice Z where
  state := .inactive
  note := MidiNote.resetNote
  length := 0
  pressure := 0
  stackSize := 1
  base := Vector.replicate _ 0
  sync := Vector.replicate _ 0
  car := Vector.replicate _ ⟨0, 0⟩
  mod := Vector.replicate _ ⟨0, 0⟩
  amp := ⟨0, false⟩
  fm := ⟨0, false⟩
  modEnv := ⟨0, false⟩
  lfoPhase := 0
  lfoOut := 0
  flt := ⟨⟨0, 0⟩, ⟨0, 0⟩⟩

/-- A free note slot (10_state.md R51). -/
def NoteRes.reset : NoteRes Z := ⟨MidiNote.resetNote, -1⟩

/-- A free pressure slot (10_state.md R51). -/
def PressRes.reset : PressRes Z := ⟨MidiNote.resetNote, 0, -1⟩

/-- A cleared delay channel (10_state.md R52). -/
def DelayChan.reset : DelayChan := ⟨[], 0, 0, 0, 0⟩

/-- The value CFG is given at reset: every number 0, every flag false. The spec leaves CFG undefined there and no
command reads it (assumption 8, DESIGN CHOICE). -/
def Cfg.reset : Cfg :=
  let wave : WaveCfg := ⟨0, 0, 0, 0, 0, 0, 0⟩
  let op : OpCfg := ⟨0, 0, wave, false, 0⟩
  let env : EnvCfg := ⟨0, 0, 0, 0⟩
  let src : PerSource := ⟨0, 0, 0, 0, 0⟩
  { fs := 0, invFs := 0, master := 0, bend := 0, wheel := 0, after := 0, mono := false, car := op, mod := op, pan := 0,
    lfoWave := wave, lfoSpeed := 0, lfoLevel := 0, amp := env, fmEnv := env, modEnv := env, cutoff := 0, res := 0,
    mix := 0, filterOn := false, depth := ⟨src, src, src, src, src, src, src, src⟩,
    dActive := ⟨false, false, false, false, false, false, false, false⟩, stkMode := .unison, stackSize := 0, detune := 0,
    dLen := 0, dFb := 0, dMix := 0, dCross := false, dLpAlpha := 0, dHpAlpha := 0 }

end Sys2Proof.Machine

namespace Sys2Proof.Config

open Sys2Proof.Machine

/-- The state after hardware reset, for any parameters (10_state.md R58, 70_reset_and_hazards.md R430). PARAM lists
nothing, so every register reads its default; CFG and TABLE hold the values of assumption 8; the ports are empty. -/
def Params.reset (Z : Params) : State Z where
  status := ⟨false, false⟩
  fault := .none
  param := []
  cfg := Cfg.reset
  dcap := 0
  table := Vector.replicate _ (Vector.replicate _ 0)
  voices := Vector.replicate _ Voice.reset
  nres := Vector.replicate _ NoteRes.reset
  pres := Vector.replicate _ PressRes.reset
  dly := ⟨DelayChan.reset, DelayChan.reset⟩
  cmd := []
  ctl := []
  resetIn := false
  resetAfter := none
  out := []
  uops := []
  ret := []
  free := 0

end Sys2Proof.Config

namespace Sys2Proof.Machine

/-- The state after hardware reset of the reference instance. -/
def State.reset : State := Config.params.reset

end Sys2Proof.Machine
end

