-- ==== Sys2Proof/Machine/Flags.lean ====
section
/-! DEFINITION. Every one-bit value the machine computes (10_state.md R56): command legality, voice and slot liveness, the
gate, the envelopes' ends, the configuration's flags. -/

namespace Sys2Proof.Machine

variable {Z : Config.Params}

/-- The core is Ready: active and configured (49_processor.md R370). -/
def ready (s : State Z) : Bool := s.status.active && s.status.cfgValid

/-- A live voice is Active or Release (00_scope.md, glossary). -/
def live (v : Voice Z) : Bool := v.state != .inactive

/-- The gate, true exactly when the voice is Active (47_stacked_voice.md R304). -/
def gateOf (v : Voice Z) : Bool := v.state == .active

/-- A reservation slot is free when its offset is negative (10_state.md R51). -/
def slotFree (offset : Int) : Bool := decide (offset < 0)

/-- A reservation slot is live when its offset is not negative (10_state.md R51). -/
def slotLive (offset : Int) : Bool := decide (0 ≤ offset)

/-- The event is a note-on: `velocity >= 0` (46_scheduler.md R278). -/
def isNoteOn (ev : MidiNote Z) : Bool := fle n0 ev.velocity

/-- The attack has reached its end: the level is at or above 1, or is NaN (42_envelope.md R193). -/
def attackDone (level : Num) : Bool := fle n1 level || isNaN level

/-- `CFG.dActive[d]`: at least one depth is non-zero, and -0 counts as zero (44_modulation.md R238). -/
def destActive (d : PerSource) : Bool :=
  !feq d.lfo n0 || !feq d.env n0 || !feq d.wheel n0 || !feq d.vel n0 || !feq d.press n0

/-- `CFG.filterOn` (43_filters.md R213). -/
def filterEnabled (mix : Num) (mixActive : Bool) : Bool := flt n0 mix || mixActive

/-- The voice falls silent: it is in Release and its amplitude level is exactly 0 (47_stacked_voice.md R312). -/
def releaseDone (v : Voice Z) : Bool := v.state == .release && feq v.amp.level n0

/-- The sync driver wraps on this sample (41_oscillator.md R164). -/
def syncFires (x dS : Num) : Bool := fle n1 x && flt n0 dS

/-- A hard sync applies to the operator (41_oscillator.md R165, line 1). -/
def syncApplies (c : OpCfg) (pulse : Num) : Bool := c.sync && fle n0 pulse

/-- `isSame` (46_scheduler.md R273): pitches are compared by `Num` equality, under which +0 equals -0 (00_scope.md R14).
70_reset_and_hazards.md R436 (b) says "bit-for-bit" of the same comparison; the hazards of that file are what the rules
give (its section 2), and the rule it cites is R273 (assumption 21, DEDUCED). -/
def isSame (a b : MidiNote Z) : Bool :=
  if a.ch ≠ b.ch then false
  else if a.id ≠ globalId ∧ b.id ≠ globalId then decide (a.id = b.id)
  else feq a.pitch b.pitch

end Sys2Proof.Machine
end

