-- ==== Sys2Proof/Machine/ParamMap.lean ====
section
/-! DEFINITION. The parameter register map (10_state.md R33 to R43): for each mapped address its bounds and its default. -/

namespace Sys2Proof.Machine

variable {Z : Config.Params}

/-- One row of the tables of 10_state.md R34 to R43: `lo`, `hi`, `default`. -/
structure ParamRow where
  lo : Num
  hi : Num
  dflt : Num
deriving DecidableEq, Repr

/-- Bounds -1e9 and 1e9 of the tuning fields (10_state.md R43). -/
def tuneRow (dflt : Num) : ParamRow := ⟨negDecimal 1000000000 1, decimal 1000000000 1, dflt⟩

/-- The four registers of an envelope group (10_state.md R37): attack, decay, sustain, release. -/
def envRows : List ParamRow :=
  [⟨n0, decimal 80 1, n0⟩, ⟨n0, decimal 80 1, decimal 40 1⟩, ⟨n0, n1, n1⟩, ⟨n0, decimal 80 1, decimal 20 1⟩]

/-- The five depth registers of destination `d` (10_state.md R42): `[-128, 128]` for `CUTOFF` (3), `[-1, 1]` otherwise. -/
def depthRows (d : Nat) : List ParamRow :=
  List.replicate 5
    (if d = 3 then ⟨negDecimal 128 1, decimal 128 1, n0⟩ else ⟨nNeg1, n1, n0⟩)

/-- The fifteen registers of a tuning channel (10_state.md R43). -/
def tuneRows : List ParamRow :=
  [tuneRow n2, tuneRow n1, tuneRow n1, tuneRow (decimal 12 1),
   tuneRow n2, tuneRow n1, tuneRow n1, tuneRow n1,
   tuneRow n1, tuneRow n1, tuneRow n1, tuneRow n1,
   ⟨n1, decimal 128 1, decimal 12 1⟩, ⟨negDecimal 128 1, decimal 128 1, n0⟩, ⟨n0, decimal 127 1, a4Pitch⟩]

/-- The rows of group `g`, in index order; a group that is not mapped has none. -/
def groupRows (Z : Config.Params) (g : Nat) : List ParamRow :=
  if g = 0x00 then -- R34: MASTER_VOLUME, PITCH_BEND, MOD_WHEEL, AFTER_TOUCH, MONO
    [⟨n0, n1, nHalf⟩, ⟨negDecimal 48 1, decimal 48 1, n0⟩, ⟨n0, n1, n0⟩, ⟨n0, n1, n0⟩, ⟨n0, n1, n0⟩]
  else if g = 0x01 then -- R35: CAR_PITCH, CAR_LEVEL, CAR_SHAPE_X, CAR_SHAPE_Y, CAR_SYNC, CAR_PAN
    [⟨negDecimal 48 1, decimal 48 1, n0⟩, ⟨n0, n1, n1⟩, ⟨nNeg1, n1, n0⟩, ⟨nNeg1, n1, nNeg1⟩, ⟨n0, n1, n0⟩,
     ⟨nNeg1, n1, n0⟩]
  else if g = 0x02 then -- R36: MOD_PITCH, MOD_LEVEL, MOD_SHAPE_X, MOD_SHAPE_Y, MOD_SYNC, MOD_FEEDBACK
    [⟨negDecimal 48 1, decimal 48 1, n0⟩, ⟨n0, decimal 4 1, n0⟩, ⟨nNeg1, n1, n0⟩, ⟨nNeg1, n1, nNeg1⟩, ⟨n0, n1, n0⟩,
     ⟨n0, n1, n0⟩]
  else if g = 0x03 ∨ g = 0x04 ∨ g = 0x05 then envRows -- R37: AMP, FM, MODENV
  else if g = 0x06 then -- R38: FLT_CUTOFF, FLT_RESONANCE, FLT_MIX
    [⟨n0, decimal 160 1, decimal 128 1⟩, ⟨n0, n1, n0⟩, ⟨n0, n1, n0⟩]
  else if g = 0x07 then -- R39: DLY_TIME, DLY_FEEDBACK, DLY_CROSS, DLY_LOW_CUT, DLY_HIGH_CUT, DLY_MIX
    [⟨n0, nHalf, decimal 1 4⟩, ⟨n0, n1, decimal 3 10⟩, ⟨n0, n1, n0⟩, ⟨n0, decimal 160 1, n0⟩,
     ⟨n0, decimal 160 1, decimal 160 1⟩, ⟨n0, n1, n0⟩]
  else if g = 0x08 then -- R40: LFO_SPEED, LFO_SHAPE_X, LFO_SHAPE_Y, LFO_LEVEL
    [⟨n0, decimal 100 1, n2⟩, ⟨nNeg1, n1, n0⟩, ⟨nNeg1, n1, nNeg1⟩, ⟨n0, n1, n1⟩]
  else if g = 0x09 then -- R41: STK_MODE, STK_COUNT, STK_DETUNE
    [⟨n0, n1, n0⟩, ⟨n1, ofInt Z.NS, n1⟩, ⟨n0, decimal 100 1, decimal 10 1⟩]
  else if 0x10 ≤ g ∧ g < 0x18 then depthRows (g - 0x10) -- R42
  else if 0x20 ≤ g ∧ g < 0x20 + Z.NCH then tuneRows -- R43
  else []

/-- The row of address `group[15:8] ++ index[7:0]`, if it is mapped. -/
def paramRow (Z : Config.Params) (a : Nat) : Option ParamRow := (groupRows Z (a / 256))[a % 256]?

/-- The address is a mapped one (49_processor.md R350). -/
def mapped (Z : Config.Params) (a : Nat) : Bool := (paramRow Z a).isSome

/-- What a register that nothing has written reads as: its default (10_state.md R33, R58). -/
def paramDefault (Z : Config.Params) (a : Nat) : Num := match paramRow Z a with
  | some r => r.dflt
  | none => n0

end Sys2Proof.Machine
end

