-- ==== Sys2Proof/Machine/Operands.lean ====
section
/-! DEFINITION. The operand forms: sanitized parameters of a RECALC snapshot (49_processor.md R354), the operands of the
two reserve commands (46_scheduler.md R270, R271), integer operands (30_encoding.md R114), and the access to a stereo
channel, a modulation destination, an envelope and a configuration record by name. -/

namespace Sys2Proof.Machine

variable {Z : Config.Params}

/-! ## Parameters of a snapshot -/

/-- The value of register `a` as a `CFG.*` rule sees it: sanitized with the register's own row (49_processor.md R354). -/
def paramNum (Z : Config.Params) (snap : Nat → Num) (a : Nat) : Num :=
  match paramRow Z a with
  | some r => sanitize (snap a) r.lo r.hi r.dflt
  | none => n0

/-- An `Int` register: `RoundInt` of the sanitized value. -/
def paramInt (Z : Config.Params) (snap : Nat → Num) (a : Nat) : Int := roundInt (paramNum Z snap a)

/-- A `Bool` register: `ToBool` of the sanitized value. -/
def paramBool (Z : Config.Params) (snap : Nat → Num) (a : Nat) : Bool := toBool (paramNum Z snap a)

/-! ## Operands of commands -/

/-- An `I32` operand (30_encoding.md R114). -/
def i32 (w : Word) : Int := w.toInt

/-- The note of RESERVE and RESERVEP, or none where an operand is bad: `ch >= NCH`, or a pitch or second value that is
not finite (46_scheduler.md R270, R271). -/
def noteOperand (ch : BitVec 8) (pitch val velocity : Num) (id : Word) : Option (MidiNote Z) :=
  if h : ch.toNat < Z.NCH then
    if isFinite pitch && isFinite val then some ⟨⟨ch.toNat, h⟩, pitch, velocity, id⟩ else none
  else none

/-! ## Access by name -/

/-- One channel of a pair. -/
def chanGet {α : Type} (p : Stereo α) : Chan → α
  | .left => p.left
  | .right => p.right

/-- A pair with one channel replaced. -/
def chanSet {α : Type} (p : Stereo α) (c : Chan) (x : α) : Stereo α :=
  match c with
  | .left => { p with left := x }
  | .right => { p with right := x }

/-- The entry of one destination. -/
def destGet {α : Type} (t : PerDest α) : Dest → α
  | .pitch => t.pitch
  | .level => t.level
  | .pan => t.pan
  | .cutoff => t.cutoff
  | .resonance => t.resonance
  | .mix => t.mix
  | .lfoSpeed => t.lfoSpeed
  | .lfoLevel => t.lfoLevel

/-- The number of a destination (44_modulation.md R232). -/
def destNumber : Dest → Nat
  | .pitch => 0
  | .level => 1
  | .pan => 2
  | .cutoff => 3
  | .resonance => 4
  | .mix => 5
  | .lfoSpeed => 6
  | .lfoLevel => 7

/-- The five values of a source vector in source order (44_modulation.md R230). -/
def sourceList (p : PerSource) : List Num := [p.lfo, p.env, p.wheel, p.vel, p.press]

/-- An envelope's state in a voice. -/
def envGet (v : Voice Z) : EnvSel → EnvState
  | .amp => v.amp
  | .fm => v.fm
  | .modEnv => v.modEnv

/-- A voice with one envelope's state replaced. -/
def envSet (v : Voice Z) (e : EnvSel) (x : EnvState) : Voice Z :=
  match e with
  | .amp => { v with amp := x }
  | .fm => { v with fm := x }
  | .modEnv => { v with modEnv := x }

/-- An envelope's Config. -/
def envCfgGet (c : Cfg) : EnvSel → EnvCfg
  | .amp => c.amp
  | .fm => c.fmEnv
  | .modEnv => c.modEnv

/-- CFG with one envelope's Config replaced. -/
def envCfgSet (c : Cfg) (e : EnvSel) (x : EnvCfg) : Cfg :=
  match e with
  | .amp => { c with amp := x }
  | .fm => { c with fmEnv := x }
  | .modEnv => { c with modEnv := x }

/-- The parameter group of an envelope (10_state.md R37). -/
def envGroup : EnvSel → Nat
  | .amp => 0x0300
  | .fm => 0x0400
  | .modEnv => 0x0500

/-- CFG with one waveshaper record replaced (41_oscillator.md R161). -/
def waveSet (c : Cfg) (d : WaveDst) (x : WaveCfg) : Cfg :=
  match d with
  | .carrier => { c with car := { c.car with wave := x } }
  | .modulator => { c with mod := { c.mod with wave := x } }
  | .lfo => { c with lfoWave := x }

/-- CFG with one operator's record replaced. -/
def opCfgSet (c : Cfg) (o : OpSel) (x : OpCfg) : Cfg :=
  match o with
  | .carrier => { c with car := x }
  | .modulator => { c with mod := x }

/-- CFG with one one-pole coefficient replaced (43_filters.md R210). -/
def onePoleSet (c : Cfg) (f : OnePole) (a : Num) : Cfg :=
  match f with
  | .lowPass => { c with dLpAlpha := a }
  | .highPass => { c with dHpAlpha := a }

end Sys2Proof.Machine
end

