-- ==== Sys2Proof/Machine/Ops.lean ====
section
/-! DEFINITION. The named operations over memory and registers: the element spaces PARAM and delay RAM
(20_memory.md R80), voices, the output ports, the status port, and raising a fault (60_exceptions.md R392). -/

namespace Sys2Proof.Machine

variable {Z : Config.Params}

/-! ## Element spaces -/

/-- The canonical form of a space: indices strictly rising, and no entry equal to what an unlisted index reads as. -/
def Memory.wf (dflt : Nat → Num) : Memory → Bool
  | [] => true
  | [(a, v)] => v != dflt a
  | (a, v) :: (b, w) :: m => v != dflt a && decide (a < b) && Memory.wf dflt ((b, w) :: m)

/-- `MemRead`: the element at index `a`; an unlisted index reads as `dflt` says. -/
def memRead (dflt : Nat → Num) : Memory → Nat → Num
  | [], a => dflt a
  | (b, v) :: m, a => if a = b then v else memRead dflt m a

/-- Put `(a, v)` in front, unless `v` is what an unlisted `a` reads as. -/
def memCons (dflt : Nat → Num) (a : Nat) (v : Num) (m : Memory) : Memory :=
  if v = dflt a then m else (a, v) :: m

/-- `MemWrite`: exactly one element changes; the canonical form is kept. -/
def memWrite (dflt : Nat → Num) : Memory → Nat → Num → Memory
  | [], a, v => memCons dflt a v []
  | (b, w) :: m, a, v =>
    if a < b then memCons dflt a v ((b, w) :: m)
    else if a = b then memCons dflt a v m
    else (b, w) :: memWrite dflt m a v

/-- What an unlisted delay RAM element reads as: +0, since ACTIVATE clears every element (20_memory.md R84). -/
def ramDefault (_ : Nat) : Num := n0

/-- Read one delay RAM element (20_memory.md R84). -/
def ramRead (m : Memory) (i : Nat) : Num := memRead ramDefault m i

/-- Write one delay RAM element (20_memory.md R84). -/
def ramWrite (m : Memory) (i : Nat) (v : Num) : Memory := memWrite ramDefault m i v

/-- Read parameter register `a` (20_memory.md R83). -/
def paramRead (s : State Z) (a : Nat) : Num := memRead (paramDefault Z) s.param a

/-- Write parameter register `a` (20_memory.md R83). -/
def paramWrite (s : State Z) (a : Nat) (v : Num) : State Z := { s with param := memWrite (paramDefault Z) s.param a v }

/-- The pitch table entry `TABLE[ch][key]` (20_memory.md R85). -/
def tableRead (t : PitchTables Z) (ch : Fin Z.NCH) (key : Fin Config.KEYS) : Num := (t[ch])[key]

/-! ## Bounded index lists, ascending (00_scope.md R12) -/

/-- `0, 1, ..., n-1`. -/
def indices (n : Nat) : List (Fin n) := List.finRange n

/-! ## Voices, ports -/

/-- Replace one voice. -/
def setVoice (s : State Z) (i : Fin Z.NV) (v : Voice Z) : State Z := { s with voices := s.voices.set i v }

/-- `emit(L, R)`: append one pair to the output ports (00_scope.md R12). -/
def emit (s : State Z) (l r : F32) : State Z := { s with out := s.out ++ [(l, r)] }

/-- The values a unit operation issued on its own returned (assumption 9). -/
def returned (s : State Z) (xs : List Num) : State Z := { s with ret := xs }

/-- The cause's code in FAULT (10_state.md R32). -/
def causeCode : Cause → Nat
  | .none => 0
  | .illegalCommand => 1
  | .badState => 2
  | .badOperand => 3

/-- What the status port shows: `active`, `cfgValid`, `cause` (20_memory.md R87, 30_encoding.md R110 c). Reading it
changes nothing (20_memory.md R92). -/
def statusPort (s : State Z) : Bool × Bool × Nat := (s.status.active, s.status.cfgValid, causeCode s.fault)

/-! ## Taking an exception, and returning from one -/

/-- `raise Fault(cause)` (60_exceptions.md R392): the latch keeps the first cause, nothing else changes, and the command
ends. Nothing is saved, no mode changes and control goes nowhere (60_exceptions.md R394). -/
def raise (c : Cause) (s : State Z) : State Z := if s.fault = .none then { s with fault := c } else s

/-- The one event that clears the latch, hardware reset (60_exceptions.md R395, 70_reset_and_hazards.md R430): there is
no return from a fault. The state is the reset table's; a partly received frame is discarded. What the ports emitted
stays with the host, and the free-value counter goes on (assumption 11). -/
def hardReset (s : State Z) : State Z := { Z.reset with resetIn := s.resetIn, out := s.out, free := s.free }

end Sys2Proof.Machine
end

