-- ==== Sys2Proof/Machine/Filters.lean ====
section
/-! DEFINITION. The filters (43_filters.md) and the meanings of CFG.LP1, LP1.STEP, HP1.STEP, CFG.SVF, SVF.RETUNE and
SVF.STEP. -/

namespace Sys2Proof.Machine

variable {Z : Config.Params}

/-- The CFG.LP1 step: one one-pole coefficient from a cutoff pitch and `CFG.fs` (R210). -/
def cfgLp1Of (f : OnePole) (cutoff : Num) (c : Cfg) : Cfg := onePoleSet c f (onePoleAlpha cutoff c.fs)

/-- The one-pole smoother both filters share: the new state (R211, R212). -/
def smooth (alpha s x : Num) : Num := fadd s (fmul alpha (fsub x s))

/-- LP1.STEP: the new state and the output, which is that state (R211). -/
def lp1Step (alpha s x : Num) : Num × Num := (smooth alpha s x, smooth alpha s x)

/-- HP1.STEP: the new state and the input less it (R212). -/
def hp1Step (alpha s x : Num) : Num × Num := (smooth alpha s x, fsub x (smooth alpha s x))

/-- The CFG.SVF step of a RECALC; reads `CFG.dActive[MIX]` (R213, 49_processor.md R359). -/
def cfgSvfOf (Z : Config.Params) (snap : Nat → Num) (c : Cfg) : Cfg :=
  let mix := paramNum Z snap 0x0602
  { c with cutoff := paramNum Z snap 0x0600, res := paramNum Z snap 0x0601, mix := mix,
           filterOn := filterEnabled mix c.dActive.mix }

/-- What SVF.RETUNE computes for one sample of one voice. -/
structure Retuned where
  alpha : Num
  damping : Num
  mix : Num
deriving DecidableEq, Repr

/-- SVF.RETUNE (R214). -/
def svfRetune (c : Cfg) (co rs mx : Num) : Retuned :=
  { alpha := onePoleAlpha (clamp (fadd c.cutoff co) cutMin cutMax) c.fs
    damping := fsub n1 (clamp (fadd c.res rs) n0 resMax)
    mix := clamp (fadd c.mix mx) n0 n1 }

/-- SVF.STEP: the new state and the output (R215). -/
def svfStep (alpha damping : Num) (f : SvfState) (x : Num) : SvfState × Num :=
  let low := fadd f.low (fmul alpha f.band)
  let high := fsub (fsub x low) (fmul damping f.band)
  (⟨low, fadd f.band (fmul alpha high)⟩, low)

/-- SVF.STEP of one stereo channel of a voice. -/
def svfVoice (v : Voice Z) (c : Chan) (alpha damping x : Num) : Voice Z × Num :=
  let r := svfStep alpha damping (chanGet v.flt c) x
  ({ v with flt := chanSet v.flt c r.1 }, r.2)

/-! ## Meanings -/

/-- CFG.LP1: writes `CFG.dLpAlpha` or `CFG.dHpAlpha` and returns it (R210). -/
def execCfgLp1 (f : OnePole) (cutoff : Num) (s : State Z) : Host.Outcome (State Z) Fault Refusal :=
  .next (returned { s with cfg := cfgLp1Of f cutoff s.cfg } [onePoleAlpha cutoff s.cfg.fs])

/-- LP1.STEP on the low-pass state of a delay channel (R211). -/
def execLp1Step (c : Chan) (alpha x : Num) (s : State Z) : Host.Outcome (State Z) Fault Refusal :=
  let d := chanGet s.dly c
  let r := lp1Step alpha d.lp x
  .next (returned { s with dly := chanSet s.dly c { d with lp := r.1 } } [r.2])

/-- HP1.STEP on the high-pass state of a delay channel (R212). -/
def execHp1Step (c : Chan) (alpha x : Num) (s : State Z) : Host.Outcome (State Z) Fault Refusal :=
  let d := chanGet s.dly c
  let r := hp1Step alpha d.hp x
  .next (returned { s with dly := chanSet s.dly c { d with hp := r.1 } } [r.2])

/-- CFG.SVF: writes the static part of the resonant filter's Config (R213). -/
def execCfgSvf (s : State Z) : Host.Outcome (State Z) Fault Refusal :=
  .next (returned { s with cfg := cfgSvfOf Z (paramRead s) s.cfg } [])

/-- SVF.RETUNE: writes no state; returns `alpha`, `damping`, `mix` (R214). -/
def execSvfRetune (co rs mx : Num) (s : State Z) : Host.Outcome (State Z) Fault Refusal :=
  let r := svfRetune s.cfg co rs mx
  .next (returned s [r.alpha, r.damping, r.mix])

/-- SVF.STEP (R215). -/
def execSvfStep (v : Fin Z.NV) (c : Chan) (alpha damping x : Num) (s : State Z) :
    Host.Outcome (State Z) Fault Refusal :=
  let r := svfVoice s.voices[v] c alpha damping x
  .next (returned (setVoice s v r.1) [r.2])

end Sys2Proof.Machine
end

