-- ==== Sys2Proof/Machine/Delay.lean ====
section
/-! DEFINITION. The delay effect (48_delay.md) and the meanings of CFG.DELAY and DELAY.STEP. -/

namespace Sys2Proof.Machine

variable {Z : Config.Params}

/-- The CFG.DELAY step of a RECALC, given the capacity `DCAP` (R330, 49_processor.md R361). -/
def cfgDelayOf (Z : Config.Params) (snap : Nat → Num) (dcap : Nat) (c : Cfg) : Cfg :=
  let c1 :=
    { c with
      dLen := (clampInt (roundInt (fmul (paramNum Z snap 0x0700) c.fs)) 1 dcap).toNat
      dFb := paramNum Z snap 0x0701
      dCross := paramBool Z snap 0x0702
      dMix := paramNum Z snap 0x0705 }
  cfgLp1Of .highPass (paramNum Z snap 0x0703) (cfgLp1Of .lowPass (paramNum Z snap 0x0704) c1)

/-- `FbGate(v)` (R334). -/
def fbGate (v : Num) : Num := if !isFinite v || flt (fabs v) fbThreshold then n0 else v

/-- The element at a cursor (R332): a RAM of `dcap` elements has it below `dcap`; above, where no rule leads
(20_memory.md R81), what is read is a free value (assumption 13, DESIGN CHOICE). -/
def delayRead (dcap tag : Nat) (d : DelayChan) : Num :=
  if d.w < dcap then ramRead d.ram d.w else Config.absentElement tag d.w

/-- Write the element at a cursor (R332); an element that does not exist keeps nothing. -/
def delayWrite (dcap : Nat) (d : DelayChan) (v : Num) : Memory :=
  if d.w < dcap then ramWrite d.ram d.w v else d.ram

/-- Advance a cursor modulo the delay length (R332); modulo 0 it is a free value (assumption 13, DESIGN CHOICE). -/
def nextCursor (len tag w : Nat) : Nat := if len = 0 then Config.absentCursor tag w else (w + 1) % len

/-- One channel of DELAY.STEP, given its dry input and the feedback that enters it (R331 to R334): the channel with its
new RAM, cursor, filter states and next feedback, and the delayed output. -/
def delayChannel (c : Cfg) (dcap tag : Nat) (d : DelayChan) (x fbIn : Num) : DelayChan × Num :=
  let lp := lp1Step c.dLpAlpha d.lp (delayRead dcap tag d)
  let hp := hp1Step c.dHpAlpha d.hp lp.2
  ({ ram := delayWrite dcap d (fadd x fbIn), w := nextCursor c.dLen tag d.w, fb := fbGate (fmul hp.2 c.dFb), lp := lp.1,
     hp := hp.1 }, hp.2)

/-- DELAY.STEP on the delay state (R331): both channels read the previous sample's feedback pair. -/
def delayStep (c : Cfg) (dcap tag : Nat) (d : Stereo DelayChan) (xl xr : Num) : Stereo DelayChan × Num × Num :=
  let l := delayChannel c dcap (2 * tag) d.left xl (if c.dCross then d.right.fb else d.left.fb)
  let r := delayChannel c dcap (2 * tag + 1) d.right xr (if c.dCross then d.left.fb else d.right.fb)
  (⟨l.1, r.1⟩, l.2, r.2)

/-- Both cursors stand at elements the RAM has, and the length is not 0, so that R332 says all DELAY.STEP does. It holds
of every configured core that hosts drive (10_state.md R59). -/
def delayBacked (s : State Z) : Bool :=
  decide (s.dly.left.w < s.dcap) && decide (s.dly.right.w < s.dcap) && decide (0 < s.cfg.dLen)

/-- DELAY.STEP on the machine: the state and the delayed pair. The free-value counter goes on where a free value was
taken. -/
def delayRun (xl xr : Num) (s : State Z) : State Z × Num × Num :=
  let r := delayStep s.cfg s.dcap s.free s.dly xl xr
  ({ s with dly := r.1, free := if delayBacked s then s.free else s.free + 1 }, r.2.1, r.2.2)

/-! ## Meanings -/

/-- CFG.DELAY (R330). -/
def execCfgDelay (s : State Z) : Host.Outcome (State Z) Fault Refusal :=
  .next (returned { s with cfg := cfgDelayOf Z (paramRead s) s.dcap s.cfg } [])

/-- DELAY.STEP: returns the delayed pair (R331). -/
def execDelayStep (xl xr : Num) (s : State Z) : Host.Outcome (State Z) Fault Refusal :=
  let r := delayRun xl xr s
  .next (returned r.1 [r.2.1, r.2.2])

end Sys2Proof.Machine
end

