-- ==== Sys2Proof/Machine/Envelope.lean ====
section
/-! DEFINITION. The envelope generator (42_envelope.md) and the meanings of CFG.ENV and ENV.STEP. -/

namespace Sys2Proof.Machine

variable {Z : Config.Params}

/-- `EnvCfg(A, D, Sus, R, fs)` (R190). -/
def envCfg (a d : Int) (sus : Num) (r : Int) (fs : Num) : EnvCfg :=
  { attackDelta := envRate a fs, decayRate := envRate d fs, releaseRate := envRate r fs, sustain := sus }

/-- The CFG.ENV step of a RECALC, from the envelope's group and `CFG.fs` (R190, 49_processor.md R357). -/
def cfgEnvOf (Z : Config.Params) (snap : Nat → Num) (e : EnvSel) (c : Cfg) : Cfg :=
  let g := envGroup e
  envCfgSet c e
    (envCfg (paramInt Z snap g) (paramInt Z snap (g + 1)) (paramNum Z snap (g + 2)) (paramInt Z snap (g + 3)) c.fs)

/-- The level an attack step computes, under either law (R193, R198). -/
def attackLevel (law : Config.AttackLaw) (c : EnvCfg) (level : Num) : Num :=
  match law with
  | .expReverse => fadd level (fmul (fsub (fadd n1 expThreshold) level) c.attackDelta)
  | .linear => fadd level c.attackDelta

/-- Attack (R193). -/
def envAttack (law : Config.AttackLaw) (c : EnvCfg) (s : EnvState) : EnvState :=
  let l := attackLevel law c s.level
  if attackDone l then ⟨n1, true⟩ else ⟨l, s.decaying⟩

/-- Decay and sustain (R194). -/
def envDecay (c : EnvCfg) (s : EnvState) : EnvState :=
  if flt c.sustain s.level then
    let l := fadd s.level (fmul (fsub (fsub c.sustain expThreshold) s.level) c.decayRate)
    ⟨if flt c.sustain l then l else c.sustain, s.decaying⟩
  else ⟨c.sustain, s.decaying⟩

/-- Release (R195). -/
def envRelease (c : EnvCfg) (s : EnvState) : EnvState :=
  let l := fadd s.level (fmul (fsub (fneg expThreshold) s.level) c.releaseRate)
  ⟨if flt n0 l then l else n0, false⟩

/-- ENV.STEP under an attack law (R192); the value of the sample is the new level. -/
def envStepUnder (law : Config.AttackLaw) (c : EnvCfg) (s : EnvState) (gate : Bool) : EnvState :=
  if gate then (if s.decaying then envDecay c s else envAttack law c s) else envRelease c s

/-- ENV.STEP (R192). -/
def envStep (Z : Config.Params) (c : EnvCfg) (s : EnvState) (gate : Bool) : EnvState :=
  envStepUnder Z.attackLaw c s gate

/-- ENV.STEP of one envelope of a voice. -/
def envVoice (c : Cfg) (v : Voice Z) (e : EnvSel) (gate : Bool) : Voice Z × Num :=
  let x := envStep Z (envCfgGet c e) (envGet v e) gate
  (envSet v e x, x.level)

/-! ## Meanings -/

/-- CFG.ENV: writes one envelope's Config (R190). -/
def execCfgEnv (e : EnvSel) (s : State Z) : Host.Outcome (State Z) Fault Refusal :=
  .next (returned { s with cfg := cfgEnvOf Z (paramRead s) e s.cfg } [])

/-- ENV.STEP (R192). -/
def execEnvStep (e : EnvSel) (v : Fin Z.NV) (gate : Bool) (s : State Z) : Host.Outcome (State Z) Fault Refusal :=
  let r := envVoice s.cfg s.voices[v] e gate
  .next (returned (setVoice s v r.1) [r.2])

end Sys2Proof.Machine
end

