-- ==== Sys2Proof/Machine/Oscillator.lean ====
section
/-! DEFINITION. The oscillators (41_oscillator.md): waveshaper, operators, sync driver, LFO; and the meanings of
CFG.WAVE, CFG.OP, SYNC.STEP, CAR.STEP, MOD.STEP and LFO.STEP. -/

namespace Sys2Proof.Machine

variable {Z : Config.Params}

/-- `WaveCfg(shapeX, shapeY)` (R161). -/
def waveCfg (shapeX shapeY : Num) : WaveCfg :=
  let r := clamp (fdiv (fadd n1 shapeX) n2) skewMin (fsub n1 skewMin)
  let square := fle n0 shapeY
  { up := fdiv n2 r
    down := fdiv n2 (fsub n1 r)
    b1 := fdiv r n2
    b2 := fsub n1 (fdiv r n2)
    sinF := if square then n0 else fneg shapeY
    triF := if square then n1 else fadd n1 shapeY
    sq := if square then fdiv n1 (fsub n1 (fmin shapeY sqMax)) else n1 }

/-- `Wave(c, p)` (R162). -/
def wave (Z : Config.Params) (c : WaveCfg) (p : Num) : Num :=
  let t0 :=
    if flt p c.b1 then fmul p c.up
    else if flt p c.b2 then fsub n1 (fmul (fsub p c.b1) c.down)
    else fsub (fmul (fsub p c.b2) c.up) n1
  let t := clamp (fmul t0 c.sq) nNeg1 n1
  fadd (fmul c.sinF (sinShape Z t)) (fmul c.triF t)

/-- `OpCfg` from an operator's five parameters (R163). -/
def opCfg (pitch level shapeX shapeY : Num) (sync : Bool) (fb : Num) : OpCfg :=
  { ratio := exp2 (fdiv pitch (decimal 12 1)), level := level, wave := waveCfg shapeX shapeY, sync := sync, fb := fb }

/-- The CFG.OP step of a RECALC: the carrier from `CAR_*` with feedback 0, the modulator from `MOD_*` (R163,
49_processor.md R356). -/
def cfgOpOf (Z : Config.Params) (snap : Nat → Num) (o : OpSel) (c : Cfg) : Cfg :=
  match o with
  | .carrier =>
    opCfgSet c .carrier
      (opCfg (paramNum Z snap 0x0100) (paramNum Z snap 0x0101) (paramNum Z snap 0x0102) (paramNum Z snap 0x0103)
        (paramBool Z snap 0x0104) n0)
  | .modulator =>
    opCfgSet c .modulator
      (opCfg (paramNum Z snap 0x0200) (paramNum Z snap 0x0201) (paramNum Z snap 0x0202) (paramNum Z snap 0x0203)
        (paramBool Z snap 0x0204) (paramNum Z snap 0x0205))

/-- SYNC.STEP on one driver phase (R164): the new phase and the pulse. -/
def syncStep (phase dS : Num) : Num × Num :=
  let x := fadd phase dS
  let p := fdiv (frac x) dS
  let pulse := if syncFires x dS then (if !isFinite p || flt p n0 then n0 else p) else nNeg1
  (wrapState x, pulse)

/-- `OpStep` (R165): the new operator state and the output. -/
def opStep (Z : Config.Params) (c : OpCfg) (s : OpState) (delta pulse fmIn : Num) : OpState × Num :=
  let phase := if syncApplies c pulse then wrapState (fmul pulse delta) else s.phase
  let p := frac (fadd (fadd phase fmIn) (fmul c.fb s.prevOut))
  let out := fmul (guardNum (wave Z c.wave p)) c.level
  (⟨wrapState (fadd phase delta), out⟩, out)

/-- LFO.STEP on a voice (R168): the voice with its new LFO phase and output, and the output. -/
def lfoStep (c : Cfg) (v : Voice Z) (sp lv : Num) : Voice Z × Num :=
  let lfo := fmul (fmul (guardNum (wave Z c.lfoWave v.lfoPhase)) c.lfoLevel) lv
  let phase := wrapState (fadd v.lfoPhase (fmul (fmul c.lfoSpeed sp) c.invFs))
  ({ v with lfoPhase := phase, lfoOut := lfo }, lfo)

/-- SYNC.STEP of copy `k` of a voice (R164). -/
def syncVoice (v : Voice Z) (k : Fin Z.NS) (dS : Num) : Voice Z × Num :=
  let r := syncStep v.sync[k] dS
  ({ v with sync := v.sync.set k r.1 }, r.2)

/-- CAR.STEP of copy `k` of a voice (R166). -/
def carVoice (c : Cfg) (v : Voice Z) (k : Fin Z.NS) (delta pulse fmIn : Num) : Voice Z × Num :=
  let r := opStep Z c.car v.car[k] delta pulse fmIn
  ({ v with car := v.car.set k r.1 }, r.2)

/-- MOD.STEP of copy `k` of a voice (R167): no external FM input. -/
def modVoice (c : Cfg) (v : Voice Z) (k : Fin Z.NS) (delta pulse : Num) : Voice Z × Num :=
  let r := opStep Z c.mod v.mod[k] delta pulse n0
  ({ v with mod := v.mod.set k r.1 }, r.2)

/-! ## Meanings -/

/-- CFG.WAVE: writes one waveshaper record (R161). -/
def execCfgWave (dst : WaveDst) (shapeX shapeY : Num) (s : State Z) : Host.Outcome (State Z) Fault Refusal :=
  .next (returned { s with cfg := waveSet s.cfg dst (waveCfg shapeX shapeY) } [])

/-- CFG.OP: writes one operator's record from its parameter registers (R163). -/
def execCfgOp (o : OpSel) (s : State Z) : Host.Outcome (State Z) Fault Refusal :=
  .next (returned { s with cfg := cfgOpOf Z (paramRead s) o s.cfg } [])

/-- SYNC.STEP (R164). -/
def execSyncStep (v : Fin Z.NV) (k : Fin Z.NS) (dS : Num) (s : State Z) : Host.Outcome (State Z) Fault Refusal :=
  let r := syncVoice s.voices[v] k dS
  .next (returned (setVoice s v r.1) [r.2])

/-- CAR.STEP (R166). -/
def execCarStep (v : Fin Z.NV) (k : Fin Z.NS) (delta pulse fmIn : Num) (s : State Z) :
    Host.Outcome (State Z) Fault Refusal :=
  let r := carVoice s.cfg s.voices[v] k delta pulse fmIn
  .next (returned (setVoice s v r.1) [r.2])

/-- MOD.STEP (R167). -/
def execModStep (v : Fin Z.NV) (k : Fin Z.NS) (delta pulse : Num) (s : State Z) :
    Host.Outcome (State Z) Fault Refusal :=
  let r := modVoice s.cfg s.voices[v] k delta pulse
  .next (returned (setVoice s v r.1) [r.2])

/-- LFO.STEP (R168). -/
def execLfoStep (v : Fin Z.NV) (sp lv : Num) (s : State Z) : Host.Outcome (State Z) Fault Refusal :=
  let r := lfoStep s.cfg s.voices[v] sp lv
  .next (returned (setVoice s v r.1) [r.2])

end Sys2Proof.Machine
end

