-- ==== Sys2Proof/Machine/Modulation.lean ====
section
/-! DEFINITION. The modulation router (44_modulation.md) and the meanings of MOD.ADD, MOD.MULBIAS, MOD.PITCH and
CFG.MODDEST. -/

namespace Sys2Proof.Machine

variable {Z : Config.Params}

/-- The additive law (R233). -/
def modAdd (depth src : PerSource) : Num :=
  ((sourceList src).zip (sourceList depth)).foldl (fun acc p => fadd acc (fmul p.1 p.2)) n0

/-- One factor of the multiplicative-bias law (R234). -/
def biasFactor (src dep base off : Num) : Num :=
  fadd (fmin n1 (fsub n1 (fmul dep base))) (fmul (fadd src off) dep)

/-- The multiplicative-bias law (R234), with the bases and offsets the parameters hold (R231; assumption 5). -/
def modMulbias (Z : Config.Params) (depth src : PerSource) : Num :=
  (((sourceList src).zip (sourceList depth)).zip ((sourceList Z.modBase).zip (sourceList Z.modOffset))).foldl
    (fun acc p => fmul acc (biasFactor p.1.1 p.1.2 p.2.1 p.2.2)) n1

/-- The pitch-multiplicative law (R235). -/
def modPitch (depth src : PerSource) : Num :=
  ((sourceList src).zip (sourceList depth)).foldl (fun acc p => fmul acc (fadd n1 (fmul p.1 p.2))) n1

/-- The source vector of a voice, given an LFO value and the modulation envelope's level (R230). -/
def sources (c : Cfg) (v : Voice Z) (lfo e : Num) : PerSource :=
  ⟨lfo, e, c.wheel, clamp v.note.velocity n0 n1, fmax c.after v.pressure⟩

/-- The six combiner results (47_stacked_voice.md R307). -/
structure ModOut where
  pm : Num
  lm : Num
  pn : Num
  co : Num
  rs : Num
  mx : Num
deriving DecidableEq, Repr

/-- The engine's step for a voice (R236 lines 1 to 12). -/
def modEngine (c : Cfg) (v : Voice Z) (gate : Bool) : Voice Z × ModOut :=
  let r1 := envVoice c v .modEnv gate
  let pre := sources c r1.1 r1.1.lfoOut r1.2
  let sp := if c.dActive.lfoSpeed then modPitch c.depth.lfoSpeed pre else n1
  let lv := if c.dActive.lfoLevel then modMulbias Z c.depth.lfoLevel pre else n1
  let r2 := lfoStep c r1.1 sp lv
  let src := sources c r2.1 r2.2 r1.2
  (r2.1,
   { pm := if c.dActive.pitch then modPitch c.depth.pitch src else n1
     lm := if c.dActive.level then modMulbias Z c.depth.level src else n1
     pn := if c.dActive.pan then modAdd c.depth.pan src else n0
     co := if c.dActive.cutoff then modAdd c.depth.cutoff src else n0
     rs := if c.dActive.resonance then modAdd c.depth.resonance src else n0
     mx := if c.dActive.mix then modAdd c.depth.mix src else n0 })

/-- The five sanitized depths of destination `d` (R238, 10_state.md R42). -/
def depthOf (Z : Config.Params) (snap : Nat → Num) (d : Dest) : PerSource :=
  let g := (0x10 + destNumber d) * 256
  ⟨paramNum Z snap g, paramNum Z snap (g + 1), paramNum Z snap (g + 2), paramNum Z snap (g + 3),
   paramNum Z snap (g + 4)⟩

/-- One value for every destination. -/
def perDest {α : Type} (f : Dest → α) : PerDest α :=
  ⟨f .pitch, f .level, f .pan, f .cutoff, f .resonance, f .mix, f .lfoSpeed, f .lfoLevel⟩

/-- The CFG.MODDEST step of a RECALC (R238, 49_processor.md R358). -/
def cfgModdestOf (Z : Config.Params) (snap : Nat → Num) (c : Cfg) : Cfg :=
  { c with
    depth := perDest (depthOf Z snap)
    dActive := perDest (fun d => destActive (depthOf Z snap d))
    lfoSpeed := paramNum Z snap 0x0800
    lfoLevel := paramNum Z snap 0x0803
    lfoWave := waveCfg (paramNum Z snap 0x0801) (paramNum Z snap 0x0802) }

/-! ## Meanings -/

/-- MOD.ADD: returns the sum (R233). -/
def execModAdd (d : Dest) (src : PerSource) (s : State Z) : Host.Outcome (State Z) Fault Refusal :=
  .next (returned s [modAdd (destGet s.cfg.depth d) src])

/-- MOD.MULBIAS: returns the product (R234). -/
def execModMulbias (d : Dest) (src : PerSource) (s : State Z) : Host.Outcome (State Z) Fault Refusal :=
  .next (returned s [modMulbias Z (destGet s.cfg.depth d) src])

/-- MOD.PITCH: returns the product (R235). -/
def execModPitch (d : Dest) (src : PerSource) (s : State Z) : Host.Outcome (State Z) Fault Refusal :=
  .next (returned s [modPitch (destGet s.cfg.depth d) src])

/-- CFG.MODDEST: writes the modulation engine's Config (R238). -/
def execCfgModdest (s : State Z) : Host.Outcome (State Z) Fault Refusal :=
  .next (returned { s with cfg := cfgModdestOf Z (paramRead s) s.cfg } [])

end Sys2Proof.Machine
end

