-- ==== Sys2Proof/Machine/Tuning.lean ====
section
/-! DEFINITION. The tuning calculator (45_tuning.md) and the meaning of CFG.TUNE. -/

namespace Sys2Proof.Machine

variable {Z : Config.Params}

/-- `TuneValue(n, d, pn, pd)`, an interval in semitones (R250). -/
def tuneValue (n d pn pd : Num) : Num :=
  if !(flt n0 n && flt n0 d && !feq pd n0) then n0
  else
    let v := fdiv (fmul (fmul (log2Num (fdiv n d)) (decimal 12 1)) pn) pd
    if isFinite v then v else n0

/-- One wrapped target `(generator * (i - offset)) mod period` (R251). -/
def wrapTarget (gen per : Num) (i off : Int) : Num :=
  let t := fmul gen (ofInt (i - off))
  if flt n0 per then
    let t' := fsub t (fmul per (ffloor (fdiv t per)))
    if fle n0 t' && flt t' per then t' else n0
  else n0

/-- One period's pitches, in order of `i` (R251). With a period of one key R251 offsets the one pitch by the wrapped
`generator * (0 - OFFSET)`, and R257 (c) gives it without: for an OFFSET other than 0 the two differ, and the model takes
R251 (assumption 22, DESIGN CHOICE). -/
def periodPitches (gen per ratio : Num) (kp : Nat) (off root : Int) : List Num :=
  (List.range kp).map fun (i : Nat) => fadd (wrapTarget gen per (i : Int) off) (fadd (ofInt root) ratio)

/-- Insert into a list that is in non-decreasing order. -/
def insertSorted (x : Num) : List Num → List Num
  | [] => [x]
  | y :: ys => if fle x y then x :: y :: ys else y :: insertSorted x ys

/-- "sort ascending" (R252). -/
def sortNums : List Num → List Num
  | [] => []
  | x :: xs => insertSorted x (sortNums xs)

/-- The highest pitch of a table (10_state.md R53). -/
def pitchMax : Num := decimal 128 1

/-- The last step of R253: the sum of the two terms of a key's pitch, clamped to `[0, 128]`. Where the sum is no number
the entry is a free value, in `[0, 128]` like every entry (R257 e, 10_state.md R53; assumption 17, DESIGN CHOICE). -/
def boundPitch (base step : Num) : Num :=
  let x := fadd base step
  if isNaN x then kept (Config.keyFree base step) n0 pitchMax n0 else clamp x n0 pitchMax

/-- The pitch of one key (R253). -/
def keyPitch (per : Num) (sorted : List Num) (kp : Nat) (root : Int) (key : Nat) : Num :=
  let a := (key : Int) - root
  let q := a / (kp : Int)
  let r := (a % (kp : Int)).toNat
  boundPitch (fmul per (ofInt q)) (sorted.getD r n0)

/-- The table of channel `ch` from a snapshot (R254). -/
def tuneTable (Z : Config.Params) (snap : Nat → Num) (ch : Nat) : Vector Num Config.KEYS :=
  let g := (0x20 + ch) * 256
  let interval := fun k =>
    tuneValue (paramNum Z snap (g + k)) (paramNum Z snap (g + k + 1)) (paramNum Z snap (g + k + 2))
      (paramNum Z snap (g + k + 3))
  let per := interval 4
  let kp := (paramInt Z snap (g + 12)).toNat
  let root := paramInt Z snap (g + 14)
  let sorted := sortNums (periodPitches (interval 0) per (interval 8) kp (paramInt Z snap (g + 13)) root)
  Vector.ofFn fun key => keyPitch per sorted kp root key.val

/-- `k0` of R258 as an index: `clamp(floor(pitch + 0.5), 0, 127)`. -/
def nearestKey (pitch : Num) : Num := clamp (ffloor (fadd pitch nHalf)) n0 (decimal 127 1)

/-- The table index of a key held as a `Num`. -/
def keyIndex (k0 : Num) : Fin Config.KEYS := Fin.ofNat Config.KEYS (floorInt k0).toNat

/-- `Tuned(note)` (R258). -/
def tuned (t : PitchTables Z) (note : MidiNote Z) : Num :=
  let k0 := nearestKey note.pitch
  fadd (tableRead t note.ch (keyIndex k0)) (fsub note.pitch k0)

/-! ## Meaning -/

/-- CFG.TUNE: writes all entries of one channel's table (R254). -/
def execCfgTune (ch : Fin Z.NCH) (s : State Z) : Host.Outcome (State Z) Fault Refusal :=
  .next (returned { s with table := s.table.set ch (tuneTable Z (paramRead s) ch.val) } [])

end Sys2Proof.Machine
end

