-- ==== Sys2Proof/Machine/StackedVoice.lean ====
section
/-! DEFINITION. The stacked voice (47_stacked_voice.md) and the meanings of CFG.STACK, VOICE.START, VOICE.RESTART,
STACK.RENDER and VOICE.RENDER. -/

namespace Sys2Proof.Machine

variable {Z : Config.Params}

/-- The CFG.STACK step of a RECALC (R300, 49_processor.md R360). -/
def cfgStackOf (Z : Config.Params) (snap : Nat → Num) (c : Cfg) : Cfg :=
  { c with
    stkMode := if paramBool Z snap 0x0900 then .harmonic else .unison
    stackSize := (clampInt (paramInt Z snap 0x0901) 1 Z.NS).toNat
    detune := fdiv (paramNum Z snap 0x0902) (decimal 100 1) }

/-- VOICE.START on a voice: all DSP state of all `NS` copies zeroed (R301). -/
def voiceStart (v : Voice Z) : Voice Z :=
  { v with
    sync := Vector.replicate _ n0, car := Vector.replicate _ ⟨n0, n0⟩, mod := Vector.replicate _ ⟨n0, n0⟩,
    amp := ⟨n0, false⟩, fm := ⟨n0, false⟩, modEnv := ⟨n0, false⟩, lfoPhase := n0, lfoOut := n0,
    flt := ⟨⟨n0, n0⟩, ⟨n0, n0⟩⟩ }

/-- VOICE.RESTART on a voice: the three envelopes attack again from where they stand (R302). -/
def voiceRestart (v : Voice Z) : Voice Z :=
  { v with
    amp := { v.amp with decaying := false }, fm := { v.fm with decaying := false },
    modEnv := { v.modEnv with decaying := false } }

/-- The frequency in Hz of copy `k` of a note of tuned pitch `t` (R303). -/
def copyFreq (Z : Config.Params) (c : Cfg) (t : Num) (k : Nat) : Num :=
  match c.stkMode with
  | .unison =>
    let off := fmul (fsub (ofInt k) (fdiv (ofInt ((c.stackSize : Int) - 1)) n2)) c.detune
    fmul (pitchToFreq (fadd t off)) n1
  | .harmonic =>
    let mult := if k = Z.NS - 1 then decimal 8 1 else ofInt ((k : Int) + 1)
    fmul (pitchToFreq (fadd t n0)) mult

/-- `LATCH(v)` (R303): the stack size and every copy's frequency, fixed for the note. -/
def latch (c : Cfg) (t : PitchTables Z) (v : Voice Z) : Voice Z :=
  { v with
    stackSize := c.stackSize
    base := Vector.ofFn fun k => copyFreq Z c (tuned t v.note) k.val }

/-- One copy of STACK.RENDER (R309): the voice, and the two accumulators with the copy added. -/
def stackCopy (c : Cfg) (pm f gl gr : Num) (a : Voice Z × Num × Num) (k : Fin Z.NS) : Voice Z × Num × Num :=
  let ds := fmul (fmul (fmul a.1.base[k] c.bend) pm) c.invFs
  let r1 := syncVoice a.1 k ds
  let r2 := modVoice c r1.1 k (fmul ds c.mod.ratio) r1.2
  let r3 := carVoice c r2.1 k (fmul ds c.car.ratio) r1.2 (fmul r2.2 f)
  (r3.1, fadd a.2.1 (fmul r3.2 gl), fadd a.2.2 (fmul r3.2 gr))

/-- STACK.RENDER on a voice: its first `S` copies in ascending order (R309). -/
def stackRender (c : Cfg) (v : Voice Z) (pm pn f : Num) : Voice Z × Num × Num :=
  let g := panLaw (clamp (fadd c.pan pn) nNeg1 n1)
  ((indices Z.NS).take v.stackSize).foldl (stackCopy c pm f g.1 g.2) (v, n0, n0)

/-- Normalise and gain (R310): one channel. -/
def voiceGain (acc : Num) (size : Nat) (a lm : Num) : Num := fmul (fdiv acc (ofInt size)) (fmul a lm)

/-- The filter stage (R311). -/
def filterStage (c : Cfg) (v : Voice Z) (xl xr co rs mx : Num) : Voice Z × Num × Num :=
  if c.filterOn then
    let t := svfRetune c co rs mx
    let r1 := svfVoice v .left t.alpha t.damping xl
    let r2 := svfVoice r1.1 .right t.alpha t.damping xr
    (r2.1, fadd (fmul xl (fsub n1 t.mix)) (fmul r1.2 t.mix), fadd (fmul xr (fsub n1 t.mix)) (fmul r2.2 t.mix))
  else (v, xl, xr)

/-- The lifecycle check (R312). -/
def lifecycle (v : Voice Z) : Voice Z := if releaseDone v then { v with state := .inactive } else v

/-- VOICE.RENDER on a voice: the nine stages of R304, in order. -/
def voiceRender (c : Cfg) (v : Voice Z) : Voice Z × Num × Num :=
  let gate := gateOf v
  let m := modEngine c v gate
  let ra := envVoice c m.1 .amp gate
  let rf := envVoice c ra.1 .fm gate
  let st := stackRender c rf.1 m.2.pm m.2.pn rf.2
  let xl := voiceGain st.2.1 st.1.stackSize ra.2 m.2.lm
  let xr := voiceGain st.2.2 st.1.stackSize ra.2 m.2.lm
  let fl := filterStage c st.1 xl xr m.2.co m.2.rs m.2.mx
  (lifecycle fl.1, fl.2.1, fl.2.2)

/-! ## Meanings -/

/-- CFG.STACK (R300). -/
def execCfgStack (s : State Z) : Host.Outcome (State Z) Fault Refusal :=
  .next (returned { s with cfg := cfgStackOf Z (paramRead s) s.cfg } [])

/-- VOICE.START (R301). -/
def execVoiceStart (v : Fin Z.NV) (s : State Z) : Host.Outcome (State Z) Fault Refusal :=
  .next (returned (setVoice s v (voiceStart s.voices[v])) [])

/-- VOICE.RESTART (R302). -/
def execVoiceRestart (v : Fin Z.NV) (s : State Z) : Host.Outcome (State Z) Fault Refusal :=
  .next (returned (setVoice s v (voiceRestart s.voices[v])) [])

/-- STACK.RENDER: returns `accL`, `accR` (R309). -/
def execStackRender (v : Fin Z.NV) (pm pn f : Num) (s : State Z) : Host.Outcome (State Z) Fault Refusal :=
  let r := stackRender s.cfg s.voices[v] pm pn f
  .next (returned (setVoice s v r.1) [r.2.1, r.2.2])

/-- VOICE.RENDER: returns `xl`, `xr` (R304). -/
def execVoiceRender (v : Fin Z.NV) (s : State Z) : Host.Outcome (State Z) Fault Refusal :=
  let r := voiceRender s.cfg s.voices[v]
  .next (returned (setVoice s v r.1) [r.2.1, r.2.2])

end Sys2Proof.Machine
end

