-- ==== Sys2Proof/Machine/Scheduler.lean ====
section
/-! DEFINITION. The voice scheduler and allocator (46_scheduler.md) and the meanings of RESERVE, RESERVEP, TICK,
APPLY.NOTEON, APPLY.NOTEOFF and APPLY.PRESSURE. -/

namespace Sys2Proof.Machine

variable {Z : Config.Params}

/-! ## Storing a reservation -/

/-- The slot a new entry goes to, among the offsets of a ring in slot order: the first free one, else the lowest one
with the largest offset (R272). `best` is the slot found so far, with its offset. -/
def largestSlot : List Int → Nat → Nat → Int → Nat
  | [], _, best, _ => best
  | o :: os, j, best, bo => if bo < o then largestSlot os (j + 1) j o else largestSlot os (j + 1) best bo

/-- The first free slot, if there is one (R272). -/
def firstFree (os : List Int) : Option Nat := os.findIdx? slotFree

/-- The slot `Store` writes (R272). -/
def storeSlot (os : List Int) : Nat :=
  match firstFree os with
  | some j => j
  | none => largestSlot os.tail 1 0 (os.headD 0)

/-- `Store(NRES, entry)` (R272). -/
def storeNote (ring : Vector (NoteRes Z) Z.RN) (e : NoteRes Z) : Vector (NoteRes Z) Z.RN :=
  ring.setIfInBounds (storeSlot (ring.toList.map NoteRes.offset)) e

/-- `Store(PRES, entry)` (R272). -/
def storePress (ring : Vector (PressRes Z) Z.RP) (e : PressRes Z) : Vector (PressRes Z) Z.RP :=
  ring.setIfInBounds (storeSlot (ring.toList.map PressRes.offset)) e

/-! ## Allocation and matching -/

/-- Scan step of R275 line 1: an Inactive voice that is older than the pick so far takes its place. -/
def scanInactive (vs : Vector (Voice Z) Z.NV) (pick : Option (Fin Z.NV)) (i : Fin Z.NV) :
    Option (Fin Z.NV) :=
  if (vs[i]).state = .inactive then
    match pick with
    | none => some i
    | some p => if (vs[p]).length < (vs[i]).length then some i else some p
  else pick

/-- The Inactive voice a note-on takes: the oldest, the lowest index among equals (R275). -/
def pickInactive (vs : Vector (Voice Z) Z.NV) : Option (Fin Z.NV) :=
  (indices Z.NV).foldl (scanInactive vs) none

/-- The voice a note-on steals: the largest `Length`, the lowest index among equals (R275). -/
def pickOldest (vs : Vector (Voice Z) Z.NV) : Fin Z.NV :=
  (indices Z.NV).foldl (fun p i => if (vs[p]).length < (vs[i]).length then i else p)
    ⟨0, Z.nv_pos⟩

/-- The voice a note-on takes (R275 lines 1, 2), and that voice started or restarted. -/
def allocate (vs : Vector (Voice Z) Z.NV) : Fin Z.NV × Voice Z :=
  match pickInactive vs with
  | some i => (i, voiceStart vs[i])
  | none => let i := pickOldest vs; (i, voiceRestart vs[i])

/-- APPLY.NOTEON on the pool (R275). -/
def noteOn (c : Cfg) (t : PitchTables Z) (vs : Vector (Voice Z) Z.NV) (ev : MidiNote Z) : Vector (Voice Z) Z.NV :=
  let p := allocate vs
  vs.set p.1 (latch c t { p.2 with note := ev, length := 0, state := .active, pressure := n0 })

/-- APPLY.NOTEOFF on the pool (R276). -/
def noteOff (vs : Vector (Voice Z) Z.NV) (ev : MidiNote Z) : Vector (Voice Z) Z.NV :=
  vs.map fun v => if v.state = .active ∧ isSame v.note ev = true then { v with state := .release } else v

/-- APPLY.PRESSURE on the pool (R277). -/
def applyPress (vs : Vector (Voice Z) Z.NV) (ev : MidiNote Z) (p : Num) : Vector (Voice Z) Z.NV :=
  vs.map fun v => if live v = true ∧ isSame v.note ev = true then { v with pressure := clamp p n0 n1 } else v

/-- `Apply(ev)` (R278). -/
def applyNote (ev : MidiNote Z) (s : State Z) : State Z :=
  { s with voices := if isNoteOn ev then noteOn s.cfg s.table s.voices ev else noteOff s.voices ev }

/-- `ApplyPressure(ev, pressure)` (R277). -/
def applyPressure (ev : MidiNote Z) (p : Num) (s : State Z) : State Z := { s with voices := applyPress s.voices ev p }

/-! ## The tick -/

/-- TICK step 1: every live voice ages (R274, R280). -/
def tickAges (vs : Vector (Voice Z) Z.NV) : Vector (Voice Z) Z.NV :=
  vs.map fun v => if live v then { v with length := satInc v.length } else v

/-- TICK step 2 for one slot of the note ring (R274). -/
def tickNoteSlot (s : State Z) (j : Fin Z.RN) : State Z :=
  let e := s.nres[j]
  if slotLive e.offset then
    let s' := { s with nres := s.nres.set j { e with offset := e.offset - 1 } }
    if e.offset - 1 = -1 then applyNote e.note s' else s'
  else s

/-- TICK step 3 for one slot of the pressure ring (R274). -/
def tickPressSlot (s : State Z) (j : Fin Z.RP) : State Z :=
  let e := s.pres[j]
  if slotLive e.offset then
    let s' := { s with pres := s.pres.set j { e with offset := e.offset - 1 } }
    if e.offset - 1 = -1 then applyPressure e.note e.pressure s' else s'
  else s

/-- TICK (R274): ages, then the note ring, then the pressure ring, each in ascending order. -/
def tick (s : State Z) : State Z :=
  let s1 := { s with voices := tickAges s.voices }
  let s2 := (indices Z.RN).foldl tickNoteSlot s1
  (indices Z.RP).foldl tickPressSlot s2

/-! ## Meanings -/

/-- RESERVE (R270). -/
def execReserve (ch : BitVec 8) (pitch velocity : Num) (id offset : Word) (s : State Z) :
    Host.Outcome (State Z) Fault Refusal :=
  if ready s then
    match noteOperand ch pitch velocity velocity id with
    | none => .next (raise .badOperand s)
    | some ev =>
      if i32 offset ≤ 0 then .next (applyNote ev s)
      else .next { s with nres := storeNote s.nres ⟨ev, i32 offset⟩ }
  else .next (raise .badState s)

/-- RESERVEP (R271). -/
def execReservep (ch : BitVec 8) (pitch pressure : Num) (id offset : Word) (s : State Z) :
    Host.Outcome (State Z) Fault Refusal :=
  if ready s then
    match noteOperand ch pitch pressure n0 id with
    | none => .next (raise .badOperand s)
    | some ev =>
      if i32 offset ≤ 0 then .next (applyPressure ev pressure s)
      else .next { s with pres := storePress s.pres ⟨ev, pressure, i32 offset⟩ }
  else .next (raise .badState s)

/-- TICK (R274). -/
def execTick (s : State Z) : Host.Outcome (State Z) Fault Refusal := .next (returned (tick s) [])

/-- APPLY.NOTEON (R275). -/
def execApplyNoteon (ev : MidiNote Z) (s : State Z) : Host.Outcome (State Z) Fault Refusal :=
  .next (returned { s with voices := noteOn s.cfg s.table s.voices ev } [])

/-- APPLY.NOTEOFF (R276). -/
def execApplyNoteoff (ev : MidiNote Z) (s : State Z) : Host.Outcome (State Z) Fault Refusal :=
  .next (returned { s with voices := noteOff s.voices ev } [])

/-- APPLY.PRESSURE (R277). -/
def execApplyPressure (ev : MidiNote Z) (p : Num) (s : State Z) : Host.Outcome (State Z) Fault Refusal :=
  .next (returned (applyPressure ev p s) [])

end Sys2Proof.Machine
end

