-- ==== Sys2Proof/Machine/Processor.lean ====
section
/-! DEFINITION. The processor (49_processor.md): the meanings of PWRITE, ACTIVATE, DEACTIVATE, RECALC, PROCESS,
CFG.GLOBAL, MIX and OUT. -/

namespace Sys2Proof.Machine

variable {Z : Config.Params}

/-! ## PWRITE -/

/-- PWRITE's effect on the state (R350). -/
def pwriteTo (addr : BitVec 16) (value : Num) (s : State Z) : State Z :=
  if mapped Z addr.toNat then paramWrite s addr.toNat value else raise .badOperand s

/-- PWRITE (R350): legal in every state. -/
def execPwrite (addr : BitVec 16) (value : Num) (s : State Z) : Host.Outcome (State Z) Fault Refusal :=
  .next (pwriteTo addr value s)

/-! ## ACTIVATE and DEACTIVATE -/

/-- `DCAP = max(1, min(DCAP_MAX, floor(SafeRate(fs) / 2)))` (R351). -/
def delayCapacity (Z : Config.Params) (fs : Num) : Nat :=
  max 1 (min Z.DCAP_MAX (floorInt (fdiv (safeRate fs) n2)).toNat)

/-- Every voice, reservation and delay field at its reset value, and CFG and TABLE undefined (R351, R352). -/
def clearAudio (s : State Z) : State Z :=
  { s with
    cfg := undefinedCfg s.free
    table := undefinedTable s.free
    free := s.free + 1
    voices := Vector.replicate _ Voice.reset
    nres := Vector.replicate _ NoteRes.reset
    pres := Vector.replicate _ PressRes.reset
    dly := ⟨DelayChan.reset, DelayChan.reset⟩ }

/-- ACTIVATE (R351). -/
def execActivate (fs : Num) (s : State Z) : Host.Outcome (State Z) Fault Refusal :=
  if s.status.active then .next (raise .badState s)
  else .next { clearAudio s with dcap := delayCapacity Z fs, status := ⟨true, false⟩ }

/-- DEACTIVATE (R352). -/
def execDeactivate (s : State Z) : Host.Outcome (State Z) Fault Refusal :=
  if s.status.active then .next { clearAudio s with dcap := 0, status := ⟨false, false⟩ }
  else .next (raise .badState s)

/-! ## RECALC -/

/-- The CFG.GLOBAL step of a RECALC (R355). -/
def cfgGlobalOf (Z : Config.Params) (snap : Nat → Num) (fs : Num) (c : Cfg) : Cfg :=
  let rate := safeRate fs
  { c with
    fs := rate
    invFs := fdiv n1 rate
    master := paramNum Z snap 0x0000
    bend := exp2 (fdiv (paramNum Z snap 0x0001) (decimal 12 1))
    wheel := paramNum Z snap 0x0002
    after := paramNum Z snap 0x0003
    mono := paramBool Z snap 0x0004
    pan := paramNum Z snap 0x0105 }

/-- CFG as RECALC rebuilds it from a snapshot, in the order of R353. -/
def rebuildCfg (Z : Config.Params) (snap : Nat → Num) (fs : Num) (dcap : Nat) (c : Cfg) : Cfg :=
  let c1 := cfgGlobalOf Z snap fs c
  let c2 := cfgOpOf Z snap .modulator (cfgOpOf Z snap .carrier c1)
  let c3 := cfgEnvOf Z snap .modEnv (cfgEnvOf Z snap .fm (cfgEnvOf Z snap .amp c2))
  let c4 := cfgSvfOf Z snap (cfgModdestOf Z snap c3)
  cfgDelayOf Z snap dcap (cfgStackOf Z snap c4)

/-- The tables as RECALC rebuilds them (R353, R362). -/
def rebuildTables (Z : Config.Params) (snap : Nat → Num) : PitchTables Z :=
  Vector.ofFn fun ch => tuneTable Z snap ch.val

/-- A cursor that is not below the new length is set to 0 (48_delay.md R337). -/
def clipCursor (len : Nat) (d : DelayChan) : DelayChan := if len ≤ d.w then { d with w := 0 } else d

/-- RECALC's effect, given its snapshot (R353). -/
def recalcWith (snap : Nat → Num) (fs : Num) (s : State Z) : State Z :=
  let c := rebuildCfg Z snap fs s.dcap s.cfg
  { s with
    cfg := c
    table := rebuildTables Z snap
    dly := ⟨clipCursor c.dLen s.dly.left, clipCursor c.dLen s.dly.right⟩
    status := { s.status with cfgValid := true } }

/-! ### A RECALC that the control host's writes overlap (20_memory.md R88, assumption 7) -/

/-- The complete frames at the front of a port, at most `fuel` of them, and the words after them. -/
def splitFrames (p : Port) : Nat → List Word → List (List Word) × List Word
  | 0, ws => ([], ws)
  | _ + 1, [] => ([], [])
  | fuel + 1, h :: ws =>
    let n := frameLength p h
    if ws.length + 1 < n then ([], h :: ws)
    else
      let r := splitFrames p fuel (ws.drop (n - 1))
      (((h :: ws).take n) :: r.1, r.2)

/-- What a control-port frame does: a PWRITE, or an illegal command (30_encoding.md R119). -/
def controlFrame (s : State Z) (ws : List Word) : State Z :=
  match decode Z .control ws with
  | .ok (.pwrite addr v) => pwriteTo addr v s
  | _ => raise .illegalCommand s

/-- The values register `a` takes as control-port frames execute one after the other, the first one first. -/
def valuesTaken (s : State Z) (a : Nat) : List (List Word) → List Num
  | [] => [paramRead s a]
  | f :: fs => paramRead s a :: valuesTaken (controlFrame s f) a fs

/-- The frames that overlap this RECALC: a free choice of how many of the complete ones on the control port. -/
def overlapping (s : State Z) : List (List Word) :=
  let frames := (splitFrames .control s.ctl.length s.ctl).1
  match frames with
  | [] => []
  | _ :: _ => frames.take (Config.overlapCount s.free % (frames.length + 1))

/-- The snapshot: each register as it stands before or after each overlapping write to it, a free choice for each
register (20_memory.md R88; R354). With no overlap it is the register file. -/
def snapshot (s : State Z) (a : Nat) : Num :=
  match overlapping s with
  | [] => paramRead s a
  | fs =>
    let vs := valuesTaken s a fs
    vs.getD (Config.overlapPick s.free a % vs.length) (paramRead s a)

/-- The state once the overlapping control-port frames have executed; their words are consumed. -/
def afterOverlap (s : State Z) : State Z :=
  match overlapping s with
  | [] => s
  | fs =>
    let s' := fs.foldl controlFrame s
    { s' with ctl := s.ctl.drop ((fs.map List.length).sum), free := s.free + 1 }

/-- RECALC (R353). -/
def execRecalc (fs : Num) (s : State Z) : Host.Outcome (State Z) Fault Refusal :=
  if s.status.active then .next (recalcWith (snapshot s) fs (afterOverlap s)) else .next (raise .badState s)

/-! ## PROCESS -/

/-- The live voices in ascending order (R365). -/
def liveVoices (vs : Vector (Voice Z) Z.NV) : List (Fin Z.NV) :=
  (indices Z.NV).filter fun i => live vs[i]

/-- The youngest of some voices, the first among equals (R365). -/
def youngest (vs : Vector (Voice Z) Z.NV) (best : Fin Z.NV) (is : List (Fin Z.NV)) : Fin Z.NV :=
  is.foldl (fun b i => if (vs[i]).length < (vs[b]).length then i else b) best

/-- `Select()` (R365). -/
def select (mono : Bool) (vs : Vector (Voice Z) Z.NV) : List (Fin Z.NV) :=
  match mono, liveVoices vs with
  | true, i :: is => [youngest vs i (i :: is)]
  | _, is => is

/-- One voice of MIX (R366). -/
def mixVoice (c : Cfg) (a : Vector (Voice Z) Z.NV × Num × Num) (i : Fin Z.NV) :
    Vector (Voice Z) Z.NV × Num × Num :=
  let r := voiceRender c a.1[i]
  (a.1.set i r.1, fadd a.2.1 r.2.1, fadd a.2.2 r.2.2)

/-- MIX over a selection: the pool after rendering, and the sums (R366). -/
def mixVoices (c : Cfg) (vs : Vector (Voice Z) Z.NV) (sel : List (Fin Z.NV)) :
    Vector (Voice Z) Z.NV × Num × Num :=
  sel.foldl (mixVoice c) (vs, n0, n0)

/-- One channel of OUT before the guard (R367). -/
def outMix (c : Cfg) (dry delayed : Num) : Num :=
  fmul (fadd (fmul dry (fsub n1 c.dMix)) (fmul delayed c.dMix)) c.master

/-- OUT (R367): crossfade, master volume, guard, emit. -/
def outStep (mixL mixR dl dr : Num) (s : State Z) : State Z :=
  emit s (toF32 (guardNum (outMix s.cfg mixL dl))) (toF32 (guardNum (outMix s.cfg mixR dr)))

/-- `Sample()` (R364). -/
def sample (s : State Z) : State Z :=
  let s1 := tick s
  let m := mixVoices s1.cfg s1.voices (select s1.cfg.mono s1.voices)
  let d := delayRun m.2.1 m.2.2 { s1 with voices := m.1 }
  outStep m.2.1 m.2.2 d.2.1 d.2.2 d.1

/-- `n` samples. -/
def samples : Nat → State Z → State Z
  | 0, s => s
  | n + 1, s => samples n (sample s)

/-- PROCESS (R363). The `fs` operand is decoded and ignored. Past its two checks it emits all `count` samples whatever
happens (60_exceptions.md R390). -/
def execProcess (_fs : Num) (count : Word) (s : State Z) : Host.Outcome (State Z) Fault Refusal :=
  if ready s then
    if i32 count < 0 then .next (raise .badOperand s)
    else .next (samples (i32 count).toNat s)
  else .next (raise .badState s)

/-! ## Unit operations -/

/-- CFG.GLOBAL (R355). -/
def execCfgGlobal (fs : Num) (s : State Z) : Host.Outcome (State Z) Fault Refusal :=
  .next (returned { s with cfg := cfgGlobalOf Z (paramRead s) fs s.cfg } [])

/-- The voices of a mask, ascending. -/
def maskVoices (sel : BitVec Z.NV) : List (Fin Z.NV) := (indices Z.NV).filter fun i => sel.getLsbD i.val

/-- MIX: returns `mixL`, `mixR` (R366). -/
def execMix (sel : BitVec Z.NV) (s : State Z) : Host.Outcome (State Z) Fault Refusal :=
  let m := mixVoices s.cfg s.voices (maskVoices sel)
  .next (returned { s with voices := m.1 } [m.2.1, m.2.2])

/-- OUT: emits one pair (R367). -/
def execOut (mixL mixR dl dr : Num) (s : State Z) : Host.Outcome (State Z) Fault Refusal :=
  .next (returned (outStep mixL mixR dl dr s) [])

end Sys2Proof.Machine
end

