-- ==== Sys2Proof/Machine/Dispatch.lean ====
section
/-! DEFINITION. One arm per instruction, each one direct call of its meaning. -/

namespace Sys2Proof.Machine

def exec (i : Instr) (s : State) : Host.Outcome State Fault Refusal :=
  match i with
  | .activate fs => Sys2Proof.Machine.execActivate fs s
  | .deactivate => Sys2Proof.Machine.execDeactivate s
  | .recalc fs => Sys2Proof.Machine.execRecalc fs s
  | .reserve ch pitch velocity id offset => Sys2Proof.Machine.execReserve ch pitch velocity id offset s
  | .reservep ch pitch pressure id offset => Sys2Proof.Machine.execReservep ch pitch pressure id offset s
  | .process fs count => Sys2Proof.Machine.execProcess fs count s
  | .pwrite addr value => Sys2Proof.Machine.execPwrite addr value s
  | .cfgWave dst shapeX shapeY => Sys2Proof.Machine.execCfgWave dst shapeX shapeY s
  | .cfgOp op => Sys2Proof.Machine.execCfgOp op s
  | .cfgEnv e => Sys2Proof.Machine.execCfgEnv e s
  | .cfgLp1 f cutoff => Sys2Proof.Machine.execCfgLp1 f cutoff s
  | .cfgSvf => Sys2Proof.Machine.execCfgSvf s
  | .cfgModdest => Sys2Proof.Machine.execCfgModdest s
  | .cfgTune ch => Sys2Proof.Machine.execCfgTune ch s
  | .cfgStack => Sys2Proof.Machine.execCfgStack s
  | .cfgDelay => Sys2Proof.Machine.execCfgDelay s
  | .cfgGlobal fs => Sys2Proof.Machine.execCfgGlobal fs s
  | .tick => Sys2Proof.Machine.execTick s
  | .applyNoteon ev => Sys2Proof.Machine.execApplyNoteon ev s
  | .applyNoteoff ev => Sys2Proof.Machine.execApplyNoteoff ev s
  | .applyPressure ev pressure => Sys2Proof.Machine.execApplyPressure ev pressure s
  | .voiceStart v => Sys2Proof.Machine.execVoiceStart v s
  | .voiceRestart v => Sys2Proof.Machine.execVoiceRestart v s
  | .syncStep v k dS => Sys2Proof.Machine.execSyncStep v k dS s
  | .carStep v k delta pulse fmIn => Sys2Proof.Machine.execCarStep v k delta pulse fmIn s
  | .modStep v k delta pulse => Sys2Proof.Machine.execModStep v k delta pulse s
  | .lfoStep v sp lv => Sys2Proof.Machine.execLfoStep v sp lv s
  | .envStep e v gate => Sys2Proof.Machine.execEnvStep e v gate s
  | .lp1Step c alpha x => Sys2Proof.Machine.execLp1Step c alpha x s
  | .hp1Step c alpha x => Sys2Proof.Machine.execHp1Step c alpha x s
  | .svfRetune co rs mx => Sys2Proof.Machine.execSvfRetune co rs mx s
  | .svfStep v c alpha damping x => Sys2Proof.Machine.execSvfStep v c alpha damping x s
  | .modAdd d src => Sys2Proof.Machine.execModAdd d src s
  | .modMulbias d src => Sys2Proof.Machine.execModMulbias d src s
  | .modPitch d src => Sys2Proof.Machine.execModPitch d src s
  | .stackRender v pm pn f => Sys2Proof.Machine.execStackRender v pm pn f s
  | .voiceRender v => Sys2Proof.Machine.execVoiceRender v s
  | .delayStep xl xr => Sys2Proof.Machine.execDelayStep xl xr s
  | .mix sel => Sys2Proof.Machine.execMix sel s
  | .out mixL mixR dl dr => Sys2Proof.Machine.execOut mixL mixR dl dr s

end Sys2Proof.Machine
end

