-- ==== Sys2Proof/Machine/Execute.lean ====
section
/-! DEFINITION. Execution for any parameters (00_scope.md R9): the same meanings as those of Machine/Dispatch.lean, whose
`exec` is that of the reference instance. -/

namespace Sys2Proof.Config

open Sys2Proof.Machine

/-- What an instruction does on the machine with parameters `Z`. -/
def Params.exec (Z : Params) (i : Instr Z) (s : State Z) : Host.Outcome (State Z) Fault Refusal :=
  match i with
  | .activate fs => execActivate fs s
  | .deactivate => execDeactivate s
  | .recalc fs => execRecalc fs s
  | .reserve ch pitch velocity id offset => execReserve ch pitch velocity id offset s
  | .reservep ch pitch pressure id offset => execReservep ch pitch pressure id offset s
  | .process fs count => execProcess fs count s
  | .pwrite addr value => execPwrite addr value s
  | .cfgWave dst shapeX shapeY => execCfgWave dst shapeX shapeY s
  | .cfgOp op => execCfgOp op s
  | .cfgEnv e => execCfgEnv e s
  | .cfgLp1 f cutoff => execCfgLp1 f cutoff s
  | .cfgSvf => execCfgSvf s
  | .cfgModdest => execCfgModdest s
  | .cfgTune ch => execCfgTune ch s
  | .cfgStack => execCfgStack s
  | .cfgDelay => execCfgDelay s
  | .cfgGlobal fs => execCfgGlobal fs s
  | .tick => execTick s
  | .applyNoteon ev => execApplyNoteon ev s
  | .applyNoteoff ev => execApplyNoteoff ev s
  | .applyPressure ev pressure => execApplyPressure ev pressure s
  | .voiceStart v => execVoiceStart v s
  | .voiceRestart v => execVoiceRestart v s
  | .syncStep v k dS => execSyncStep v k dS s
  | .carStep v k delta pulse fmIn => execCarStep v k delta pulse fmIn s
  | .modStep v k delta pulse => execModStep v k delta pulse s
  | .lfoStep v sp lv => execLfoStep v sp lv s
  | .envStep e v gate => execEnvStep e v gate s
  | .lp1Step c alpha x => execLp1Step c alpha x s
  | .hp1Step c alpha x => execHp1Step c alpha x s
  | .svfRetune co rs mx => execSvfRetune co rs mx s
  | .svfStep v c alpha damping x => execSvfStep v c alpha damping x s
  | .modAdd d src => execModAdd d src s
  | .modMulbias d src => execModMulbias d src s
  | .modPitch d src => execModPitch d src s
  | .stackRender v pm pn f => execStackRender v pm pn f s
  | .voiceRender v => execVoiceRender v s
  | .delayStep xl xr => execDelayStep xl xr s
  | .mix sel => execMix sel s
  | .out mixL mixR dl dr => execOut mixL mixR dl dr s

end Sys2Proof.Config
end

