-- ==== Sys2Proof/Machine/Fetch.lean ====
section
/-! DEFINITION. Taking a frame from a port (30_encoding.md R116), choosing between the two ports (60_exceptions.md R393),
what an illegal command does (30_encoding.md R119), and one step of the machine, given what executes an instruction.
`step` calls these. -/

namespace Sys2Proof.Machine

variable {Z : Config.Params}

/-- The whole frame at the front of a port has arrived (30_encoding.md R116). -/
def frameReady (p : Port) (ws : List Word) : Bool :=
  match ws with
  | [] => false
  | h :: _ => decide (frameLength p h ≤ ws.length)

/-- The words waiting at a port. -/
def portWords (p : Port) (s : State Z) : List Word :=
  match p with
  | .command => s.cmd
  | .control => s.ctl
  | .unitOp => s.uops

/-- The state with a port's waiting words replaced. -/
def setPortWords (p : Port) (ws : List Word) (s : State Z) : State Z :=
  match p with
  | .command => { s with cmd := ws }
  | .control => { s with ctl := ws }
  | .unitOp => { s with uops := ws }

/-- The frame at the front of a port. -/
def frontFrame (p : Port) (s : State Z) : List Word :=
  (portWords p s).take (frameLength p ((portWords p s).headD 0))

/-- The state with the frame at the front of a port consumed (30_encoding.md R116). -/
def consumeFrame (p : Port) (s : State Z) : State Z :=
  setPortWords p ((portWords p s).drop (frameLength p ((portWords p s).headD 0))) s

/-- Both ports have a complete frame, so that which goes first is open (60_exceptions.md R393). -/
def contended (s : State Z) : Bool := frameReady .command s.cmd && frameReady .control s.ctl

/-- The port whose frame executes next, if a frame is complete on either; a free choice when both are
(assumption 6). -/
def nextPort (s : State Z) : Option Port :=
  if contended s then some (if Config.commandFirst s.free then .command else .control)
  else if frameReady .command s.cmd then some .command
  else if frameReady .control s.ctl then some .control
  else none

/-- The free-value counter goes on when the choice was made. -/
def arbitrated (s : State Z) : State Z := if contended s then { s with free := s.free + 1 } else s

/-- What executes an instruction. -/
abbrev Executor (Z : Config.Params) := Instr Z → State Z → Host.Outcome (State Z) Fault Refusal

/-- Run the frame at the front of the command or control port: consume it whole, then execute the command, or raise
`IllegalCommand` where it is none (30_encoding.md R116, R119; 60_exceptions.md R392). -/
def runFrame (run : Executor Z) (p : Port) (s : State Z) : Host.Outcome (State Z) Fault Refusal :=
  match decode Z p (frontFrame p s) with
  | .ok i => run i (consumeFrame p s)
  | .error _ => .next (raise .illegalCommand (consumeFrame p s))

/-- Run the unit operation at the front of the model's own port, or refuse a frame that names none (assumption 9). -/
def runUnit (run : Executor Z) (s : State Z) : Host.Outcome (State Z) Fault Refusal :=
  match decode Z .unitOp (frontFrame .unitOp s) with
  | .ok i => run i (consumeFrame .unitOp s)
  | .error _ => .refused .notAUnitOperation

/-- What a step does while no reset is asserted: the model's unit-operation port first, then one whole frame of the
command or control port. A port with no whole frame waits: with nothing whole anywhere the state stays as it is
(30_encoding.md R116, 70_reset_and_hazards.md R433; assumption 15). -/
def advance (run : Executor Z) (s : State Z) : Host.Outcome (State Z) Fault Refusal :=
  if frameReady .unitOp s.uops then runUnit run s
  else
    match nextPort s with
    | none => .next s
    | some p => runFrame run p (arbitrated s)

/-- The state where a reset was asserted after `n` of the pairs of a step that would have led from `s` to `t`: the reset
table, with those pairs emitted and no other, and the reset input asserted (70_reset_and_hazards.md R430). -/
def cutShort (n : Nat) (s t : State Z) : State Z :=
  hardReset { t with resetIn := true, out := t.out.take (s.out.length + n) }

/-- One step. While the reset input is asserted the state is held at reset, no frame is accepted and no pair emitted
(70_reset_and_hazards.md R430). A reset asserted during the step leaves the reset table, with the pairs that were emitted
before it: it stops a PROCESS, although 60_exceptions.md R390 has it emit every pair whatever happens (assumption 11,
DESIGN CHOICE). -/
def takeStep (run : Executor Z) (s : State Z) : Host.Outcome (State Z) Fault Refusal :=
  if s.resetIn then .next (hardReset s)
  else
    match s.resetAfter with
    | none => advance run s
    | some n =>
      match advance run { s with resetAfter := none } with
      | .next t => .next (cutShort n s t)
      | .fault f => .fault f
      | .refused r => .refused r

/-- `s` with a frame placed where the next step takes it: on its port, before what waits there, with the reset input
released and no frame on a port that would go before it or share the choice with it. -/
def placeFrame (p : Port) (frame : List Word) (s : State Z) : State Z :=
  match p with
  | .unitOp => { s with resetIn := false, resetAfter := none, uops := frame ++ s.uops }
  | .command => { s with resetIn := false, resetAfter := none, uops := [], ctl := [], cmd := frame ++ s.cmd }
  | .control => { s with resetIn := false, resetAfter := none, uops := [], cmd := [], ctl := frame ++ s.ctl }

end Sys2Proof.Machine
end

