-- ==== Sys2Proof/Machine/Step.lean ====
section
/-! DEFINITION. One step of the machine, and placing an instruction where it fetches next; both are Machine/Fetch.lean's. -/

namespace Sys2Proof.Config

open Sys2Proof.Machine

/-- One step of the machine with parameters `Z`. -/
def Params.step (Z : Params) (s : State Z) : Host.Outcome (State Z) Fault Refusal := takeStep Z.exec s

end Sys2Proof.Config

namespace Sys2Proof.Machine

/-- One step of the machine of the reference instance. -/
def step (s : State) : Host.Outcome State Fault Refusal := takeStep exec s

/-- `s` with the instruction whose bits are `w` where `step` fetches next, and nothing that would go before it. -/
def State.withFetchWord (s : State) (nbits w : Nat) : State :=
  placeFrame (tablePort nbits) (tableFrame nbits w) s

end Sys2Proof.Machine
end

