-- ==== Sys2Proof/WellFormed.lean ====
section
/-! DEFINITION. Which instructions are well formed. A host command is well formed whatever its operands hold
(30_encoding.md R113 to R115: they decode, and a bad one faults). A unit operation's operands are the values its rule
names: sanitized shapes and cutoffs, notes of the kind applied. The decoder does not ask for it: an operation issued with
other values runs too (assumption 9). -/

namespace Sys2Proof

variable {Z : Config.Params}

/-- A note as 10_state.md R46 has it: finite pitch and velocity. -/
def noteFinite (ev : MidiNote Z) : Bool := Machine.isFinite ev.pitch && Machine.isFinite ev.velocity

/-- `x` lies in `[lo, hi]`. -/
def within (x lo hi : Num) : Bool := Machine.fle lo x && Machine.fle x hi

/-- The instruction is well formed. -/
def wellFormed : Instr Z → Bool
  | .cfgWave _ shapeX shapeY =>
    within shapeX Machine.nNeg1 Machine.n1 && within shapeY Machine.nNeg1 Machine.n1
  | .cfgLp1 _ cutoff => within cutoff Machine.cutMin Machine.cutMax
  | .applyNoteon ev => noteFinite ev && Machine.fle Machine.n0 ev.velocity
  | .applyNoteoff ev => noteFinite ev && Machine.flt ev.velocity Machine.n0
  | .applyPressure ev p => noteFinite ev && decide (ev.velocity = Machine.n0) && Machine.isFinite p
  | .activate _ | .deactivate | .recalc _ | .reserve _ _ _ _ _ | .reservep _ _ _ _ _ | .process _ _ | .pwrite _ _ => true
  | .cfgOp _ | .cfgEnv _ | .cfgSvf | .cfgModdest | .cfgTune _ | .cfgStack | .cfgDelay | .cfgGlobal _ => true
  | .tick | .voiceStart _ | .voiceRestart _ | .syncStep _ _ _ | .carStep _ _ _ _ _ | .modStep _ _ _ _ => true
  | .lfoStep _ _ _ | .envStep _ _ _ | .lp1Step _ _ _ | .hp1Step _ _ _ | .svfRetune _ _ _ | .svfStep _ _ _ _ _ => true
  | .modAdd _ _ | .modMulbias _ _ | .modPitch _ _ | .stackRender _ _ _ _ | .voiceRender _ | .delayStep _ _ => true
  | .mix _ | .out _ _ _ _ => true

end Sys2Proof
end

