-- ==== Sys2Proof/Safety.lean ====
section
/-! DEFINITION. What claims about the machine are stated in: the invariants (10_state.md R59), the address map and header
rows as the spec prints them, the tiers (60_exceptions.md R398), and the schedules of the spec written as runs of single
unit operations (49_processor.md R353, R364; 47_stacked_voice.md R304, R309; 46_scheduler.md R274). -/

namespace Sys2Proof.Machine

variable {Z : Config.Params}

/-! ## Ranges -/

/-- `0 <= x < 1`. -/
def inUnit (x : Num) : Bool := fle n0 x && flt x n1

/-- `0 <= x <= 1`. -/
def inClosedUnit (x : Num) : Bool := fle n0 x && fle x n1

/-- `0 < x <= 1`. -/
def isRate (x : Num) : Bool := flt n0 x && fle x n1

/-- A feedback value: 0, or finite with magnitude at least `FbThreshold` (10_state.md R59). -/
def feedbackOk (x : Num) : Bool := decide (x = n0) || (isFinite x && fle fbThreshold (fabs x))

/-! ## The invariants -/

/-- PARAM lists mapped addresses only and each space is in canonical form. -/
def memoryForm (s : State Z) : Prop :=
  Memory.wf (paramDefault Z) s.param = true ∧ Memory.wf ramDefault s.dly.left.ram = true ∧
    Memory.wf ramDefault s.dly.right.ram = true ∧ ∀ e ∈ s.param, mapped Z e.1 = true

/-- A voice's phases lie in `[0, 1)`, its envelope levels in `[0, 1]` and its stack size in `1..NS`
(10_state.md R59). -/
def voiceForm (v : Voice Z) : Prop :=
  1 ≤ v.stackSize ∧ v.stackSize ≤ Z.NS ∧ inUnit v.lfoPhase = true ∧
    (∀ k : Fin Z.NS, inUnit v.sync[k] = true) ∧ (∀ k : Fin Z.NS, inUnit (v.car[k]).phase = true) ∧
    (∀ k : Fin Z.NS, inUnit (v.mod[k]).phase = true) ∧ inClosedUnit v.amp.level = true ∧
    inClosedUnit v.fm.level = true ∧ inClosedUnit v.modEnv.level = true

/-- The numbers of a waveshaper record. -/
def waveNums (w : WaveCfg) : List Num := [w.up, w.down, w.b1, w.b2, w.sinF, w.triF, w.sq]

/-- Every `Num` field of CFG (10_state.md R44). -/
def cfgNums (c : Cfg) : List Num :=
  [c.fs, c.invFs, c.master, c.bend, c.wheel, c.after, c.pan, c.lfoSpeed, c.lfoLevel, c.cutoff, c.res, c.mix, c.detune,
   c.dFb, c.dMix, c.dLpAlpha, c.dHpAlpha, c.car.ratio, c.car.level, c.car.fb, c.mod.ratio, c.mod.level, c.mod.fb] ++
  waveNums c.car.wave ++ waveNums c.mod.wave ++ waveNums c.lfoWave ++
  [c.amp, c.fmEnv, c.modEnv].flatMap (fun e => [e.attackDelta, e.decayRate, e.releaseRate, e.sustain]) ++
  [c.depth.pitch, c.depth.level, c.depth.pan, c.depth.cutoff, c.depth.resonance, c.depth.mix, c.depth.lfoSpeed,
   c.depth.lfoLevel].flatMap sourceList

/-- An envelope's rates lie in `(0, 1]` and its sustain level in `[0, 1]` (42_envelope.md R190). -/
def envCfgForm (e : EnvCfg) : Prop :=
  isRate e.attackDelta = true ∧ isRate e.decayRate = true ∧ isRate e.releaseRate = true ∧
    inClosedUnit e.sustain = true

/-- CFG of a configured core: every number finite, the two one-pole coefficients in `[0, 1]`, the envelopes' rates and
sustain levels in range (10_state.md R59; 42_envelope.md R190). -/
def cfgForm (c : Cfg) : Prop :=
  (∀ x ∈ cfgNums c, isFinite x = true) ∧ inClosedUnit c.dLpAlpha = true ∧ inClosedUnit c.dHpAlpha = true ∧
    envCfgForm c.amp ∧ envCfgForm c.fmEnv ∧ envCfgForm c.modEnv

/-- Every entry of the pitch tables lies in `[0, 128]` (10_state.md R53, R59). -/
def tableForm (t : PitchTables Z) : Prop :=
  ∀ (ch : Fin Z.NCH) (key : Fin Config.KEYS), within (tableRead t ch key) n0 (decimal 128 1) = true

/-- Every reservation's offset is in `-1 .. 2^31 - 1` (46_scheduler.md R281 d). -/
def ringForm (s : State Z) : Prop :=
  (∀ j : Fin Z.RN, -1 ≤ (s.nres[j]).offset ∧ (s.nres[j]).offset < 2 ^ 31) ∧
    ∀ j : Fin Z.RP, -1 ≤ (s.pres[j]).offset ∧ (s.pres[j]).offset < 2 ^ 31

/-- A delay channel under a capacity: no element at or above it, feedback gated. -/
def delayForm (dcap : Nat) (d : DelayChan) : Prop := (∀ e ∈ d.ram, e.1 < dcap) ∧ feedbackOk d.fb = true

/-- What STATUS says of the capacity and, once the core is configured, of CFG, the tables and the cursors (10_state.md
R52, R59). -/
def statusForm (s : State Z) : Prop :=
  (s.status.active = false → s.status.cfgValid = false ∧ s.dcap = 0) ∧
    (s.status.active = true → 1 ≤ s.dcap ∧ s.dcap ≤ Z.DCAP_MAX) ∧
    (s.status.cfgValid = true →
      1 ≤ s.cfg.stackSize ∧ s.cfg.stackSize ≤ Z.NS ∧ 1 ≤ s.cfg.dLen ∧ s.cfg.dLen ≤ s.dcap ∧
        s.dly.left.w < s.cfg.dLen ∧ s.dly.right.w < s.cfg.dLen ∧ cfgForm s.cfg ∧ tableForm s.table)

/-- The invariant of a core that hosts drive: nothing on the model's own unit-operation port (a host cannot issue a unit
operation, 30_encoding.md R120), and every form above. -/
def HostInv (s : State Z) : Prop :=
  s.uops = [] ∧ memoryForm s ∧ statusForm s ∧ ringForm s ∧ (∀ i : Fin Z.NV, voiceForm s.voices[i]) ∧
    delayForm s.dcap s.dly.left ∧ delayForm s.dcap s.dly.right

/-! ## The spec's own tables -/

/-- The match and mask of the seven commands (30_encoding.md R117). -/
def commandRows : List (Word × Word) :=
  [(0x01000000, 0xFFFFFFFF), (0x02000000, 0xFFFFFFFF), (0x03000000, 0xFFFFFFFF), (0x04000000, 0xFF00FFFF),
   (0x05000000, 0xFF00FFFF), (0x06000000, 0xFFFFFFFF), (0x07000000, 0xFFFF0000)]

/-- The header is a command's (30_encoding.md R117, R118). -/
def headerLegal (h : Word) : Prop := ∃ row ∈ commandRows, h &&& row.2 = row.1

/-- Words in the frame of `op` (30_encoding.md R112, R116). -/
def formatWords (op : Nat) : Nat :=
  if op = 1 ∨ op = 3 ∨ op = 7 then 3 else if op = 4 ∨ op = 5 then 7 else if op = 6 then 4 else 1

/-- The mapped addresses as 49_processor.md R350 lists them, the tuning groups for as many channels as there are. -/
def listedAddress (Z : Config.Params) (a : Nat) : Prop :=
  a ≤ 0x0004 ∨ (0x0100 ≤ a ∧ a ≤ 0x0105) ∨ (0x0200 ≤ a ∧ a ≤ 0x0205) ∨ (0x0300 ≤ a ∧ a ≤ 0x0303) ∨
    (0x0400 ≤ a ∧ a ≤ 0x0403) ∨ (0x0500 ≤ a ∧ a ≤ 0x0503) ∨ (0x0600 ≤ a ∧ a ≤ 0x0602) ∨
    (0x0700 ≤ a ∧ a ≤ 0x0705) ∨ (0x0800 ≤ a ∧ a ≤ 0x0803) ∨ (0x0900 ≤ a ∧ a ≤ 0x0902) ∨
    (0x1000 ≤ a ∧ a < 0x1800 ∧ a % 256 ≤ 0x04) ∨ (0x2000 ≤ a ∧ a < 0x2000 + 256 * Z.NCH ∧ a % 256 ≤ 0x0E)

/-- The tiers of 60_exceptions.md R398; PWRITE belongs to none. -/
inductive Tier where
  | init
  | event
  | audio
  | hostSide
deriving DecidableEq, Repr

/-- The tier of an instruction (30_encoding.md R120, 60_exceptions.md R398). -/
def tierOf : Instr Z → Tier
  | .activate _ | .deactivate => .init
  | .recalc _ | .cfgWave _ _ _ | .cfgOp _ | .cfgEnv _ | .cfgLp1 _ _ | .cfgSvf | .cfgModdest | .cfgTune _ => .event
  | .cfgStack | .cfgDelay | .cfgGlobal _ => .event
  | .pwrite _ _ => .hostSide
  | .reserve _ _ _ _ _ | .reservep _ _ _ _ _ | .process _ _ | .tick | .applyNoteon _ | .applyNoteoff _ => .audio
  | .applyPressure _ _ | .voiceStart _ | .voiceRestart _ | .syncStep _ _ _ | .carStep _ _ _ _ _ => .audio
  | .modStep _ _ _ _ | .lfoStep _ _ _ | .envStep _ _ _ | .lp1Step _ _ _ | .hp1Step _ _ _ | .svfRetune _ _ _ => .audio
  | .svfStep _ _ _ _ _ | .modAdd _ _ | .modMulbias _ _ | .modPitch _ _ | .stackRender _ _ _ _ | .voiceRender _ => .audio
  | .delayStep _ _ | .mix _ | .out _ _ _ _ => .audio

/-- What `raise Fault(c)` leaves (60_exceptions.md R392). -/
def latched (c : Cause) (s : State Z) : State Z := { s with fault := if s.fault = .none then c else s.fault }

/-- What a whole frame of a host port does once its words are consumed: the command it decodes to runs, or it is an
illegal command (30_encoding.md R116, R119). -/
def frameEffect (p : Port) (ws : List Word) (s : State Z) : Host.Outcome (State Z) Fault Refusal :=
  match decode Z p ws with
  | .ok i => Z.exec i s
  | .error _ => .next (latched .illegalCommand s)

/-! ## Schedules as runs of unit operations -/

/-- Issue one instruction on its own: the state it leaves, and what it returns. A stop leaves the state as it is. -/
def issue (i : Instr Z) (s : State Z) : State Z :=
  match Z.exec i s with
  | .next t => t
  | .fault _ => s
  | .refused _ => s

/-- The `n`th value the last unit operation returned. -/
def result (s : State Z) (n : Nat) : Num := s.ret.getD n n0

/-- Issue instructions one after the other. -/
def issueAll (is : List (Instr Z)) (s : State Z) : State Z := is.foldl (fun t i => issue i t) s

/-- One copy of STACK.RENDER as SYNC.STEP, MOD.STEP, CAR.STEP (47_stacked_voice.md R309). -/
def issueCopy (v : Fin Z.NV) (pm f gl gr : Num) (a : State Z × Num × Num) (k : Fin Z.NS) :
    State Z × Num × Num :=
  let ds := fmul (fmul (fmul (a.1.voices[v]).base[k] a.1.cfg.bend) pm) a.1.cfg.invFs
  let s1 := issue (.syncStep v k ds) a.1
  let pulse := result s1 0
  let s2 := issue (.modStep v k (fmul ds a.1.cfg.mod.ratio) pulse) s1
  let s3 := issue (.carStep v k (fmul ds a.1.cfg.car.ratio) pulse (fmul (result s2 0) f)) s2
  (s3, fadd a.2.1 (fmul (result s3 0) gl), fadd a.2.2 (fmul (result s3 0) gr))

/-- The source vector of a voice (44_modulation.md R230). -/
def sourceVector (s : State Z) (v : Fin Z.NV) (lfo e : Num) : PerSource :=
  ⟨lfo, e, s.cfg.wheel, clamp (s.voices[v]).note.velocity n0 n1, fmax s.cfg.after (s.voices[v]).pressure⟩

/-- The combiner of a destination, issued when the destination is active, else its neutral value
(44_modulation.md R232, R236). -/
def combine (active : Bool) (i : Instr Z) (neutral : Num) (s : State Z) : Num :=
  if active then result (issue i s) 0 else neutral

/-- Stages 1 and 2 of VOICE.RENDER: the modulation envelope, the LFO's two destinations, the LFO, the other six
(44_modulation.md R236 lines 1 to 12). -/
def issueEngine (v : Fin Z.NV) (gate : Bool) (s : State Z) : State Z × ModOut :=
  let s1 := issue (.envStep .modEnv v gate) s
  let e := result s1 0
  let pre := sourceVector s1 v (s1.voices[v]).lfoOut e
  let s2 := issue (.lfoStep v (combine s.cfg.dActive.lfoSpeed (.modPitch .lfoSpeed pre) n1 s1)
    (combine s.cfg.dActive.lfoLevel (.modMulbias .lfoLevel pre) n1 s1)) s1
  let src := sourceVector s2 v (result s2 0) e
  (s2,
   { pm := combine s.cfg.dActive.pitch (.modPitch .pitch src) n1 s2
     lm := combine s.cfg.dActive.level (.modMulbias .level src) n1 s2
     pn := combine s.cfg.dActive.pan (.modAdd .pan src) n0 s2
     co := combine s.cfg.dActive.cutoff (.modAdd .cutoff src) n0 s2
     rs := combine s.cfg.dActive.resonance (.modAdd .resonance src) n0 s2
     mx := combine s.cfg.dActive.mix (.modAdd .mix src) n0 s2 })

/-- Stage 7, the filter stage (47_stacked_voice.md R311). -/
def issueFilter (v : Fin Z.NV) (m : ModOut) (xl xr : Num) (s : State Z) : State Z × Num × Num :=
  if s.cfg.filterOn then
    let t := issue (.svfRetune m.co m.rs m.mx) s
    let s1 := issue (.svfStep v .left (result t 0) (result t 1) xl) s
    let s2 := issue (.svfStep v .right (result t 0) (result t 1) xr) s1
    (s2, fadd (fmul xl (fsub n1 (result t 2))) (fmul (result s1 0) (result t 2)),
     fadd (fmul xr (fsub n1 (result t 2))) (fmul (result s2 0) (result t 2)))
  else (s, xl, xr)

/-- Stage 8, the lifecycle check (47_stacked_voice.md R312). -/
def issueLifecycle (v : Fin Z.NV) (s : State Z) : State Z :=
  if (s.voices[v]).state = .release ∧ feq (s.voices[v]).amp.level n0 = true then
    { s with voices := s.voices.set v { s.voices[v] with state := .inactive } }
  else s

/-- VOICE.RENDER as its stages 1 to 8 (47_stacked_voice.md R304, R310). -/
def issueVoice (v : Fin Z.NV) (s : State Z) : State Z × Num × Num :=
  let gate := decide ((s.voices[v]).state = .active)
  let m := issueEngine v gate s
  let s1 := issue (.envStep .amp v gate) m.1
  let s2 := issue (.envStep .fm v gate) s1
  let s3 := issue (.stackRender v m.2.pm m.2.pn (result s2 0)) s2
  let gain := fmul (result s1 0) m.2.lm
  let size := ofInt (s3.voices[v]).stackSize
  let x := issueFilter v m.2 (fmul (fdiv (result s3 0) size) gain) (fmul (fdiv (result s3 1) size) gain) s3
  (issueLifecycle v x.1, x.2.1, x.2.2)

/-- One voice of MIX (49_processor.md R366). -/
def issueMixed (a : State Z × Num × Num) (i : Fin Z.NV) : State Z × Num × Num :=
  let t := issue (.voiceRender i) a.1
  (t, fadd a.2.1 (result t 0), fadd a.2.2 (result t 1))

/-- A selection of voices as MIX's operand. -/
def maskOf (sel : List (Fin Z.NV)) : BitVec Z.NV :=
  sel.foldl (fun m i => m ||| BitVec.twoPow Z.NV i.val) 0

/-- `Sample()` as TICK, MIX, DELAY.STEP, OUT (49_processor.md R364); the result latch is put back. -/
def issueSample (s : State Z) : State Z :=
  let s1 := issue .tick s
  let s2 := issue (.mix (maskOf (select s1.cfg.mono s1.voices))) s1
  let s3 := issue (.delayStep (result s2 0) (result s2 1)) s2
  { issue (.out (result s2 0) (result s2 1) (result s3 0) (result s3 1)) s3 with ret := s.ret }

/-- `n` times `Sample()`. -/
def issueSamples : Nat → State Z → State Z
  | 0, s => s
  | n + 1, s => issueSamples n (issueSample s)

/-- The operation `Apply(ev)` stands for (46_scheduler.md R278). -/
def applyInstr (ev : MidiNote Z) : Instr Z := if fle n0 ev.velocity then .applyNoteon ev else .applyNoteoff ev

/-- One slot of TICK step 2 (46_scheduler.md R274). -/
def issueNoteSlot (s : State Z) (j : Fin Z.RN) : State Z :=
  let e := s.nres[j]
  if 0 ≤ e.offset then
    let s1 := { s with nres := s.nres.set j ⟨e.note, e.offset - 1⟩ }
    if e.offset = 0 then issue (applyInstr e.note) s1 else s1
  else s

/-- One slot of TICK step 3 (46_scheduler.md R274). -/
def issuePressSlot (s : State Z) (j : Fin Z.RP) : State Z :=
  let e := s.pres[j]
  if 0 ≤ e.offset then
    let s1 := { s with pres := s.pres.set j ⟨e.note, e.pressure, e.offset - 1⟩ }
    if e.offset = 0 then issue (.applyPressure e.note e.pressure) s1 else s1
  else s

/-- A live voice one tick older; an Inactive one as it is (46_scheduler.md R274 step 1, R280). -/
def aged (v : Voice Z) : Voice Z :=
  match v.state with
  | .inactive => v
  | .active => { v with length := if v.length = 0xFFFFFFFF then 0xFFFFFFFF else v.length + 1 }
  | .release => { v with length := if v.length = 0xFFFFFFFF then 0xFFFFFFFF else v.length + 1 }

/-- TICK as its three steps (46_scheduler.md R274). -/
def issueTick (s : State Z) : State Z :=
  let s1 := { s with voices := s.voices.map aged }
  let s2 := (List.finRange Z.RN).foldl issueNoteSlot s1
  { (List.finRange Z.RP).foldl issuePressSlot s2 with ret := [] }

/-- RECALC's schedule, `CFG.GLOBAL` to the last `CFG.TUNE` (49_processor.md R353). -/
def recalcSchedule (fs : Num) : List (Instr Z) :=
  [.cfgGlobal fs, .cfgOp .carrier, .cfgOp .modulator, .cfgEnv .amp, .cfgEnv .fm, .cfgEnv .modEnv, .cfgModdest, .cfgSvf,
   .cfgStack, .cfgDelay] ++ (List.finRange Z.NCH).map Instr.cfgTune

/-- DELAY.STEP for each of a list of dry pairs. -/
def issueDelay (xs : List (Num × Num)) (s : State Z) : State Z := xs.foldl (fun t x => issue (.delayStep x.1 x.2) t) s

end Sys2Proof.Machine
end

