-- ==== Sys2Proof/Certificates/Slice0/Obligations.lean ====
section
/-! DEFINITION. The statements for the provers. Each docstring names the rule a statement formalises; where a clause is
the model's own choice it names the log entry. Every statement about the machine is about all parameters `Z` (00_scope.md
R9, 93_implementation_defined.md section 1): `Z.exec`, `Z.step` and `Z.reset` are those of the machine with parameters `Z`,
and `exec`, `step` and `State.reset` those of the reference instance, as StepRunsDecodedInstruction and
HostInvariantAtReset say. -/

open Sys2Proof Sys2Proof.Machine

/-! ## Encoding -/

/-- Decoding the encoding of an instruction gives the instruction back, whatever its operands hold, well formed or not:
the seven command frames of R112 and R117, and the unit-operation frames, whose layout is the model's own (assumption
9); their selectors have 8 bits and MIX's mask 24, so for these the pool has at most 24 voices and a stack at most 256
copies. -/
def Obligations.EncodeDecodeAgree : Prop :=
  ∀ (Z : Config.Params) (i : Instr Z), (portOf i = .unitOp → Z.NV ≤ 24 ∧ Z.NS ≤ 256) →
    decode Z (portOf i) (encode i) = .ok i

/-- A frame has one reading: whatever port it arrives on, if it decodes to an instruction it is that instruction's
encoding, so no bit of it was ignored (R112, R116, R118; the unit port is the model's own, assumption 9). -/
def Obligations.DecodedFrameIsEncoding : Prop :=
  ∀ (Z : Config.Params) (p : Port) (ws : List Word) (i : Instr Z), decode Z p ws = .ok i → encode i = ws

/-- On the command port a frame decodes exactly when its header matches one of the seven rows of R117 under the row's
mask (so every reserved bit of R118 is 0) and it has the words of its format (R112, R116). On the control port it
decodes exactly when, besides, its `op` is PWRITE's (R110, R119). -/
def Obligations.LegalHeadersDecode : Prop :=
  ∀ (Z : Config.Params) (h : Word) (ops : List Word),
    ((∃ i, decode Z .command (h :: ops) = .ok i) ↔ headerLegal h ∧ ops.length + 1 = formatWords (h.toNat / 2 ^ 24)) ∧
      ((∃ i, decode Z .control (h :: ops) = .ok i) ↔
        headerLegal h ∧ h.toNat / 2 ^ 24 = 7 ∧ ops.length + 1 = 3)

/-- The words of the spec's worked encodings (30_encoding.md, "Worked encodings", derived there from R111 to R117) decode
to the commands they are written for. -/
def Obligations.WorkedEncodingsDecode : Prop :=
  ∀ Z : Config.Params,
  decode Z .command [0x01000000, 0x00000000, 0x40E58880] = .ok (.activate 0x40E5888000000000) ∧
  decode Z .command [0x03000000, 0x00000000, 0x40E58880] = .ok (.recalc 0x40E5888000000000) ∧
  decode Z .command [0x04000000, 0x00000000, 0x404E0000, 0x9999999A, 0x3FE99999, 0xFFFFFFFF, 0x00000000] =
    .ok (.reserve 0 0x404E000000000000 0x3FE999999999999A 0xFFFFFFFF 0) ∧
  decode Z .command [0x04030000, 0x00000000, 0x404E0000, 0x00000000, 0xBFF00000, 0xFFFFFFFF, 0x00000064] =
    .ok (.reserve 3 0x404E000000000000 0xBFF0000000000000 0xFFFFFFFF 100) ∧
  decode Z .command [0x06000000, 0x00000000, 0x40E58880, 0x00001000] = .ok (.process 0x40E5888000000000 4096) ∧
  decode Z .command [0x07000000, 0x00000000, 0x3FF00000] = .ok (.pwrite 0 0x3FF0000000000000) ∧
  decode Z .control [0x07000705, 0x00000000, 0x3FE00000] = .ok (.pwrite 0x0705 0x3FE0000000000000) ∧
  decode Z .command [0x02000000] = .ok .deactivate

/-! ## The step -/

/-- A step runs the decoded instruction: the frame at the front of the command port when no frame is complete on the
control port, the frame at the front of the control port when none is complete on the command port, and a unit frame on
the model's own port before both (assumption 9). The frame is consumed whole and what follows it stays (R116). The
machine of the reference instance, `exec` and `step`, is that of its parameters (R9, assumption 1). -/
def Obligations.StepRunsDecodedInstruction : Prop :=
  (∀ (Z : Config.Params) (s : State Z) (ws rest : List Word) (i : Instr Z), s.resetIn = false → s.resetAfter = none →
    (s.uops = [] → frameReady .control s.ctl = false → s.cmd = ws ++ rest → decode Z .command ws = .ok i →
      Z.step s = Z.exec i { s with cmd := rest }) ∧
    (s.uops = [] → frameReady .command s.cmd = false → s.ctl = ws ++ rest → decode Z .control ws = .ok i →
      Z.step s = Z.exec i { s with ctl := rest }) ∧
    (s.uops = ws ++ rest → decode Z .unitOp ws = .ok i → Z.step s = Z.exec i { s with uops := rest })) ∧
  (∀ (i : Instr) (s : State), exec i s = Config.params.exec i s) ∧ ∀ s : State, step s = Config.params.step s

/-- A port waits while words of its frame are missing (R116): with neither port's frame whole, or no word at all, a step
answers the state it was given. That such a step changes nothing is the model's reading (assumption 15, DEDUCED). -/
def Obligations.PortsWaitForWholeFrame : Prop :=
  ∀ (Z : Config.Params) (s : State Z), s.resetIn = false → s.resetAfter = none → s.uops = [] →
    (∀ h ops, s.cmd = h :: ops → s.cmd.length < formatWords (h.toNat / 2 ^ 24)) →
    (∀ h ops, s.ctl = h :: ops → s.ctl.length < formatWords (h.toNat / 2 ^ 24)) → Z.step s = .next s

/-- An illegal command: a header that matches no row of R117, or on the control port one that is not PWRITE's. The frame
is consumed at the length its `op` gives, `IllegalCommand` is latched if no cause was, and nothing else changes. -/
def Obligations.IllegalFrameLatches : Prop :=
  ∀ (Z : Config.Params) (s : State Z) (h : Word) (ops rest : List Word), s.resetIn = false → s.resetAfter = none →
    s.uops = [] → ops.length + 1 = formatWords (h.toNat / 2 ^ 24) →
    (¬ headerLegal h → s.cmd = h :: ops ++ rest → frameReady .control s.ctl = false →
      Z.step s = .next (latched .illegalCommand { s with cmd := rest })) ∧
    (¬ (headerLegal h ∧ h.toNat / 2 ^ 24 = 7) → s.ctl = h :: ops ++ rest → frameReady .command s.cmd = false →
      Z.step s = .next (latched .illegalCommand { s with ctl := rest }))

/-- When a frame is whole on both ports, legal or not, one step takes one of the two and leaves the other (R393): the
command it holds runs, or `IllegalCommand` is latched (R119). Which of the two is a free choice, and the counter `free`
advancing is the model's own (assumptions 6 and 10). -/
def Obligations.ContendedPortsRunOne : Prop :=
  ∀ (Z : Config.Params) (s : State Z) (h h' : Word) (ops rest ops' rest' : List Word), s.resetIn = false →
    s.resetAfter = none → s.uops = [] → s.cmd = h :: ops ++ rest → ops.length + 1 = formatWords (h.toNat / 2 ^ 24) →
    s.ctl = h' :: ops' ++ rest' → ops'.length + 1 = formatWords (h'.toNat / 2 ^ 24) →
    Z.step s = frameEffect .command (h :: ops) { s with cmd := rest, free := s.free + 1 } ∨
      Z.step s = frameEffect .control (h' :: ops') { s with ctl := rest', free := s.free + 1 }

/-- The reset table of R430: a step taken while the reset input is asserted leaves every register at the table's value,
both ports empty, and emits nothing; CFG and TABLE are left open here. The same where reset is asserted during a step,
after `n` of the pairs that the step emits: the table stands, reset stays asserted, and no pair after those `n` is
emitted, although R390 lets a PROCESS emit every pair. That the table stands already while reset is asserted, that the
samples emitted before stay in `out`, and that R430 goes before R390, is the model's own choice (assumption 11). -/
def Obligations.HardwareResetTable : Prop :=
  ∀ Z : Config.Params,
  let table := fun (t : State Z) =>
    t.status.active = false ∧ t.status.cfgValid = false ∧ t.fault = .none ∧ t.dcap = 0 ∧
    (∀ a r, paramRow Z a = some r → paramRead t a = r.dflt) ∧
    (∀ i : Fin Z.NV, (t.voices[i]).state = .inactive ∧ (t.voices[i]).length = 0 ∧ (t.voices[i]).pressure = 0 ∧
      (t.voices[i]).stackSize = 1 ∧ (t.voices[i]).note = ⟨⟨0, Z.nch_pos⟩, 0, 0, 0xFFFFFFFF⟩ ∧
      (∀ k : Fin Z.NS, (t.voices[i]).base[k] = 0 ∧ (t.voices[i]).sync[k] = 0 ∧
        (t.voices[i]).car[k] = ⟨0, 0⟩ ∧ (t.voices[i]).mod[k] = ⟨0, 0⟩) ∧
      (t.voices[i]).amp = ⟨0, false⟩ ∧ (t.voices[i]).fm = ⟨0, false⟩ ∧ (t.voices[i]).modEnv = ⟨0, false⟩ ∧
      (t.voices[i]).lfoPhase = 0 ∧ (t.voices[i]).lfoOut = 0 ∧ (t.voices[i]).flt = ⟨⟨0, 0⟩, ⟨0, 0⟩⟩) ∧
    (∀ j : Fin Z.RN, t.nres[j] = ⟨⟨⟨0, Z.nch_pos⟩, 0, 0, 0xFFFFFFFF⟩, -1⟩) ∧
    (∀ j : Fin Z.RP, t.pres[j] = ⟨⟨⟨0, Z.nch_pos⟩, 0, 0, 0xFFFFFFFF⟩, 0, -1⟩) ∧
    (∀ c : Chan, chanGet t.dly c = ⟨[], 0, 0, 0, 0⟩) ∧ t.cmd = [] ∧ t.ctl = []
  (∀ s : State Z, s.resetIn = true → ∃ t, Z.step s = .next t ∧ table t ∧ t.out = s.out) ∧
    ∀ (s u : State Z) (n : Nat), s.resetIn = false → Z.step { s with resetAfter := none } = .next u →
      ∃ t, Z.step { s with resetAfter := some n } = .next t ∧ table t ∧ t.resetIn = true ∧ t.resetAfter = none ∧
        t.out = u.out.take (s.out.length + n)

/-! ## Invariants and whole-machine rules -/

/-- Every step of a core that hosts drive has a next state, and it keeps the invariant: capacity and cursors as STATUS
says, reservation offsets in range, phases in `[0, 1)`, envelope levels in `[0, 1]`, stack sizes in `1..NS`, feedback
gated, and once the core is configured every number of CFG finite, the one-pole coefficients and sustain levels in
`[0, 1]`, the envelope rates in `(0, 1]`, every pitch table entry in `[0, 128]`. These the spec marks as its own
derivation (10_state.md, "Invariants that hold after every command"; 46_scheduler.md on offsets; 42_envelope.md on
rates). Two clauses are the model's own: the canonical form of PARAM and of the delay RAMs, no element listed at or
above `DCAP` (assumption 12), and that nothing waits on the unit port (assumption 9). They rest on the open functions
and free values being kept to the spec's ranges (assumptions 3 and 17). -/
def Obligations.HostInvariantKept : Prop :=
  ∀ (Z : Config.Params) (s : State Z), HostInv s → ∃ t, Z.step s = .next t ∧ HostInv t

/-- The invariant of HostInvariantKept holds after reset; its clauses on how memory is listed and on the unit port are the
model's own (assumptions 12 and 9). `State.reset` is the reset state of the reference instance (R9, assumption 1). -/
def Obligations.HostInvariantAtReset : Prop :=
  (∀ Z : Config.Params, HostInv Z.reset) ∧ State.reset = Config.params.reset

/-- The canonical form of PARAM and of both delay RAMs is kept by every instruction, unit operations issued on their own
among them. The form is the model's own (assumption 12). -/
def Obligations.MemoryFormKept : Prop :=
  ∀ (Z : Config.Params) (i : Instr Z) (s t : State Z), memoryForm s → Z.exec i s = .next t → memoryForm t

/-- FAULT: one cause, read on the status port by its code; sticky, once non-zero it keeps the first cause whatever
command runs; hardware reset sets it to 0, and so it reads after reset (R32). That it reads 0 already while reset is
asserted, and where reset is asserted during a step, is the model's own choice (assumption 11). -/
def Obligations.FaultIsSticky : Prop :=
  ∀ Z : Config.Params,
  (∀ s : State Z, (statusPort s).2.2 =
    match s.fault with
    | .none => 0
    | .illegalCommand => 1
    | .badState => 2
    | .badOperand => 3) ∧
  (∀ s t : State Z, s.resetIn = false → s.resetAfter = none → s.fault ≠ .none → Z.step s = .next t →
    t.fault = s.fault) ∧
    (∀ s t : State Z, s.resetIn = true ∨ s.resetAfter ≠ none → Z.step s = .next t → t.fault = .none) ∧
    Z.reset.fault = .none

/-- Which command is refused in which state, with the fault shown and nothing else changed (R370, R391, R392): ACTIVATE
on an active core, DEACTIVATE and RECALC on an inactive one, RESERVE, RESERVEP and PROCESS unless active and
configured. -/
def Obligations.WrongStateFaults : Prop :=
  ∀ (Z : Config.Params) (s : State Z),
    (s.status.active = true → ∀ fs, Z.exec (.activate fs) s = .next (latched .badState s)) ∧
    (s.status.active = false →
      Z.exec .deactivate s = .next (latched .badState s) ∧ ∀ fs, Z.exec (.recalc fs) s = .next (latched .badState s)) ∧
    (s.status.active = false ∨ s.status.cfgValid = false →
      (∀ ch pitch vel id off, Z.exec (.reserve ch pitch vel id off) s = .next (latched .badState s)) ∧
      (∀ ch pitch p id off, Z.exec (.reservep ch pitch p id off) s = .next (latched .badState s)) ∧
      ∀ fs n, Z.exec (.process fs n) s = .next (latched .badState s))

/-- The operands that fault, in the states that reach the operand check, with nothing else changed (R391, R392, R393). -/
def Obligations.BadOperandFaults : Prop :=
  ∀ (Z : Config.Params) (s : State Z),
    (∀ (addr : BitVec 16) (v : Sys2Proof.Num), ¬ listedAddress Z addr.toNat →
      Z.exec (.pwrite addr v) s = .next (latched .badOperand s)) ∧
    (s.status.active = true → s.status.cfgValid = true →
      (∀ (ch : BitVec 8) pitch val id off, Z.NCH ≤ ch.toNat ∨ isFinite pitch = false ∨ isFinite val = false →
        Z.exec (.reserve ch pitch val id off) s = .next (latched .badOperand s) ∧
          Z.exec (.reservep ch pitch val id off) s = .next (latched .badOperand s)) ∧
      ∀ fs (n : Word), n.toInt < 0 → Z.exec (.process fs n) s = .next (latched .badOperand s))

/-- No unit operation raises a fault, for any operand and any state, and none changes STATUS (R390 a); and every
instruction, host command or unit operation, has a next state in every state: none stops. -/
def Obligations.UnitOperationsRaiseNothing : Prop :=
  ∀ Z : Config.Params,
  (∀ (i : Instr Z) (s t : State Z), portOf i = .unitOp → Z.exec i s = .next t →
    t.fault = s.fault ∧ t.status = s.status) ∧
    ∀ (i : Instr Z) (s : State Z), ∃ t, Z.exec i s = .next t

/-- FAULT is a record, not a halt: whatever it holds, an instruction does the same to everything else (R394). -/
def Obligations.FaultIsARecord : Prop :=
  ∀ (Z : Config.Params) (i : Instr Z) (s t : State Z) (c : Cause), Z.exec i s = .next t →
    ∃ t', Z.exec i { s with fault := c } = .next t' ∧ { t' with fault := t.fault } = t

/-- What the operations of each tier may write (R398): the init tier neither PARAM nor the output ports; the event tier
neither PARAM nor voices, rings, capacity, `active` or the output ports, and of the delay state nothing but the cursors
(an overlapped RECALC aside, whose control-port writes are PWRITE's own: assumption 7); the audio tier neither PARAM
nor CFG, TABLE, capacity or STATUS; PWRITE nothing but PARAM and FAULT. -/
def Obligations.TiersWriteTheirOwn : Prop :=
  ∀ (Z : Config.Params) (i : Instr Z) (s t : State Z), Z.exec i s = .next t →
    (tierOf i = .init → t.param = s.param ∧ t.out = s.out) ∧
    (tierOf i = .event → frameReady .control s.ctl = false →
      t.param = s.param ∧ t.voices = s.voices ∧ t.nres = s.nres ∧ t.pres = s.pres ∧
        (∀ c : Chan, chanGet t.dly c = { chanGet s.dly c with w := (chanGet t.dly c).w }) ∧
        t.dcap = s.dcap ∧ t.status.active = s.status.active ∧ t.out = s.out) ∧
    (tierOf i = .audio →
      t.param = s.param ∧ t.cfg = s.cfg ∧ t.table = s.table ∧ t.dcap = s.dcap ∧ t.status = s.status) ∧
    (tierOf i = .hostSide → { t with param := s.param, fault := s.fault } = s)

/-! ## PWRITE, ACTIVATE, DEACTIVATE -/

/-- PWRITE to a listed address stores the value unchanged, in every state; every other register, and everything else,
stays (R350, R33). The premise is the canonical form every instruction keeps (MemoryFormKept). -/
def Obligations.PwriteStores : Prop :=
  ∀ (Z : Config.Params) (addr : BitVec 16) (v : Sys2Proof.Num) (s : State Z), memoryForm s →
    listedAddress Z addr.toNat →
    ∃ t, Z.exec (.pwrite addr v) s = .next t ∧ paramRead t addr.toNat = v ∧
      (∀ a, a ≠ addr.toNat → paramRead t a = paramRead s a) ∧ { t with param := s.param } = s

/-- PWRITE to a mapped register commutes with RESERVE, RESERVEP and PROCESS. The spec derives this from R33
(20_memory.md, consistency model, clause d). -/
def Obligations.PwriteCommutes : Prop :=
  ∀ (Z : Config.Params) (addr : BitVec 16) (v : Sys2Proof.Num) (i : Instr Z) (s t : State Z),
    listedAddress Z addr.toNat →
    ((∃ ch p x id off, i = .reserve ch p x id off) ∨ (∃ ch p x id off, i = .reservep ch p x id off) ∨
      ∃ fs n, i = .process fs n) →
    Z.exec i s = .next t →
    ∃ s1 t1, Z.exec (.pwrite addr v) s = .next s1 ∧ Z.exec i s1 = .next t1 ∧ Z.exec (.pwrite addr v) t = .next t1

/-- ACTIVATE on an inactive core: `DCAP` from the sample rate, every voice, reservation and delay field at its reset
value, every delay RAM element 0, Idle; PARAM, FAULT, the ports and the samples emitted stay. CFG and TABLE are left
open (R351). The model's free-value counter may move (assumption 10). -/
def Obligations.ActivateClears : Prop :=
  ∀ (Z : Config.Params) (fs : Sys2Proof.Num) (s : State Z), s.status.active = false →
    ∃ t, Z.exec (.activate fs) s = .next t ∧ t.status = ⟨true, false⟩ ∧
      t.dcap = max 1 (min Z.DCAP_MAX
        (floorInt (fdiv (if isNaN fs then n1 else clamp fs n1 (decimal 768000 1)) n2)).toNat) ∧
      (∀ i : Fin Z.NV, t.voices[i] = Voice.reset) ∧ (∀ j : Fin Z.RN, t.nres[j] = NoteRes.reset) ∧
      (∀ j : Fin Z.RP, t.pres[j] = PressRes.reset) ∧
      (∀ (c : Chan) (a : Nat), ramRead (chanGet t.dly c).ram a = 0 ∧ (chanGet t.dly c).w = 0 ∧
        (chanGet t.dly c).fb = 0 ∧ (chanGet t.dly c).lp = 0 ∧ (chanGet t.dly c).hp = 0) ∧
      { t with status := s.status, dcap := s.dcap, cfg := s.cfg, table := s.table, voices := s.voices, nres := s.nres,
               pres := s.pres, dly := s.dly, free := s.free } = s

/-- DEACTIVATE on an active core: Off, capacity 0, every voice, reservation and delay field at its reset value; PARAM and
FAULT are kept, and so are the ports and the samples emitted. CFG and TABLE are left open (R352). The model's free-value
counter may move (assumption 10). -/
def Obligations.DeactivateClears : Prop :=
  ∀ (Z : Config.Params) (s : State Z), s.status.active = true →
    ∃ t, Z.exec .deactivate s = .next t ∧ t.status = ⟨false, false⟩ ∧ t.dcap = 0 ∧
      (∀ i : Fin Z.NV, t.voices[i] = Voice.reset) ∧ (∀ j : Fin Z.RN, t.nres[j] = NoteRes.reset) ∧
      (∀ j : Fin Z.RP, t.pres[j] = PressRes.reset) ∧ (∀ c : Chan, chanGet t.dly c = DelayChan.reset) ∧
      { t with status := s.status, dcap := s.dcap, cfg := s.cfg, table := s.table, voices := s.voices, nres := s.nres,
               pres := s.pres, dly := s.dly, free := s.free } = s

/-! ## RECALC and the CFG operations -/

/-- RECALC on an active core, with no whole frame on the control port to overlap it, is its schedule of unit operations
in order, then the cursors that are not below the new length set to 0, then `cfgValid` (R353). -/
def Obligations.RecalcIsItsSchedule : Prop :=
  ∀ (Z : Config.Params) (fs : Sys2Proof.Num) (s : State Z), s.status.active = true → frameReady .control s.ctl = false →
    let u := issueAll (recalcSchedule fs) s
    Z.exec (.recalc fs) s = .next { u with
      ret := s.ret
      dly := ⟨{ u.dly.left with w := if u.cfg.dLen ≤ u.dly.left.w then 0 else u.dly.left.w },
              { u.dly.right with w := if u.cfg.dLen ≤ u.dly.right.w then 0 else u.dly.right.w }⟩
      status := ⟨true, true⟩ }

/-- RECALC is idempotent, and what it leaves in CFG and TABLE depends on PARAM, the sample rate and the capacity alone:
with no overlapping write a second one changes nothing, and two active cores with the same PARAM and capacity get the
same CFG and TABLE. The spec derives this from R353 (20_memory.md, "RECALC is idempotent"). -/
def Obligations.RecalcIsIdempotent : Prop :=
  ∀ Z : Config.Params,
  (∀ (fs : Sys2Proof.Num) (s t : State Z), s.status.active = true → frameReady .control s.ctl = false →
    Z.exec (.recalc fs) s = .next t → Z.exec (.recalc fs) t = .next t) ∧
  ∀ (fs : Sys2Proof.Num) (s s' t t' : State Z), s.status.active = true → s'.status.active = true →
    frameReady .control s.ctl = false → frameReady .control s'.ctl = false → s.param = s'.param → s.dcap = s'.dcap →
    Z.exec (.recalc fs) s = .next t → Z.exec (.recalc fs) s' = .next t' → t.cfg = t'.cfg ∧ t.table = t'.table

/-- The snapshot of an overlapped RECALC: each register reads a value it has before, between or after the overlapping
frames' writes, for every choice (R88 b, c); with no whole control frame it reads the register file. An overlapped
RECALC completes too: the overlapping frames' writes stand in PARAM, and CFG and TABLE are those of a core whose
registers hold the snapshot. Which frames overlap is open (assumption 7). -/
def Obligations.SnapshotIsCoherent : Prop :=
  ∀ (Z : Config.Params) (s : State Z) (a : Nat),
    (∃ n, snapshot s a = paramRead (((overlapping s).take n).foldl controlFrame s) a) ∧
      (frameReady .control s.ctl = false → snapshot s a = paramRead s a) ∧
      ∀ fs, s.status.active = true → ∃ t, Z.exec (.recalc fs) s = .next t ∧ t.status = ⟨true, true⟩ ∧
        t.param = ((overlapping s).foldl controlFrame s).param ∧ t.dcap = s.dcap ∧ t.voices = s.voices ∧
        t.nres = s.nres ∧ t.pres = s.pres ∧ t.out = s.out ∧
        ∀ s' t' : State Z, s'.status.active = true → s'.dcap = s.dcap → frameReady .control s'.ctl = false →
          (∀ b, paramRead s' b = snapshot s b) → Z.exec (.recalc fs) s' = .next t' → t.cfg = t'.cfg ∧ t.table = t'.table

/-- Whatever bits a mapped register holds, a CFG rule sees a number in the register's own range, never NaN (R354, R15,
R33). -/
def Obligations.SanitizedInRange : Prop :=
  ∀ (Z : Config.Params) (snap : Nat → Sys2Proof.Num) (a : Nat) (r : ParamRow), paramRow Z a = some r →
    isNaN (paramNum Z snap a) = false ∧ fle r.lo (paramNum Z snap a) = true ∧ fle (paramNum Z snap a) r.hi = true

/-- After a RECALC on an active core with a capacity of at least 1: both flags set; the sample rate in `[1, 768000]`; the
master volume, wheel, aftertouch, filter mix and resonance, delay mix and feedback, carrier level, modulator feedback,
LFO level, sustain levels and the two one-pole coefficients in `[0, 1]`, the carrier's feedback 0; the modulator level in
`[0, 4]`, the LFO speed in `[0, 100]`, the cutoff in `[0, 160]`, the pan in `[-1, 1]`, the detune in `[0, 1]`; the bend
and both ratios in `[1/16, 16]`; the nine envelope rates in `(0, 1]`; every depth in its destination's range; every number
of CFG finite; the stack size in `1..NS`, the delay length in `1..DCAP` and both cursors below it; every table entry in
`[0, 128]`; and for every sample SVF.RETUNE's alpha in `[0, 1]`, its damping in `[0.01, 1]` and its mix in `[0, 1]` for
modulation inputs that are no NaN (R44, R53, R142, R163, R190, R210, R214, R300, R330, R355; the ranges that 10_state.md
derives from them). The bounds on exp2 are built into the open function (assumption 3), and an entry of the table whose
sum is no number is a free value kept in range (assumption 17). -/
def Obligations.RecalcBounds : Prop :=
  ∀ (Z : Config.Params) (fs : Sys2Proof.Num) (s t : State Z), s.status.active = true → 1 ≤ s.dcap →
    frameReady .control s.ctl = false → Z.exec (.recalc fs) s = .next t →
    t.status = ⟨true, true⟩ ∧ within t.cfg.fs n1 (decimal 768000 1) = true ∧
      (∀ x ∈ [t.cfg.master, t.cfg.wheel, t.cfg.after, t.cfg.mix, t.cfg.res, t.cfg.dMix, t.cfg.dFb, t.cfg.dLpAlpha,
          t.cfg.dHpAlpha, t.cfg.car.level, t.cfg.mod.fb, t.cfg.lfoLevel, t.cfg.amp.sustain, t.cfg.fmEnv.sustain,
          t.cfg.modEnv.sustain, t.cfg.detune], inClosedUnit x = true) ∧
      t.cfg.car.fb = 0 ∧ within t.cfg.mod.level n0 (decimal 4 1) = true ∧
      within t.cfg.lfoSpeed n0 (decimal 100 1) = true ∧ within t.cfg.cutoff n0 (decimal 160 1) = true ∧
      within t.cfg.pan nNeg1 n1 = true ∧
      (∀ x ∈ [t.cfg.bend, t.cfg.car.ratio, t.cfg.mod.ratio], within x (decimal 1 16) (decimal 16 1) = true) ∧
      (∀ e ∈ [t.cfg.amp, t.cfg.fmEnv, t.cfg.modEnv],
        ∀ x ∈ [e.attackDelta, e.decayRate, e.releaseRate], flt n0 x = true ∧ fle x n1 = true) ∧
      (∀ d : Dest, ∀ x ∈ sourceList (destGet t.cfg.depth d),
        fle (fabs x) (if d = .cutoff then decimal 128 1 else n1) = true) ∧
      (∀ x ∈ cfgNums t.cfg, isFinite x = true) ∧ 1 ≤ t.cfg.stackSize ∧ t.cfg.stackSize ≤ Z.NS ∧
      1 ≤ t.cfg.dLen ∧ t.cfg.dLen ≤ t.dcap ∧ t.dly.left.w < t.cfg.dLen ∧ t.dly.right.w < t.cfg.dLen ∧
      (∀ (ch : Fin Z.NCH) (key : Fin Config.KEYS), within (tableRead t.table ch key) n0 (decimal 128 1) = true) ∧
      ∀ co rs mx, ∃ al da mi, Z.exec (.svfRetune co rs mx) t = .next { t with ret := [al, da, mi] } ∧
        inClosedUnit al = true ∧ (isNaN rs = false → within da (decimal 1 100) n1 = true) ∧
        (isNaN mx = false → inClosedUnit mi = true)

/-- CFG.WAVE writes the record it is given, by the formulas of R161, and nothing else. -/
def Obligations.CfgWaveResult : Prop :=
  ∀ (Z : Config.Params) (x y : Sys2Proof.Num) (s : State Z),
    let r := clamp (fdiv (fadd n1 x) n2) (decimal 1 64) (fsub n1 (decimal 1 64))
    let w : WaveCfg :=
      { up := fdiv n2 r, down := fdiv n2 (fsub n1 r), b1 := fdiv r n2, b2 := fsub n1 (fdiv r n2)
        sinF := if fle n0 y then n0 else fneg y
        triF := if fle n0 y then n1 else fadd n1 y
        sq := if fle n0 y then fdiv n1 (fsub n1 (fmin y (decimal 63 64))) else n1 }
    Z.exec (.cfgWave .carrier x y) s =
      .next { s with cfg := { s.cfg with car := { s.cfg.car with wave := w } }, ret := [] } ∧
    Z.exec (.cfgWave .modulator x y) s =
      .next { s with cfg := { s.cfg with mod := { s.cfg.mod with wave := w } }, ret := [] } ∧
    Z.exec (.cfgWave .lfo x y) s = .next { s with cfg := { s.cfg with lfoWave := w }, ret := [] }

/-- CFG.OP writes an operator's ratio, level, waveshaper, sync flag and feedback from its sanitized registers, the
carrier's feedback being 0, and nothing else (R163, R356); the waveshaper record is the one CFG.WAVE would write. -/
def Obligations.CfgOpResult : Prop :=
  ∀ (Z : Config.Params) (s : State Z),
    let v := fun (lo hi d : Sys2Proof.Num) (a : Nat) => sanitize (paramRead s a) lo hi d
    let semi := decimal 48 1
    Z.exec (.cfgOp .carrier) s = .next { s with
      cfg := { s.cfg with car :=
        { ratio := exp2 (fdiv (v (fneg semi) semi n0 0x0100) (decimal 12 1)), level := v n0 n1 n1 0x0101
          wave := (issue (.cfgWave .carrier (v nNeg1 n1 n0 0x0102) (v nNeg1 n1 nNeg1 0x0103)) s).cfg.car.wave
          sync := fle nHalf (v n0 n1 n0 0x0104), fb := n0 } }
      ret := [] } ∧
    Z.exec (.cfgOp .modulator) s = .next { s with
      cfg := { s.cfg with mod :=
        { ratio := exp2 (fdiv (v (fneg semi) semi n0 0x0200) (decimal 12 1)), level := v n0 (decimal 4 1) n0 0x0201
          wave := (issue (.cfgWave .modulator (v nNeg1 n1 n0 0x0202) (v nNeg1 n1 nNeg1 0x0203)) s).cfg.mod.wave
          sync := fle nHalf (v n0 n1 n0 0x0204), fb := v n0 n1 n0 0x0205 } }
      ret := [] }

/-- CFG.ENV writes one envelope's three rates and its sustain level from its group of registers and `CFG.fs`, and
nothing else (R190, R141, R142, R357). -/
def Obligations.CfgEnvResult : Prop :=
  ∀ (Z : Config.Params) (s : State Z),
    let rate := fun (a : Nat) (d : Sys2Proof.Num) =>
      let v := floorInt (fadd (sanitize (paramRead s a) n0 (decimal 80 1) d) nHalf)
      let time := fmul (decimal 1 1000) (exp2 (fdiv (fmul (ofInt v) log2Ten) (decimal 20 1)))
      fmin n1 (fdiv n1 (fmul time s.cfg.fs))
    let env := fun (g : Nat) =>
      ({ attackDelta := rate g n0, decayRate := rate (g + 1) (decimal 40 1), releaseRate := rate (g + 3) (decimal 20 1),
         sustain := sanitize (paramRead s (g + 2)) n0 n1 n1 } : EnvCfg)
    Z.exec (.cfgEnv .amp) s = .next { s with cfg := { s.cfg with amp := env 0x0300 }, ret := [] } ∧
    Z.exec (.cfgEnv .fm) s = .next { s with cfg := { s.cfg with fmEnv := env 0x0400 }, ret := [] } ∧
    Z.exec (.cfgEnv .modEnv) s = .next { s with cfg := { s.cfg with modEnv := env 0x0500 }, ret := [] }

/-- CFG.LP1 writes the one coefficient it is asked for and returns it, CFG.SVF the four static filter fields, and
nothing else (R210, R146, R213). -/
def Obligations.CfgFilterResults : Prop :=
  ∀ (Z : Config.Params) (cut : Sys2Proof.Num) (s : State Z),
    (let f := fmin (fdiv s.cfg.fs n2) (pitchToFreq cut)
     let rc := fdiv n1 (fmul (fmul n2 piNum) f)
     let dt := fdiv n1 s.cfg.fs
     let a := fmin n1 (fdiv dt (fadd rc dt))
     let alpha := if isNaN a then n0 else clamp a n0 n1
     Z.exec (.cfgLp1 .lowPass cut) s = .next { s with cfg := { s.cfg with dLpAlpha := alpha }, ret := [alpha] } ∧
       Z.exec (.cfgLp1 .highPass cut) s = .next { s with cfg := { s.cfg with dHpAlpha := alpha }, ret := [alpha] }) ∧
    (let mix := sanitize (paramRead s 0x0602) n0 n1 n0
     Z.exec .cfgSvf s = .next { s with
       cfg := { s.cfg with
         cutoff := sanitize (paramRead s 0x0600) n0 (decimal 160 1) (decimal 128 1)
         res := sanitize (paramRead s 0x0601) n0 n1 n0
         mix := mix
         filterOn := flt n0 mix || s.cfg.dActive.mix }
       ret := [] })

/-- CFG.MODDEST writes the forty depths, each sanitized in its destination's range, the eight active flags, and the LFO's
speed, level and waveshaper, and nothing else (R238, R358). -/
def Obligations.CfgModdestResult : Prop :=
  ∀ (Z : Config.Params) (s : State Z),
    let dep := fun (d : Nat) (lim : Sys2Proof.Num) =>
      let v := fun (k : Nat) => sanitize (paramRead s ((0x10 + d) * 256 + k)) (fneg lim) lim n0
      (⟨v 0, v 1, v 2, v 3, v 4⟩ : PerSource)
    let act := fun (p : PerSource) =>
      !(feq p.lfo n0 && feq p.env n0 && feq p.wheel n0 && feq p.vel n0 && feq p.press n0)
    let semi := decimal 128 1
    Z.exec .cfgModdest s = .next { s with
      cfg := { s.cfg with
        depth := ⟨dep 0 n1, dep 1 n1, dep 2 n1, dep 3 semi, dep 4 n1, dep 5 n1, dep 6 n1, dep 7 n1⟩
        dActive := ⟨act (dep 0 n1), act (dep 1 n1), act (dep 2 n1), act (dep 3 semi), act (dep 4 n1), act (dep 5 n1),
          act (dep 6 n1), act (dep 7 n1)⟩
        lfoSpeed := sanitize (paramRead s 0x0800) n0 (decimal 100 1) n2
        lfoLevel := sanitize (paramRead s 0x0803) n0 n1 n1
        lfoWave := (issue (.cfgWave .lfo (sanitize (paramRead s 0x0801) nNeg1 n1 n0)
          (sanitize (paramRead s 0x0802) nNeg1 n1 nNeg1)) s).cfg.lfoWave }
      ret := [] }

/-- CFG.STACK, CFG.DELAY and CFG.GLOBAL write the fields R300, R330 and R355 give, by the formulas given there, and
nothing else. -/
def Obligations.CfgStackDelayGlobalResults : Prop :=
  ∀ (Z : Config.Params) (fs : Sys2Proof.Num) (s : State Z),
    let v := fun (lo hi d : Sys2Proof.Num) (a : Nat) => sanitize (paramRead s a) lo hi d
    (let n := floorInt (fadd (v n1 (ofInt Z.NS) n1 0x0901) nHalf)
     Z.exec .cfgStack s = .next { s with
       cfg := { s.cfg with
         stkMode := if fle nHalf (v n0 n1 n0 0x0900) then .harmonic else .unison
         stackSize := if n < 1 then 1 else if Z.NS < n then Z.NS else n.toNat
         detune := fdiv (v n0 (decimal 100 1) (decimal 10 1) 0x0902) (decimal 100 1) }
       ret := [] }) ∧
    (let len := floorInt (fadd (fmul (v n0 nHalf (decimal 1 4) 0x0700) s.cfg.fs) nHalf)
     Z.exec .cfgDelay s = .next { s with
       cfg := { s.cfg with
         dLen := if len < 1 then 1 else if s.dcap < len then s.dcap else len.toNat
         dFb := v n0 n1 (decimal 3 10) 0x0701
         dCross := fle nHalf (v n0 n1 n0 0x0702)
         dLpAlpha := onePoleAlpha (v n0 (decimal 160 1) (decimal 160 1) 0x0704) s.cfg.fs
         dHpAlpha := onePoleAlpha (v n0 (decimal 160 1) n0 0x0703) s.cfg.fs
         dMix := v n0 n1 n0 0x0705 }
       ret := [] }) ∧
    (let rate := if isNaN fs then n1 else clamp fs n1 (decimal 768000 1)
     Z.exec (.cfgGlobal fs) s = .next { s with
       cfg := { s.cfg with
         fs := rate, invFs := fdiv n1 rate, master := v n0 n1 nHalf 0x0000
         bend := exp2 (fdiv (v (fneg (decimal 48 1)) (decimal 48 1) n0 0x0001) (decimal 12 1))
         wheel := v n0 n1 n0 0x0002, after := v n0 n1 n0 0x0003, mono := fle nHalf (v n0 n1 n0 0x0004)
         pan := v nNeg1 n1 n0 0x0105 }
       ret := [] })

/-- CFG.TUNE writes the 128 entries of one channel's table by R253, over one period's pitches that are those of R251 in
non-decreasing order (R252), and nothing else (R250 to R254). The three intervals and the three integers are R250's and
R254's of the channel's own fifteen registers. Every entry lies in `[0, 128]` (R53, R257 e). Two clauses rest on the
model's choices: an entry whose sum is no number, an infinite multiple of the period against an infinite pitch of the
other sign, is a free value within that range (assumption 17), and with one key in the period the pitch is R251's, with
OFFSET in it, where R257 (c) has none (assumption 22). -/
def Obligations.CfgTuneResult : Prop :=
  ∀ (Z : Config.Params) (ch : Fin Z.NCH) (s : State Z),
    let g := 0x2000 + 256 * ch.val
    let big := decimal 1000000000 1
    let v := fun (d : Sys2Proof.Num) (k : Nat) => sanitize (paramRead s (g + k)) (fneg big) big d
    let interval := fun (n d pn pd : Sys2Proof.Num) =>
      if flt n0 n && flt n0 d && !feq pd n0 then
        let x := fdiv (fmul (fmul (log2Num (fdiv n d)) (decimal 12 1)) pn) pd
        if isFinite x then x else n0
      else n0
    let gen := interval (v n2 0) (v n1 1) (v n1 2) (v (decimal 12 1) 3)
    let per := interval (v n2 4) (v n1 5) (v n1 6) (v n1 7)
    let ratio := interval (v n1 8) (v n1 9) (v n1 10) (v n1 11)
    let int := fun (lo hi d : Sys2Proof.Num) (k : Nat) => floorInt (fadd (sanitize (paramRead s (g + k)) lo hi d) nHalf)
    let kp := int n1 (decimal 128 1) (decimal 12 1) 12
    let off := int (negDecimal 128 1) (decimal 128 1) n0 13
    let root := int n0 (decimal 127 1) (decimal 69 1) 14
    let target := fun (i : Int) =>
      let t := fmul gen (ofInt (i - off))
      let t' := fsub t (fmul per (ffloor (fdiv t per)))
      fadd (if flt n0 per && fle n0 t' && flt t' per then t' else n0) (fadd (ofInt root) ratio)
    ∃ (t : State Z) (sorted : List Sys2Proof.Num),
      Z.exec (.cfgTune ch) s = .next t ∧ { t with table := s.table, ret := s.ret } = s ∧ t.ret = [] ∧
      sorted.Perm ((List.range kp.toNat).map fun (i : Nat) => target (i : Int)) ∧
      (sorted.Pairwise fun x y => fle x y = true) ∧
      (∀ key : Fin Config.KEYS,
        let sum := fadd (fmul per (ofInt (Int.fdiv ((key.val : Int) - root) kp)))
          (sorted.getD (Int.fmod ((key.val : Int) - root) kp).toNat n0)
        (isNaN sum = false → (t.table[ch])[key] = clamp sum n0 (decimal 128 1)) ∧
          within (t.table[ch])[key] n0 (decimal 128 1) = true) ∧
      ∀ c : Fin Z.NCH, c ≠ ch → t.table[c] = s.table[c]

/-- A channel whose fifteen registers hold their defaults is standard twelve-tone-equal: entry `i` of its table is
exactly `i` (R256). -/
def Obligations.DefaultTuningIsIdentity : Prop :=
  ∀ (Z : Config.Params) (ch : Fin Z.NCH) (s : State Z),
    (∀ k, k < 15 → paramRead s (0x2000 + 256 * ch.val + k) = paramDefault Z (0x2000 + 256 * ch.val + k)) →
    ∃ t, Z.exec (.cfgTune ch) s = .next t ∧ ∀ i : Fin Config.KEYS, (t.table[ch])[i] = ofInt (i.val : Int)

/-! ## The scheduler -/

/-- RESERVE on a ready core with good operands: with an offset of 0 or below the event is applied at once, as
APPLY.NOTEON for a velocity of 0 or more and as APPLY.NOTEOFF below (R270, R278); with a positive one `Store` puts it in
the note ring, at the slot that R272 picks from the ring's offsets, and nothing else changes. -/
def Obligations.ReserveAppliesOrStores : Prop :=
  ∀ (Z : Config.Params) (ch : BitVec 8) (pitch vel : Sys2Proof.Num) (id off : Word) (s : State Z)
    (hc : ch.toNat < Z.NCH), s.status.active = true → s.status.cfgValid = true → isFinite pitch = true → isFinite vel = true →
    let ev : MidiNote Z := ⟨⟨ch.toNat, hc⟩, pitch, vel, id⟩
    (off.toInt ≤ 0 →
      Z.exec (.reserve ch pitch vel id off) s = .next { issue (applyInstr ev) s with ret := s.ret }) ∧
    (0 < off.toInt →
      Z.exec (.reserve ch pitch vel id off) s = .next { s with nres := storeNote s.nres ⟨ev, off.toInt⟩ } ∧
      ∃ j : Fin Z.RN, j.val = storeSlot (s.nres.toList.map NoteRes.offset) ∧
        storeNote s.nres ⟨ev, off.toInt⟩ = s.nres.set j ⟨ev, off.toInt⟩ ∧
        ((∃ k : Fin Z.RN, (s.nres[k]).offset < 0) →
          (s.nres[j]).offset < 0 ∧ ∀ k, k < j → 0 ≤ (s.nres[k]).offset) ∧
        ((∀ k : Fin Z.RN, 0 ≤ (s.nres[k]).offset) →
          (∀ k : Fin Z.RN, (s.nres[k]).offset ≤ (s.nres[j]).offset) ∧
            ∀ k, k < j → (s.nres[k]).offset < (s.nres[j]).offset))

/-- RESERVEP, the same with pressure: applied at once by APPLY.PRESSURE, or put by `Store` in the pressure ring with
velocity 0, at the slot that R272 picks from the ring's offsets; nothing else changes (R271, R272). -/
def Obligations.ReservepAppliesOrStores : Prop :=
  ∀ (Z : Config.Params) (ch : BitVec 8) (pitch p : Sys2Proof.Num) (id off : Word) (s : State Z)
    (hc : ch.toNat < Z.NCH), s.status.active = true → s.status.cfgValid = true → isFinite pitch = true → isFinite p = true →
    let ev : MidiNote Z := ⟨⟨ch.toNat, hc⟩, pitch, n0, id⟩
    (off.toInt ≤ 0 →
      Z.exec (.reservep ch pitch p id off) s = .next { issue (.applyPressure ev p) s with ret := s.ret }) ∧
    (0 < off.toInt →
      Z.exec (.reservep ch pitch p id off) s = .next { s with pres := storePress s.pres ⟨ev, p, off.toInt⟩ } ∧
      ∃ j : Fin Z.RP, j.val = storeSlot (s.pres.toList.map PressRes.offset) ∧
        storePress s.pres ⟨ev, p, off.toInt⟩ = s.pres.set j ⟨ev, p, off.toInt⟩ ∧
        ((∃ k : Fin Z.RP, (s.pres[k]).offset < 0) →
          (s.pres[j]).offset < 0 ∧ ∀ k, k < j → 0 ≤ (s.pres[k]).offset) ∧
        ((∀ k : Fin Z.RP, 0 ≤ (s.pres[k]).offset) →
          (∀ k : Fin Z.RP, (s.pres[k]).offset ≤ (s.pres[j]).offset) ∧
            ∀ k, k < j → (s.pres[k]).offset < (s.pres[j]).offset))

/-- Which slot of a ring a new entry takes: the first free one; in a full ring the one with the largest offset, the
lowest index among equals (R272). -/
def Obligations.StoreTakesTheSlot : Prop :=
  ∀ Z : Config.Params,
  (∀ (ring : Vector (NoteRes Z) Z.RN) (e : NoteRes Z), ∃ j : Fin Z.RN, storeNote ring e = ring.set j e ∧
    ((∃ k : Fin Z.RN, (ring[k]).offset < 0) → (ring[j]).offset < 0 ∧ ∀ k, k < j → 0 ≤ (ring[k]).offset) ∧
    ((∀ k : Fin Z.RN, 0 ≤ (ring[k]).offset) → (∀ k : Fin Z.RN, (ring[k]).offset ≤ (ring[j]).offset) ∧
      ∀ k, k < j → (ring[k]).offset < (ring[j]).offset)) ∧
  ∀ (ring : Vector (PressRes Z) Z.RP) (e : PressRes Z), ∃ j : Fin Z.RP, storePress ring e = ring.set j e ∧
    ((∃ k : Fin Z.RP, (ring[k]).offset < 0) → (ring[j]).offset < 0 ∧ ∀ k, k < j → 0 ≤ (ring[k]).offset) ∧
    ((∀ k : Fin Z.RP, 0 ≤ (ring[k]).offset) → (∀ k : Fin Z.RP, (ring[k]).offset ≤ (ring[j]).offset) ∧
      ∀ k, k < j → (ring[k]).offset < (ring[j]).offset)

/-- TICK is its three steps: every live voice one tick older, saturating; then the note ring in slot order, an entry
that reaches -1 applied; then the pressure ring in slot order (R274, R278, R280). -/
def Obligations.TickIsItsSteps : Prop := ∀ (Z : Config.Params) (s : State Z), Z.exec .tick s = .next (issueTick s)

/-- A reservation counts down one per TICK and nothing else touches it: after `n` TICKs an entry of offset `k` stands at
`k - n` while `n <= k`, and is free from the `(k+1)`th on (R274; the spec derives this property from it). -/
def Obligations.ReservationCountsDown : Prop :=
  ∀ (Z : Config.Params) (s : State Z) (n k : Nat),
    let t := issueAll (List.replicate n .tick) s
    (∀ j : Fin Z.RN, (s.nres[j]).offset = (k : Int) →
      (t.nres[j]).note = (s.nres[j]).note ∧ (t.nres[j]).offset = if n ≤ k then (k : Int) - (n : Int) else -1) ∧
    ∀ j : Fin Z.RP, (s.pres[j]).offset = (k : Int) →
      (t.pres[j]).note = (s.pres[j]).note ∧ (t.pres[j]).pressure = (s.pres[j]).pressure ∧
        (t.pres[j]).offset = if n ≤ k then (k : Int) - (n : Int) else -1

/-- APPLY.NOTEON takes one voice: an Inactive one if there is one, of those the oldest, else the oldest of all, the
lowest index among equals; it is started or restarted (R301, R302), becomes Active with the event's note, age 0,
pressure 0 and the stack size and copy frequencies latched; no other voice and nothing else changes (R275, R303, R258). -/
def Obligations.NoteOnTakesAVoice : Prop :=
  ∀ (Z : Config.Params) (ev : MidiNote Z) (s : State Z), ∃ (p : Fin Z.NV) (t : State Z),
    Z.exec (.applyNoteon ev) s = .next t ∧ t.ret = [] ∧ { t with voices := s.voices, ret := s.ret } = s ∧ (∀ i, i ≠ p → t.voices[i] = s.voices[i]) ∧
    ((∃ i : Fin Z.NV, (s.voices[i]).state = .inactive) →
      (s.voices[p]).state = .inactive ∧
      (∀ i : Fin Z.NV, (s.voices[i]).state = .inactive → (s.voices[i]).length ≤ (s.voices[p]).length) ∧
      ∀ i, i < p → (s.voices[i]).state = .inactive → (s.voices[i]).length < (s.voices[p]).length) ∧
    ((∀ i : Fin Z.NV, (s.voices[i]).state ≠ .inactive) →
      (∀ i : Fin Z.NV, (s.voices[i]).length ≤ (s.voices[p]).length) ∧
      ∀ i, i < p → (s.voices[i]).length < (s.voices[p]).length) ∧
    let u := (issue (if (s.voices[p]).state = .inactive then .voiceStart p else .voiceRestart p) s).voices[p]
    let key := clamp (ffloor (fadd ev.pitch nHalf)) n0 (decimal 127 1)
    let tuned := fadd (tableRead s.table ev.ch (keyIndex key)) (fsub ev.pitch key)
    t.voices[p] = { u with
      note := ev, length := 0, state := .active, pressure := n0, stackSize := s.cfg.stackSize
      base := Vector.ofFn fun k =>
        match s.cfg.stkMode with
        | .unison =>
          fmul (pitchToFreq (fadd tuned
            (fmul (fsub (ofInt k.val) (fdiv (ofInt ((s.cfg.stackSize : Int) - 1)) n2)) s.cfg.detune))) n1
        | .harmonic =>
          fmul (pitchToFreq (fadd tuned n0)) (if k.val + 1 = Z.NS then decimal 8 1 else ofInt ((k.val : Int) + 1)) }

/-- APPLY.NOTEOFF releases every Active voice whose note is the same as the event's and no other; APPLY.PRESSURE gives
every live voice whose note is the same the pressure clamped to `[0, 1]` and no other; "the same" is the relation of
R273, which compares pitches by `Num` equality. Nothing else changes (R276, R277, R273). That +0 and -0 are one pitch,
although R436 (b) says "bit-for-bit", is read from R273 (assumption 21). -/
def Obligations.NoteOffAndPressureMatch : Prop :=
  ∀ (Z : Config.Params) (ev : MidiNote Z) (x : Sys2Proof.Num) (s : State Z),
    let same := fun (v : Voice Z) =>
      v.note.ch = ev.ch ∧
        if v.note.id ≠ 0xFFFFFFFF ∧ ev.id ≠ 0xFFFFFFFF then v.note.id = ev.id
        else feq v.note.pitch ev.pitch = true
    (∃ t, Z.exec (.applyNoteoff ev) s = .next t ∧ t.ret = [] ∧ { t with voices := s.voices, ret := s.ret } = s ∧
      ∀ i : Fin Z.NV,
        ((s.voices[i]).state = .active ∧ same s.voices[i] → t.voices[i] = { s.voices[i] with state := .release }) ∧
        (¬ ((s.voices[i]).state = .active ∧ same s.voices[i]) → t.voices[i] = s.voices[i])) ∧
    ∃ t, Z.exec (.applyPressure ev x) s = .next t ∧ t.ret = [] ∧ { t with voices := s.voices, ret := s.ret } = s ∧
      ∀ i : Fin Z.NV,
        ((s.voices[i]).state ≠ .inactive ∧ same s.voices[i] →
          t.voices[i] = { s.voices[i] with pressure := clamp x n0 n1 }) ∧
        (¬ ((s.voices[i]).state ≠ .inactive ∧ same s.voices[i]) → t.voices[i] = s.voices[i])

/-- VOICE.START zeroes all DSP state of all `NS` copies and keeps the rest of the voice; VOICE.RESTART clears the three
`decaying` flags and nothing else; neither touches another voice or anything else (R301, R302). -/
def Obligations.VoiceStartAndRestart : Prop :=
  ∀ (Z : Config.Params) (v : Fin Z.NV) (s : State Z),
    (∃ t, Z.exec (.voiceStart v) s = .next t ∧ t.ret = [] ∧ { t with voices := s.voices, ret := s.ret } = s ∧
      (∀ i, i ≠ v → t.voices[i] = s.voices[i]) ∧
      (∀ k : Fin Z.NS, (t.voices[v]).sync[k] = n0 ∧ (t.voices[v]).car[k] = ⟨n0, n0⟩ ∧
        (t.voices[v]).mod[k] = ⟨n0, n0⟩) ∧
      (t.voices[v]).amp = ⟨n0, false⟩ ∧ (t.voices[v]).fm = ⟨n0, false⟩ ∧ (t.voices[v]).modEnv = ⟨n0, false⟩ ∧
      (t.voices[v]).lfoPhase = n0 ∧ (t.voices[v]).lfoOut = n0 ∧ (t.voices[v]).flt = ⟨⟨n0, n0⟩, ⟨n0, n0⟩⟩ ∧
      (t.voices[v]).state = (s.voices[v]).state ∧ (t.voices[v]).note = (s.voices[v]).note ∧
      (t.voices[v]).length = (s.voices[v]).length ∧ (t.voices[v]).pressure = (s.voices[v]).pressure ∧
      (t.voices[v]).stackSize = (s.voices[v]).stackSize ∧ (t.voices[v]).base = (s.voices[v]).base) ∧
    Z.exec (.voiceRestart v) s = .next { s with
      voices := s.voices.set v { s.voices[v] with
        amp := ⟨(s.voices[v]).amp.level, false⟩, fm := ⟨(s.voices[v]).fm.level, false⟩
        modEnv := ⟨(s.voices[v]).modEnv.level, false⟩ }
      ret := [] }

/-! ## Oscillators, envelopes, filters, modulation -/

/-- SYNC.STEP advances the copy's driver by `WrapState` and returns the pulse: -1, or on the sample where the phase
passes 1 the time since the wrap, never negative (R164). The phase it stores is in `[0, 1)` (R160). -/
def Obligations.SyncStepResult : Prop :=
  ∀ (Z : Config.Params) (v : Fin Z.NV) (k : Fin Z.NS) (dS : Sys2Proof.Num) (s : State Z),
    let x := fadd (s.voices[v]).sync[k] dS
    let p := fdiv (fsub x (ffloor x)) dS
    let pulse := if fle n1 x && flt n0 dS then (if !isFinite p || flt p n0 then n0 else p) else nNeg1
    Z.exec (.syncStep v k dS) s = .next { s with
      voices := s.voices.set v { s.voices[v] with sync := (s.voices[v]).sync.set k (wrapState x) }, ret := [pulse] } ∧
    inUnit (wrapState x) = true ∧ (pulse = nNeg1 ∨ fle n0 pulse = true)

/-- CAR.STEP and MOD.STEP: the operator step with CFG.car and the given FM input, and with CFG.mod and FM input 0: hard
sync, phase displaced by FM and feedback, waveshape, guard, level, previous output, advance (R165, R166, R167, R162). The
waveshaper's sine is the default polynomial or the function the parameters hold (R144; assumption 5). -/
def Obligations.OperatorStepResults : Prop :=
  ∀ (Z : Config.Params) (v : Fin Z.NV) (k : Fin Z.NS) (delta pulse fmIn : Sys2Proof.Num) (s : State Z),
    let sine := fun (c : Sys2Proof.Num) => match Z.sineShape with
      | .polynomial => fmul c (fsub (decimal 3 2) (fmul (fmul nHalf c) c))
      | .other f => f c
    let shape := fun (w : WaveCfg) (p : Sys2Proof.Num) =>
      let t := if flt p w.b1 then fmul p w.up else if flt p w.b2 then fsub n1 (fmul (fsub p w.b1) w.down)
        else fsub (fmul (fsub p w.b2) w.up) n1
      let c := clamp (fmul t w.sq) nNeg1 n1
      fadd (fmul w.sinF (sine c)) (fmul w.triF c)
    let op := fun (c : OpCfg) (o : OpState) (fm : Sys2Proof.Num) =>
      let phase := if c.sync && fle n0 pulse then wrapState (fmul pulse delta) else o.phase
      let q := fadd (fadd phase fm) (fmul c.fb o.prevOut)
      let w := shape c.wave (fsub q (ffloor q))
      let out := fmul (if isFinite w then w else if flt w n0 then nNegHalf else nHalf) c.level
      ((⟨wrapState (fadd phase delta), out⟩ : OpState), out)
    (let r := op s.cfg.car (s.voices[v]).car[k] fmIn
     Z.exec (.carStep v k delta pulse fmIn) s = .next { s with
       voices := s.voices.set v { s.voices[v] with car := (s.voices[v]).car.set k r.1 }, ret := [r.2] }) ∧
    (let r := op s.cfg.mod (s.voices[v]).mod[k] n0
     Z.exec (.modStep v k delta pulse) s = .next { s with
       voices := s.voices.set v { s.voices[v] with mod := (s.voices[v]).mod.set k r.1 }, ret := [r.2] })

/-- LFO.STEP: the guarded wave of the phase before the advance, times the level and its multiplier, is stored and
returned; the phase advances by speed times multiplier times `1/fs`, into `[0, 1)` (R168, R160). -/
def Obligations.LfoStepResult : Prop :=
  ∀ (Z : Config.Params) (v : Fin Z.NV) (sp lv : Sys2Proof.Num) (s : State Z),
    let w := wave Z s.cfg.lfoWave (s.voices[v]).lfoPhase
    let lfo := fmul (fmul (if isFinite w then w else if flt w n0 then nNegHalf else nHalf) s.cfg.lfoLevel) lv
    let phase := wrapState (fadd (s.voices[v]).lfoPhase (fmul (fmul s.cfg.lfoSpeed sp) s.cfg.invFs))
    Z.exec (.lfoStep v sp lv) s = .next { s with
      voices := s.voices.set v { s.voices[v] with lfoPhase := phase, lfoOut := lfo }, ret := [lfo] } ∧
    inUnit phase = true

/-- ENV.STEP of any of the three envelopes: attack, decay and sustain, or release, by the gate and the flag; the new
level is returned and nothing else changes (R192 to R195). The attack is that of the law the parameters hold: the
exponential one, which the spec takes as the behaviour, or the straight line (R193, R198; assumption 2). -/
def Obligations.EnvStepResult : Prop :=
  ∀ (Z : Config.Params) (e : EnvSel) (v : Fin Z.NV) (gate : Bool) (s : State Z),
    let c := match e with
      | .amp => s.cfg.amp
      | .fm => s.cfg.fmEnv
      | .modEnv => s.cfg.modEnv
    let o := match e with
      | .amp => (s.voices[v]).amp
      | .fm => (s.voices[v]).fm
      | .modEnv => (s.voices[v]).modEnv
    let thr := decimal 1 1000
    let up := match Z.attackLaw with
      | .expReverse => fadd o.level (fmul (fsub (fadd n1 thr) o.level) c.attackDelta)
      | .linear => fadd o.level c.attackDelta
    let down := fadd o.level (fmul (fsub (fsub c.sustain thr) o.level) c.decayRate)
    let off := fadd o.level (fmul (fsub (fneg thr) o.level) c.releaseRate)
    let r : EnvState :=
      if gate = true ∧ o.decaying = false then (if fle n1 up || isNaN up then ⟨n1, true⟩ else ⟨up, false⟩)
      else if gate = true then
        (if flt c.sustain o.level then ⟨if flt c.sustain down then down else c.sustain, true⟩ else ⟨c.sustain, true⟩)
      else ⟨if flt n0 off then off else n0, false⟩
    Z.exec (.envStep e v gate) s = .next { s with
      voices := s.voices.set v (match e with
        | .amp => { s.voices[v] with amp := r }
        | .fm => { s.voices[v] with fm := r }
        | .modEnv => { s.voices[v] with modEnv := r })
      ret := [r.level] }

/-- The envelope property that 42_envelope.md derives from R193 to R195 (R197), for rates and sustain in `[0, 1]` and a
level in `[0, 1]`, under either attack law (R198): the new level is in `[0, 1]`; it does not fall during the attack and
does not rise during the release or the decay; the attack ends at exactly 1 and sets the flag. -/
def Obligations.EnvelopeLevels : Prop :=
  ∀ (law : Config.AttackLaw) (c : EnvCfg) (o : EnvState) (gate : Bool), inClosedUnit c.attackDelta = true →
    inClosedUnit c.decayRate = true → inClosedUnit c.releaseRate = true → inClosedUnit c.sustain = true → inClosedUnit o.level = true →
    let r := envStepUnder law c o gate
    inClosedUnit r.level = true ∧
      (gate = true → o.decaying = false → fle o.level r.level = true ∧ (r.decaying = true → r.level = n1)) ∧
      (gate = true → o.decaying = true → fle c.sustain o.level = true →
        fle r.level o.level = true ∧ fle c.sustain r.level = true) ∧
      (gate = false → fle r.level o.level = true ∧ r.decaying = false)

/-- LP1.STEP and HP1.STEP move the channel's smoothed state by `alpha` of the distance to the input and return it, or
the input less it; SVF.STEP runs the state-variable equations in their order; SVF.RETUNE writes no state and returns
alpha, damping and mix. Nothing else changes (R211, R212, R214, R215). -/
def Obligations.FilterStepResults : Prop :=
  ∀ (Z : Config.Params) (v : Fin Z.NV) (c : Chan) (alpha damping x co rs mx : Sys2Proof.Num) (s : State Z),
    let lp := fadd (chanGet s.dly c).lp (fmul alpha (fsub x (chanGet s.dly c).lp))
    let hp := fadd (chanGet s.dly c).hp (fmul alpha (fsub x (chanGet s.dly c).hp))
    let f := chanGet (s.voices[v]).flt c
    let low := fadd f.low (fmul alpha f.band)
    let band := fadd f.band (fmul alpha (fsub (fsub x low) (fmul damping f.band)))
    Z.exec (.lp1Step c alpha x) s =
      .next { s with dly := chanSet s.dly c { chanGet s.dly c with lp := lp }, ret := [lp] } ∧
    Z.exec (.hp1Step c alpha x) s =
      .next { s with dly := chanSet s.dly c { chanGet s.dly c with hp := hp }, ret := [fsub x hp] } ∧
    Z.exec (.svfStep v c alpha damping x) s = .next { s with
      voices := s.voices.set v { s.voices[v] with flt := chanSet (s.voices[v]).flt c ⟨low, band⟩ }, ret := [low] } ∧
    Z.exec (.svfRetune co rs mx) s = .next { s with
      ret := [onePoleAlpha (clamp (fadd s.cfg.cutoff co) n0 (decimal 160 1)) s.cfg.fs,
        fsub n1 (clamp (fadd s.cfg.res rs) n0 (decimal 99 100)), clamp (fadd s.cfg.mix mx) n0 n1] }

/-- The three combination laws over the five sources in their order; none writes state (R233, R234, R235). The base and
the offset of every source are those the parameters hold; in the reference instance they are the 1 and 0 of R231
(assumption 5). -/
def Obligations.ModulationLaws : Prop :=
  ∀ (Z : Config.Params) (d : Dest) (p : PerSource) (s : State Z),
    let q := destGet s.cfg.depth d
    let add := fun (acc x dep : Sys2Proof.Num) => fadd acc (fmul x dep)
    let mul := fun (acc base off x dep : Sys2Proof.Num) =>
      fmul acc (fadd (fmin n1 (fsub n1 (fmul dep base))) (fmul (fadd x off) dep))
    let b := Z.modBase
    let o := Z.modOffset
    let m1 := mul n1 b.lfo o.lfo p.lfo q.lfo
    let m2 := mul m1 b.env o.env p.env q.env
    let m3 := mul m2 b.wheel o.wheel p.wheel q.wheel
    let m4 := mul m3 b.vel o.vel p.vel q.vel
    let pit := fun (acc x dep : Sys2Proof.Num) => fmul acc (fadd n1 (fmul x dep))
    let five := fun (f : Sys2Proof.Num → Sys2Proof.Num → Sys2Proof.Num → Sys2Proof.Num) (z : Sys2Proof.Num) =>
      f (f (f (f (f z p.lfo q.lfo) p.env q.env) p.wheel q.wheel) p.vel q.vel) p.press q.press
    Z.exec (.modAdd d p) s = .next { s with ret := [five add n0] } ∧
    Z.exec (.modMulbias d p) s = .next { s with ret := [mul m4 b.press o.press p.press q.press] } ∧
    Z.exec (.modPitch d p) s = .next { s with ret := [five pit n1] } ∧
    Config.params.modBase = ⟨n1, n1, n1, n1, n1⟩ ∧ Config.params.modOffset = ⟨n0, n0, n0, n0, n0⟩

/-! ## Voices -/

/-- STACK.RENDER is, for each of the voice's first `S` copies in ascending order, SYNC.STEP, MOD.STEP and CAR.STEP with
the increments of R309, the outputs panned by the equal-power law of R143 and summed; it returns the two sums and touches
no other state. -/
def Obligations.StackRenderIsItsCopies : Prop :=
  ∀ (Z : Config.Params) (v : Fin Z.NV) (pm pn f : Sys2Proof.Num) (s : State Z),
    let theta := fmul (fadd (clamp (fadd s.cfg.pan pn) nNeg1 n1) n1) (fdiv piNum (decimal 4 1))
    let r := ((List.finRange Z.NS).take (s.voices[v]).stackSize).foldl
      (issueCopy v pm f (fmul sqrt2 (cosNum theta)) (fmul sqrt2 (sinNum theta))) (s, n0, n0)
    Z.exec (.stackRender v pm pn f) s = .next { r.1 with ret := [r.2.1, r.2.2] } ∧
      { r.1 with voices := s.voices, ret := s.ret } = s ∧ ∀ i, i ≠ v → (r.1.voices[i]) = s.voices[i]

/-- VOICE.RENDER is its stages in their order, each the unit operation the rules name: the modulation engine, the two
envelopes, the stack, normalise and gain, the filter stage, the lifecycle check (R304, R236, R310, R311, R312). -/
def Obligations.VoiceRenderIsItsStages : Prop :=
  ∀ (Z : Config.Params) (v : Fin Z.NV) (s : State Z),
    let r := issueVoice v s
    Z.exec (.voiceRender v) s = .next { r.1 with ret := [r.2.1, r.2.2] } ∧
      { r.1 with voices := s.voices, ret := s.ret } = s ∧ ∀ i, i ≠ v → (r.1.voices[i]) = s.voices[i]

/-- The lifecycle of R279 over a rendered voice: VOICE.RENDER leaves an Active voice Active and an Inactive one Inactive,
makes a Release voice Inactive exactly when its amplitude level is 0 after the sample, and keeps its note, age,
pressure, stack size and copy frequencies. -/
def Obligations.VoiceLifecycle : Prop :=
  ∀ (Z : Config.Params) (v : Fin Z.NV) (s : State Z), ∃ t, Z.exec (.voiceRender v) s = .next t ∧
    ((s.voices[v]).state = .active → (t.voices[v]).state = .active) ∧
    ((s.voices[v]).state = .inactive → (t.voices[v]).state = .inactive) ∧
    ((s.voices[v]).state = .release →
      (t.voices[v]).state = if feq (t.voices[v]).amp.level n0 then .inactive else .release) ∧
    (t.voices[v]).note = (s.voices[v]).note ∧ (t.voices[v]).length = (s.voices[v]).length ∧
    (t.voices[v]).pressure = (s.voices[v]).pressure ∧ (t.voices[v]).stackSize = (s.voices[v]).stackSize ∧
    (t.voices[v]).base = (s.voices[v]).base

/-! ## Delay, mixer, output -/

/-- DELAY.STEP, in every state: per channel the element at the cursor is read, the input plus the feedback of the
previous sample (the other channel's when crossing) is written there and nowhere else, the cursor advances modulo the
length, the element read passes the low-pass and then the high-pass, and the gated feedback is stored; the pair of
filtered elements is returned and nothing else changes (R331 to R335). Where the RAM has no element at a cursor nothing is
written and what is read is open, and modulo a length of 0 the next cursor is open; the counter `free` moves only then
(assumption 13). -/
def Obligations.DelayStepEffect : Prop :=
  ∀ (Z : Config.Params) (xl xr : Sys2Proof.Num) (s : State Z), memoryForm s →
    ∃ t, Z.exec (.delayStep xl xr) s = .next t ∧ { t with dly := s.dly, ret := s.ret, free := s.free } = s ∧
      (s.dly.left.w < s.dcap → s.dly.right.w < s.dcap → 0 < s.cfg.dLen → t.free = s.free) ∧
      let chan := fun (d d' : DelayChan) (inp y : Sys2Proof.Num) => ∃ x : Sys2Proof.Num,
        let lp := fadd d.lp (fmul s.cfg.dLpAlpha (fsub x d.lp))
        let hp := fadd d.hp (fmul s.cfg.dHpAlpha (fsub lp d.hp))
        let fb := fmul y s.cfg.dFb
        (d.w < s.dcap → x = ramRead d.ram d.w) ∧
          (∀ a, ramRead d'.ram a = if a = d.w ∧ d.w < s.dcap then inp else ramRead d.ram a) ∧
          (0 < s.cfg.dLen → d'.w = (d.w + 1) % s.cfg.dLen) ∧
          d'.lp = lp ∧ d'.hp = hp ∧ y = fsub lp hp ∧
          d'.fb = if isFinite fb = false ∨ flt (fabs fb) (decimal 1 1000000) = true then n0 else fb
      ∃ yl yr, t.ret = [yl, yr] ∧
        chan s.dly.left t.dly.left (fadd xl (if s.cfg.dCross then s.dly.right.fb else s.dly.left.fb)) yl ∧
        chan s.dly.right t.dly.right (fadd xr (if s.cfg.dCross then s.dly.left.fb else s.dly.right.fb)) yr

/-- The delay is exactly `dLen` samples: run DELAY.STEP on `dLen` inputs from any state with its cursors in range, and
both cursors stand where they stood, with every input still in the line at the place its step wrote it, to be read
`dLen` samples after it was written (R332, R84). -/
def Obligations.DelayLineReturnsInput : Prop :=
  ∀ (Z : Config.Params) (xs : List (Sys2Proof.Num × Sys2Proof.Num)) (s : State Z), memoryForm s →
    s.dly.left.w < s.cfg.dLen → s.dly.right.w < s.cfg.dLen → s.cfg.dLen ≤ s.dcap → xs.length = s.cfg.dLen →
    let t := issueDelay xs s
    t.dly.left.w = s.dly.left.w ∧ t.dly.right.w = s.dly.right.w ∧
      ∀ n (h : n < xs.length),
        let u := issueDelay (xs.take n) s
        ramRead t.dly.left.ram ((s.dly.left.w + n) % s.cfg.dLen) =
            fadd (xs[n]).1 (if s.cfg.dCross then u.dly.right.fb else u.dly.left.fb) ∧
          ramRead t.dly.right.ram ((s.dly.right.w + n) % s.cfg.dLen) =
            fadd (xs[n]).2 (if s.cfg.dCross then u.dly.left.fb else u.dly.right.fb)

/-- MIX is VOICE.RENDER of each voice of its selection in ascending index, the pairs summed from 0 in that order; it
returns the sums (R366). -/
def Obligations.MixIsItsVoices : Prop :=
  ∀ (Z : Config.Params) (sel : BitVec Z.NV) (s : State Z),
    let r := ((List.finRange Z.NV).filter fun i => sel.getLsbD i.val).foldl issueMixed (s, n0, n0)
    Z.exec (.mix sel) s = .next { r.1 with ret := [r.2.1, r.2.2] }

/-- OUT emits one pair: dry and delayed crossfaded by the delay mix, times the master volume, a non-finite value
replaced by the signed half, rounded to binary32; nothing else changes (R367, R17). -/
def Obligations.OutEmitsOnePair : Prop :=
  ∀ (Z : Config.Params) (mixL mixR dl dr : Sys2Proof.Num) (s : State Z),
    let o := fun (dry wet : Sys2Proof.Num) =>
      let x := fmul (fadd (fmul dry (fsub n1 s.cfg.dMix)) (fmul wet s.cfg.dMix)) s.cfg.master
      toF32 (if isFinite x then x else if flt x n0 then nNegHalf else nHalf)
    Z.exec (.out mixL mixR dl dr) s = .next { s with out := s.out ++ [(o mixL dl, o mixR dr)], ret := [] }

/-- PROCESS on a ready core with a count of 0 or more is that many times TICK, MIX of the selection, DELAY.STEP and OUT,
whatever its sample-rate operand and whatever the state; it emits exactly `count` pairs after those already emitted
(R363, R364, R368, R390). -/
def Obligations.ProcessIsItsSamples : Prop :=
  ∀ (Z : Config.Params) (fs : Sys2Proof.Num) (count : Word) (s : State Z), s.status.active = true →
    s.status.cfgValid = true → 0 ≤ count.toInt →
    Z.exec (.process fs count) s = .next (issueSamples count.toInt.toNat s) ∧
      ∃ pairs : List (F32 × F32), (issueSamples count.toInt.toNat s).out = s.out ++ pairs ∧
        (pairs.length : Int) = count.toInt

/-- Which voices a sample renders: the live ones, ascending; in mono mode only the live voice with the smallest age, the
lowest index among equals (R365). -/
def Obligations.SelectionRule : Prop :=
  ∀ (Z : Config.Params) (vs : Vector (Voice Z) Z.NV),
    select false vs = (List.finRange Z.NV).filter (fun i => decide ((vs[i]).state ≠ .inactive)) ∧
    ((∀ i : Fin Z.NV, (vs[i]).state = .inactive) → select true vs = []) ∧
    ((∃ i : Fin Z.NV, (vs[i]).state ≠ .inactive) →
      ∃ b : Fin Z.NV, select true vs = [b] ∧ (vs[b]).state ≠ .inactive ∧
        (∀ i : Fin Z.NV, (vs[i]).state ≠ .inactive → (vs[b]).length ≤ (vs[i]).length) ∧
        ∀ i, i < b → (vs[i]).state ≠ .inactive → (vs[b]).length < (vs[i]).length)

/-- Silence: on a ready core with no live voice, no pending reservation and a cleared delay, PROCESS emits `count` pairs
of `+0` and leaves voices and rings as they are (R363 to R367, R331; the end-to-end property that 49_processor.md
derives, "with no note reserved, output is all-zero"; the coefficients in the ranges of 10_state.md). -/
def Obligations.SilenceStaysSilent : Prop :=
  ∀ (Z : Config.Params) (fs : Sys2Proof.Num) (count : Word) (s : State Z), memoryForm s → s.status.active = true →
    s.status.cfgValid = true → s.dly.left.w < s.cfg.dLen → s.dly.right.w < s.cfg.dLen → s.cfg.dLen ≤ s.dcap →
    0 ≤ count.toInt →
    (∀ i : Fin Z.NV, (s.voices[i]).state = .inactive) → (∀ j : Fin Z.RN, (s.nres[j]).offset < 0) →
    (∀ j : Fin Z.RP, (s.pres[j]).offset < 0) →
    (∀ c : Chan, (∀ a, ramRead (chanGet s.dly c).ram a = n0) ∧ (chanGet s.dly c).fb = n0 ∧
      (chanGet s.dly c).lp = n0 ∧ (chanGet s.dly c).hp = n0) →
    inClosedUnit s.cfg.dLpAlpha = true → inClosedUnit s.cfg.dHpAlpha = true → inClosedUnit s.cfg.dFb = true →
    inClosedUnit s.cfg.dMix = true → inClosedUnit s.cfg.master = true → signBit s.cfg.master = false →
    ∃ t, Z.exec (.process fs count) s = .next t ∧ t.out = s.out ++ List.replicate count.toInt.toNat (0, 0) ∧
      t.voices = s.voices ∧ t.nres = s.nres ∧ t.pres = s.pres
end

