-- ==== Sys2Proof/Laws/Memory.lean ====
section
/-! SUPPORT. The laws of the element spaces: the canonical form is kept by a write, a read after a write to the same
index gives the value written, every other index reads as before. -/

namespace Sys2Proof.Machine

variable {Z : Config.Params}

/-- Every index a list of entries holds is above `a`. -/
def Above (a : Nat) (m : Memory) : Prop := ∀ e ∈ m, a < e.1

theorem wf_cons {dflt : Nat → Num} {a : Nat} {v : Num} {m : Memory} :
    Memory.wf dflt ((a, v) :: m) = true ↔ v ≠ dflt a ∧ Above a m ∧ Memory.wf dflt m = true := by
  induction m generalizing a v with
  | nil => simp [Memory.wf, Above]
  | cons e m ih =>
    obtain ⟨b, w⟩ := e
    rw [Memory.wf, Bool.and_eq_true, Bool.and_eq_true, ih]
    simp only [bne_iff_ne, decide_eq_true_eq, Above, List.forall_mem_cons]
    constructor
    · rintro ⟨⟨h1, h2⟩, h3, h4, h5⟩
      exact ⟨h1, ⟨h2, fun e he => lt_trans h2 (h4 e he)⟩, h3, h4, h5⟩
    · rintro ⟨h1, ⟨h2, -⟩, h3⟩
      exact ⟨⟨h1, h2⟩, h3⟩

theorem wf_tail {dflt : Nat → Num} {e : Nat × Num} {m : Memory} (h : Memory.wf dflt (e :: m) = true) :
    Memory.wf dflt m = true := (wf_cons.mp h).2.2

/-- Below every entry a list reads as unlisted. -/
theorem memRead_above {dflt : Nat → Num} {a : Nat} {m : Memory} (h : Above a m) : memRead dflt m a = dflt a := by
  induction m with
  | nil => rfl
  | cons e m ih =>
    obtain ⟨b, w⟩ := e
    have hb : a < b := h (b, w) (by simp)
    rw [memRead, if_neg (by omega)]
    exact ih fun e he => h e (by simp [he])

theorem memRead_memCons_same {dflt : Nat → Num} {a : Nat} {v : Num} {m : Memory} (h : Above a m) :
    memRead dflt (memCons dflt a v m) a = v := by
  unfold memCons
  split
  · rename_i hv
    rw [memRead_above h, hv]
  · simp [memRead]

theorem memRead_memCons_other {dflt : Nat → Num} {a b : Nat} {v : Num} {m : Memory} (h : b ≠ a) :
    memRead dflt (memCons dflt a v m) b = memRead dflt m b := by
  unfold memCons
  split
  · rfl
  · simp [memRead, h]

/-- A read after a write to the same index gives the value written. -/
theorem memRead_memWrite_same {dflt : Nat → Num} {m : Memory} (h : Memory.wf dflt m = true) (a : Nat) (v : Num) :
    memRead dflt (memWrite dflt m a v) a = v := by
  induction m with
  | nil => exact memRead_memCons_same (by simp [Above])
  | cons e m ih =>
    obtain ⟨b, w⟩ := e
    obtain ⟨-, hb, hm⟩ := wf_cons.mp h
    rw [memWrite]
    split_ifs with h1 h2
    · refine memRead_memCons_same fun e he => ?_
      rcases List.mem_cons.mp he with rfl | he
      · exact h1
      · exact lt_trans h1 (hb e he)
    · exact memRead_memCons_same (h2 ▸ hb)
    · rw [memRead, if_neg h2, ih hm]

/-- A write leaves every other index as it reads. -/
theorem memRead_memWrite_other {dflt : Nat → Num} (m : Memory) {a b : Nat} (v : Num) (h : b ≠ a) :
    memRead dflt (memWrite dflt m a v) b = memRead dflt m b := by
  induction m with
  | nil => exact memRead_memCons_other h
  | cons e m ih =>
    obtain ⟨c, w⟩ := e
    rw [memWrite]
    split_ifs with h1 h2
    · exact memRead_memCons_other h
    · rw [memRead_memCons_other h, memRead, if_neg (h2 ▸ h)]
    · simp only [memRead, ih]

theorem mem_memCons {dflt : Nat → Num} {a : Nat} {v : Num} {m : Memory} {e : Nat × Num}
    (h : e ∈ memCons dflt a v m) : e.1 = a ∨ e ∈ m := by
  unfold memCons at h
  split at h
  · exact .inr h
  · rcases List.mem_cons.mp h with rfl | h
    · exact .inl rfl
    · exact .inr h

/-- A write lists no index but its own and those listed before. -/
theorem mem_memWrite {dflt : Nat → Num} {m : Memory} {a : Nat} {v : Num} {e : Nat × Num}
    (h : e ∈ memWrite dflt m a v) : e.1 = a ∨ e ∈ m := by
  induction m with
  | nil => exact mem_memCons h
  | cons d m ih =>
    obtain ⟨b, w⟩ := d
    rw [memWrite] at h
    split_ifs at h
    · exact mem_memCons h
    · exact (mem_memCons h).imp_right (List.mem_cons_of_mem _)
    · rcases List.mem_cons.mp h with rfl | h
      · exact .inr (by simp)
      · exact (ih h).imp_right (List.mem_cons_of_mem _)

theorem wf_memCons {dflt : Nat → Num} {a : Nat} {v : Num} {m : Memory} (h : Above a m)
    (hm : Memory.wf dflt m = true) : Memory.wf dflt (memCons dflt a v m) = true := by
  unfold memCons
  split
  · exact hm
  · rename_i hv
    exact wf_cons.mpr ⟨hv, h, hm⟩

/-- A write keeps the canonical form. -/
theorem wf_memWrite {dflt : Nat → Num} {m : Memory} (h : Memory.wf dflt m = true) (a : Nat) (v : Num) :
    Memory.wf dflt (memWrite dflt m a v) = true := by
  induction m with
  | nil => exact wf_memCons (by simp [Above]) rfl
  | cons e m ih =>
    obtain ⟨b, w⟩ := e
    obtain ⟨hw, hb, hm⟩ := wf_cons.mp h
    rw [memWrite]
    split_ifs with h1 h2
    · refine wf_memCons (fun e he => ?_) h
      rcases List.mem_cons.mp he with rfl | he
      · exact h1
      · exact lt_trans h1 (hb e he)
    · exact wf_memCons (h2 ▸ hb) hm
    · refine wf_cons.mpr ⟨hw, fun e he => ?_, ih hm⟩
      rcases mem_memWrite he with he | he
      · omega
      · exact hb e he

/-! ## The two spaces -/

theorem ramRead_ramWrite_same {m : Memory} (h : Memory.wf ramDefault m = true) (a : Nat) (v : Num) :
    ramRead (ramWrite m a v) a = v := memRead_memWrite_same h a v

theorem ramRead_ramWrite_other (m : Memory) {a b : Nat} (v : Num) (h : b ≠ a) :
    ramRead (ramWrite m a v) b = ramRead m b := memRead_memWrite_other m v h

theorem wf_ramWrite {m : Memory} (h : Memory.wf ramDefault m = true) (a : Nat) (v : Num) :
    Memory.wf ramDefault (ramWrite m a v) = true := wf_memWrite h a v

theorem paramRead_paramWrite_same {s : State Z} (h : Memory.wf (paramDefault Z) s.param = true) (a : Nat) (v : Num) :
    paramRead (paramWrite s a v) a = v := memRead_memWrite_same h a v

theorem paramRead_paramWrite_other (s : State Z) {a b : Nat} (v : Num) (h : b ≠ a) :
    paramRead (paramWrite s a v) b = paramRead s b := memRead_memWrite_other s.param v h

/-- The spaces after reset are in canonical form. -/
theorem memory_reset_wf :
    Memory.wf (paramDefault Z) State.reset.param = true ∧ Memory.wf ramDefault State.reset.dly.left.ram = true ∧
      Memory.wf ramDefault State.reset.dly.right.ram = true := ⟨rfl, rfl, rfl⟩

end Sys2Proof.Machine
end

