-- ==== Sys2Proof/Laws/Numerics.lean ====
section
/-! SUPPORT. The named constants as bit patterns, the order laws of `fle` and `flt`, and what the helpers of 00_scope.md
R15 to R17 can give. -/

namespace Sys2Proof.Machine

/-! ## Constants -/

theorem n1_bits : n1 = 0x3FF0000000000000#64 := by decide +kernel
theorem n2_bits : n2 = 0x4000000000000000#64 := by decide +kernel
theorem nHalf_bits : nHalf = 0x3FE0000000000000#64 := by decide +kernel
theorem nNeg1_bits : nNeg1 = 0xBFF0000000000000#64 := by decide +kernel
theorem nNegHalf_bits : nNegHalf = 0xBFE0000000000000#64 := by decide +kernel
theorem expThreshold_bits : expThreshold = 0x3F50624DD2F1A9FC#64 := by decide +kernel
theorem fbThreshold_bits : fbThreshold = 0x3EB0C6F7A0B5ED8D#64 := by decide +kernel

/-! ## Order -/

theorem fle_iff {a b : Num} : fle a b = true ↔ isNaN a = false ∧ isNaN b = false ∧ units a ≤ units b := by
  simp [fle, and_assoc]

theorem flt_iff {a b : Num} : flt a b = true ↔ isNaN a = false ∧ isNaN b = false ∧ units a < units b := by
  simp [flt, and_assoc]

theorem fle_refl {a : Num} (h : isNaN a = false) : fle a a = true := fle_iff.mpr ⟨h, h, le_refl _⟩

theorem fle_trans {a b c : Num} (h : fle a b = true) (h' : fle b c = true) : fle a c = true := by
  rw [fle_iff] at *
  exact ⟨h.1, h'.2.1, h.2.2.trans h'.2.2⟩

theorem fle_of_flt {a b : Num} (h : flt a b = true) : fle a b = true := by
  rw [flt_iff] at h
  exact fle_iff.mpr ⟨h.1, h.2.1, h.2.2.le⟩

/-- Between numbers that are not NaN, what is not below is at or above. -/
theorem fle_of_not_flt {a b : Num} (ha : isNaN a = false) (hb : isNaN b = false) (h : flt a b = false) :
    fle b a = true := by
  refine fle_iff.mpr ⟨hb, ha, ?_⟩
  by_contra hlt
  have := flt_iff.mpr ⟨ha, hb, not_le.mp hlt⟩
  simp [this] at h

/-- A finite number is not NaN. -/
theorem isNaN_of_isFinite {x : Num} (h : isFinite x = true) : isNaN x = false := by
  simp_all [isFinite, isNaN]

/-! ## Helpers -/

/-- A clamped number that is no NaN lies in the interval (00_scope.md R15). -/
theorem clamp_range {x lo hi : Num} (hx : isNaN x = false) (h : fle lo hi = true) :
    fle lo (clamp x lo hi) = true ∧ fle (clamp x lo hi) hi = true := by
  have hlo := (fle_iff.mp h).1
  have hhi := (fle_iff.mp h).2.1
  unfold clamp
  by_cases h1 : flt x lo = true
  · rw [if_pos h1]
    exact ⟨fle_refl hlo, h⟩
  · rw [if_neg h1]
    by_cases h2 : flt hi x = true
    · rw [if_pos h2]
      exact ⟨h, fle_refl hhi⟩
    · rw [if_neg h2]
      exact ⟨fle_of_not_flt hx hlo (by simpa using h1), fle_of_not_flt hhi hx (by simpa using h2)⟩

/-- A sanitized value lies in its interval, whatever it was (00_scope.md R15). -/
theorem sanitize_range (x : Num) {lo hi d : Num} (h : fle lo hi = true) (h1 : fle lo d = true)
    (h2 : fle d hi = true) : fle lo (sanitize x lo hi d) = true ∧ fle (sanitize x lo hi d) hi = true := by
  unfold sanitize
  by_cases hx : isNaN x = true
  · rw [if_pos hx]
    exact ⟨h1, h2⟩
  · rw [if_neg hx]
    exact clamp_range (by simpa using hx) h

theorem inUnit_n0 : inUnit n0 = true := by decide +kernel

/-- A stored phase is in `[0, 1)` (00_scope.md R16). -/
theorem inUnit_wrapState (x : Num) : inUnit (wrapState x) = true := by
  unfold wrapState
  dsimp only
  split
  · rename_i h
    simp only [Bool.and_eq_true] at h
    simp [inUnit, h.1.2, h.2]
  · exact inUnit_n0

/-- A gated feedback value is 0, or finite with magnitude at least the threshold (48_delay.md R334). -/
theorem feedbackOk_fbGate (x : Num) : feedbackOk (fbGate x) = true := by
  unfold fbGate
  split
  · rfl
  · rename_i h
    simp only [Bool.or_eq_true, Bool.not_eq_true', not_or, Bool.not_eq_false, Bool.not_eq_true] at h
    have hf : isNaN (fabs x) = false := by
      have := isNaN_of_isFinite h.1
      have e : expField (fabs x) = expField x := by
        unfold expField fabs
        congr 1
        ext i hi
        simp only [BitVec.getElem_extractLsb', BitVec.getLsbD_and]
        interval_cases i <;> simp
      have f : fracField (fabs x) = fracField x := by
        unfold fracField fabs
        congr 1
        ext i hi
        simp only [BitVec.getElem_extractLsb', BitVec.getLsbD_and]
        interval_cases i <;> simp
      rw [isNaN, e, f]
      exact this
    have ht : isNaN fbThreshold = false := by decide +kernel
    simp [feedbackOk, h.1, fle_of_not_flt hf ht h.2]

/-- A guarded value is finite (00_scope.md R17). -/
theorem isFinite_guardNum (x : Num) : isFinite (guardNum x) = true := by
  unfold guardNum
  split
  · assumption
  · split <;> decide +kernel

/-! ## A NaN that an operation makes -/

theorem nanOf_expField (k : Nat) (a b : Num) : (nanOf k a b).extractLsb' 52 11 = 2047#11 := by
  unfold nanOf
  generalize Config.nanBits k a b = n
  refine BitVec.eq_of_getLsbD_eq fun i hi => ?_
  interval_cases i <;> simp

theorem isFinite_nanOf (k : Nat) (a b : Num) : isFinite (nanOf k a b) = false := by
  simp [isFinite, expField, nanOf_expField]

theorem isNaN_nanOf (k : Nat) (a b : Num) : isNaN (nanOf k a b) = true := by
  have h : ((nanOf k a b).extractLsb' 0 52).getLsbD 51 = true := by simp [nanOf]
  have h0 : (nanOf k a b).extractLsb' 0 52 ≠ 0#52 := fun e => by simp [e] at h
  have h1 : ((nanOf k a b).extractLsb' 0 52).toNat ≠ 0 := fun e => h0 (BitVec.eq_of_toNat_eq (by simpa using e))
  simpa [isNaN, expField, nanOf_expField, fracField] using h1

/-- A fractional part that is not finite never becomes state: `WrapState` gives 0 (00_scope.md R16). -/
theorem wrapState_of_not_finite {x : Num} (h : isFinite (frac x) = false) : wrapState x = n0 := by
  simp [wrapState, h]

theorem wrapState_of_isNaN {x : Num} (h : isNaN x = true) : wrapState x = n0 :=
  wrapState_of_not_finite (by simp [frac, fsub, fadd, h, isFinite_nanOf])

end Sys2Proof.Machine
end

