-- ==== Sys2Proof/Laws/State.lean ====
section
/-! SUPPORT. One lemma per field per update of State, so that no proof unfolds a record update. -/

namespace Sys2Proof.Machine

variable {Z : Config.Params}

/-! ## Replacing a voice -/

@[simp] theorem setVoice_status (s : State Z) (i : Fin Z.NV) (v : Voice Z) :
    (setVoice s i v).status = s.status := rfl
@[simp] theorem setVoice_fault (s : State Z) (i : Fin Z.NV) (v : Voice Z) :
    (setVoice s i v).fault = s.fault := rfl
@[simp] theorem setVoice_param (s : State Z) (i : Fin Z.NV) (v : Voice Z) :
    (setVoice s i v).param = s.param := rfl
@[simp] theorem setVoice_cfg (s : State Z) (i : Fin Z.NV) (v : Voice Z) :
    (setVoice s i v).cfg = s.cfg := rfl
@[simp] theorem setVoice_dcap (s : State Z) (i : Fin Z.NV) (v : Voice Z) :
    (setVoice s i v).dcap = s.dcap := rfl
@[simp] theorem setVoice_table (s : State Z) (i : Fin Z.NV) (v : Voice Z) :
    (setVoice s i v).table = s.table := rfl
@[simp] theorem setVoice_voices (s : State Z) (i : Fin Z.NV) (v : Voice Z) :
    (setVoice s i v).voices = s.voices.set i v := rfl
@[simp] theorem setVoice_nres (s : State Z) (i : Fin Z.NV) (v : Voice Z) :
    (setVoice s i v).nres = s.nres := rfl
@[simp] theorem setVoice_pres (s : State Z) (i : Fin Z.NV) (v : Voice Z) :
    (setVoice s i v).pres = s.pres := rfl
@[simp] theorem setVoice_dly (s : State Z) (i : Fin Z.NV) (v : Voice Z) :
    (setVoice s i v).dly = s.dly := rfl
@[simp] theorem setVoice_cmd (s : State Z) (i : Fin Z.NV) (v : Voice Z) :
    (setVoice s i v).cmd = s.cmd := rfl
@[simp] theorem setVoice_ctl (s : State Z) (i : Fin Z.NV) (v : Voice Z) :
    (setVoice s i v).ctl = s.ctl := rfl
@[simp] theorem setVoice_resetIn (s : State Z) (i : Fin Z.NV) (v : Voice Z) :
    (setVoice s i v).resetIn = s.resetIn := rfl
@[simp] theorem setVoice_resetAfter (s : State Z) (i : Fin Z.NV) (v : Voice Z) :
    (setVoice s i v).resetAfter = s.resetAfter := rfl
@[simp] theorem setVoice_out (s : State Z) (i : Fin Z.NV) (v : Voice Z) :
    (setVoice s i v).out = s.out := rfl
@[simp] theorem setVoice_uops (s : State Z) (i : Fin Z.NV) (v : Voice Z) :
    (setVoice s i v).uops = s.uops := rfl
@[simp] theorem setVoice_ret (s : State Z) (i : Fin Z.NV) (v : Voice Z) :
    (setVoice s i v).ret = s.ret := rfl
@[simp] theorem setVoice_free (s : State Z) (i : Fin Z.NV) (v : Voice Z) :
    (setVoice s i v).free = s.free := rfl

/-! ## Emitting a pair -/

@[simp] theorem emit_status (s : State Z) (l r : F32) :
    (emit s l r).status = s.status := rfl
@[simp] theorem emit_fault (s : State Z) (l r : F32) :
    (emit s l r).fault = s.fault := rfl
@[simp] theorem emit_param (s : State Z) (l r : F32) :
    (emit s l r).param = s.param := rfl
@[simp] theorem emit_cfg (s : State Z) (l r : F32) :
    (emit s l r).cfg = s.cfg := rfl
@[simp] theorem emit_dcap (s : State Z) (l r : F32) :
    (emit s l r).dcap = s.dcap := rfl
@[simp] theorem emit_table (s : State Z) (l r : F32) :
    (emit s l r).table = s.table := rfl
@[simp] theorem emit_voices (s : State Z) (l r : F32) :
    (emit s l r).voices = s.voices := rfl
@[simp] theorem emit_nres (s : State Z) (l r : F32) :
    (emit s l r).nres = s.nres := rfl
@[simp] theorem emit_pres (s : State Z) (l r : F32) :
    (emit s l r).pres = s.pres := rfl
@[simp] theorem emit_dly (s : State Z) (l r : F32) :
    (emit s l r).dly = s.dly := rfl
@[simp] theorem emit_cmd (s : State Z) (l r : F32) :
    (emit s l r).cmd = s.cmd := rfl
@[simp] theorem emit_ctl (s : State Z) (l r : F32) :
    (emit s l r).ctl = s.ctl := rfl
@[simp] theorem emit_resetIn (s : State Z) (l r : F32) :
    (emit s l r).resetIn = s.resetIn := rfl
@[simp] theorem emit_resetAfter (s : State Z) (l r : F32) :
    (emit s l r).resetAfter = s.resetAfter := rfl
@[simp] theorem emit_out (s : State Z) (l r : F32) :
    (emit s l r).out = s.out ++ [(l, r)] := rfl
@[simp] theorem emit_uops (s : State Z) (l r : F32) :
    (emit s l r).uops = s.uops := rfl
@[simp] theorem emit_ret (s : State Z) (l r : F32) :
    (emit s l r).ret = s.ret := rfl
@[simp] theorem emit_free (s : State Z) (l r : F32) :
    (emit s l r).free = s.free := rfl

/-! ## Latching what a unit operation returned -/

@[simp] theorem returned_status (s : State Z) (xs : List Num) :
    (returned s xs).status = s.status := rfl
@[simp] theorem returned_fault (s : State Z) (xs : List Num) :
    (returned s xs).fault = s.fault := rfl
@[simp] theorem returned_param (s : State Z) (xs : List Num) :
    (returned s xs).param = s.param := rfl
@[simp] theorem returned_cfg (s : State Z) (xs : List Num) :
    (returned s xs).cfg = s.cfg := rfl
@[simp] theorem returned_dcap (s : State Z) (xs : List Num) :
    (returned s xs).dcap = s.dcap := rfl
@[simp] theorem returned_table (s : State Z) (xs : List Num) :
    (returned s xs).table = s.table := rfl
@[simp] theorem returned_voices (s : State Z) (xs : List Num) :
    (returned s xs).voices = s.voices := rfl
@[simp] theorem returned_nres (s : State Z) (xs : List Num) :
    (returned s xs).nres = s.nres := rfl
@[simp] theorem returned_pres (s : State Z) (xs : List Num) :
    (returned s xs).pres = s.pres := rfl
@[simp] theorem returned_dly (s : State Z) (xs : List Num) :
    (returned s xs).dly = s.dly := rfl
@[simp] theorem returned_cmd (s : State Z) (xs : List Num) :
    (returned s xs).cmd = s.cmd := rfl
@[simp] theorem returned_ctl (s : State Z) (xs : List Num) :
    (returned s xs).ctl = s.ctl := rfl
@[simp] theorem returned_resetIn (s : State Z) (xs : List Num) :
    (returned s xs).resetIn = s.resetIn := rfl
@[simp] theorem returned_resetAfter (s : State Z) (xs : List Num) :
    (returned s xs).resetAfter = s.resetAfter := rfl
@[simp] theorem returned_out (s : State Z) (xs : List Num) :
    (returned s xs).out = s.out := rfl
@[simp] theorem returned_uops (s : State Z) (xs : List Num) :
    (returned s xs).uops = s.uops := rfl
@[simp] theorem returned_ret (s : State Z) (xs : List Num) :
    (returned s xs).ret = xs := rfl
@[simp] theorem returned_free (s : State Z) (xs : List Num) :
    (returned s xs).free = s.free := rfl

/-! ## Writing a parameter register -/

@[simp] theorem paramWrite_status (s : State Z) (a : Nat) (v : Num) :
    (paramWrite s a v).status = s.status := rfl
@[simp] theorem paramWrite_fault (s : State Z) (a : Nat) (v : Num) :
    (paramWrite s a v).fault = s.fault := rfl
@[simp] theorem paramWrite_param (s : State Z) (a : Nat) (v : Num) :
    (paramWrite s a v).param = memWrite (paramDefault Z) s.param a v := rfl
@[simp] theorem paramWrite_cfg (s : State Z) (a : Nat) (v : Num) :
    (paramWrite s a v).cfg = s.cfg := rfl
@[simp] theorem paramWrite_dcap (s : State Z) (a : Nat) (v : Num) :
    (paramWrite s a v).dcap = s.dcap := rfl
@[simp] theorem paramWrite_table (s : State Z) (a : Nat) (v : Num) :
    (paramWrite s a v).table = s.table := rfl
@[simp] theorem paramWrite_voices (s : State Z) (a : Nat) (v : Num) :
    (paramWrite s a v).voices = s.voices := rfl
@[simp] theorem paramWrite_nres (s : State Z) (a : Nat) (v : Num) :
    (paramWrite s a v).nres = s.nres := rfl
@[simp] theorem paramWrite_pres (s : State Z) (a : Nat) (v : Num) :
    (paramWrite s a v).pres = s.pres := rfl
@[simp] theorem paramWrite_dly (s : State Z) (a : Nat) (v : Num) :
    (paramWrite s a v).dly = s.dly := rfl
@[simp] theorem paramWrite_cmd (s : State Z) (a : Nat) (v : Num) :
    (paramWrite s a v).cmd = s.cmd := rfl
@[simp] theorem paramWrite_ctl (s : State Z) (a : Nat) (v : Num) :
    (paramWrite s a v).ctl = s.ctl := rfl
@[simp] theorem paramWrite_resetIn (s : State Z) (a : Nat) (v : Num) :
    (paramWrite s a v).resetIn = s.resetIn := rfl
@[simp] theorem paramWrite_resetAfter (s : State Z) (a : Nat) (v : Num) :
    (paramWrite s a v).resetAfter = s.resetAfter := rfl
@[simp] theorem paramWrite_out (s : State Z) (a : Nat) (v : Num) :
    (paramWrite s a v).out = s.out := rfl
@[simp] theorem paramWrite_uops (s : State Z) (a : Nat) (v : Num) :
    (paramWrite s a v).uops = s.uops := rfl
@[simp] theorem paramWrite_ret (s : State Z) (a : Nat) (v : Num) :
    (paramWrite s a v).ret = s.ret := rfl
@[simp] theorem paramWrite_free (s : State Z) (a : Nat) (v : Num) :
    (paramWrite s a v).free = s.free := rfl

/-! ## Raising a fault -/

@[simp] theorem raise_status (c : Cause) (s : State Z) :
    (raise c s).status = s.status := by unfold raise; split <;> simp_all
@[simp] theorem raise_fault (c : Cause) (s : State Z) :
    (raise c s).fault = if s.fault = .none then c else s.fault := by unfold raise; split <;> simp_all
@[simp] theorem raise_param (c : Cause) (s : State Z) :
    (raise c s).param = s.param := by unfold raise; split <;> simp_all
@[simp] theorem raise_cfg (c : Cause) (s : State Z) :
    (raise c s).cfg = s.cfg := by unfold raise; split <;> simp_all
@[simp] theorem raise_dcap (c : Cause) (s : State Z) :
    (raise c s).dcap = s.dcap := by unfold raise; split <;> simp_all
@[simp] theorem raise_table (c : Cause) (s : State Z) :
    (raise c s).table = s.table := by unfold raise; split <;> simp_all
@[simp] theorem raise_voices (c : Cause) (s : State Z) :
    (raise c s).voices = s.voices := by unfold raise; split <;> simp_all
@[simp] theorem raise_nres (c : Cause) (s : State Z) :
    (raise c s).nres = s.nres := by unfold raise; split <;> simp_all
@[simp] theorem raise_pres (c : Cause) (s : State Z) :
    (raise c s).pres = s.pres := by unfold raise; split <;> simp_all
@[simp] theorem raise_dly (c : Cause) (s : State Z) :
    (raise c s).dly = s.dly := by unfold raise; split <;> simp_all
@[simp] theorem raise_cmd (c : Cause) (s : State Z) :
    (raise c s).cmd = s.cmd := by unfold raise; split <;> simp_all
@[simp] theorem raise_ctl (c : Cause) (s : State Z) :
    (raise c s).ctl = s.ctl := by unfold raise; split <;> simp_all
@[simp] theorem raise_resetIn (c : Cause) (s : State Z) :
    (raise c s).resetIn = s.resetIn := by unfold raise; split <;> simp_all
@[simp] theorem raise_resetAfter (c : Cause) (s : State Z) :
    (raise c s).resetAfter = s.resetAfter := by unfold raise; split <;> simp_all
@[simp] theorem raise_out (c : Cause) (s : State Z) :
    (raise c s).out = s.out := by unfold raise; split <;> simp_all
@[simp] theorem raise_uops (c : Cause) (s : State Z) :
    (raise c s).uops = s.uops := by unfold raise; split <;> simp_all
@[simp] theorem raise_ret (c : Cause) (s : State Z) :
    (raise c s).ret = s.ret := by unfold raise; split <;> simp_all
@[simp] theorem raise_free (c : Cause) (s : State Z) :
    (raise c s).free = s.free := by unfold raise; split <;> simp_all

/-! ## Applying a note event -/

@[simp] theorem applyNote_status (ev : MidiNote Z) (s : State Z) :
    (applyNote ev s).status = s.status := rfl
@[simp] theorem applyNote_fault (ev : MidiNote Z) (s : State Z) :
    (applyNote ev s).fault = s.fault := rfl
@[simp] theorem applyNote_param (ev : MidiNote Z) (s : State Z) :
    (applyNote ev s).param = s.param := rfl
@[simp] theorem applyNote_cfg (ev : MidiNote Z) (s : State Z) :
    (applyNote ev s).cfg = s.cfg := rfl
@[simp] theorem applyNote_dcap (ev : MidiNote Z) (s : State Z) :
    (applyNote ev s).dcap = s.dcap := rfl
@[simp] theorem applyNote_table (ev : MidiNote Z) (s : State Z) :
    (applyNote ev s).table = s.table := rfl
@[simp] theorem applyNote_voices (ev : MidiNote Z) (s : State Z) :
    (applyNote ev s).voices = if isNoteOn ev then noteOn s.cfg s.table s.voices ev else noteOff s.voices ev := rfl
@[simp] theorem applyNote_nres (ev : MidiNote Z) (s : State Z) :
    (applyNote ev s).nres = s.nres := rfl
@[simp] theorem applyNote_pres (ev : MidiNote Z) (s : State Z) :
    (applyNote ev s).pres = s.pres := rfl
@[simp] theorem applyNote_dly (ev : MidiNote Z) (s : State Z) :
    (applyNote ev s).dly = s.dly := rfl
@[simp] theorem applyNote_cmd (ev : MidiNote Z) (s : State Z) :
    (applyNote ev s).cmd = s.cmd := rfl
@[simp] theorem applyNote_ctl (ev : MidiNote Z) (s : State Z) :
    (applyNote ev s).ctl = s.ctl := rfl
@[simp] theorem applyNote_resetIn (ev : MidiNote Z) (s : State Z) :
    (applyNote ev s).resetIn = s.resetIn := rfl
@[simp] theorem applyNote_resetAfter (ev : MidiNote Z) (s : State Z) :
    (applyNote ev s).resetAfter = s.resetAfter := rfl
@[simp] theorem applyNote_out (ev : MidiNote Z) (s : State Z) :
    (applyNote ev s).out = s.out := rfl
@[simp] theorem applyNote_uops (ev : MidiNote Z) (s : State Z) :
    (applyNote ev s).uops = s.uops := rfl
@[simp] theorem applyNote_ret (ev : MidiNote Z) (s : State Z) :
    (applyNote ev s).ret = s.ret := rfl
@[simp] theorem applyNote_free (ev : MidiNote Z) (s : State Z) :
    (applyNote ev s).free = s.free := rfl

/-! ## Applying a pressure event -/

@[simp] theorem applyPressure_status (ev : MidiNote Z) (p : Num) (s : State Z) :
    (applyPressure ev p s).status = s.status := rfl
@[simp] theorem applyPressure_fault (ev : MidiNote Z) (p : Num) (s : State Z) :
    (applyPressure ev p s).fault = s.fault := rfl
@[simp] theorem applyPressure_param (ev : MidiNote Z) (p : Num) (s : State Z) :
    (applyPressure ev p s).param = s.param := rfl
@[simp] theorem applyPressure_cfg (ev : MidiNote Z) (p : Num) (s : State Z) :
    (applyPressure ev p s).cfg = s.cfg := rfl
@[simp] theorem applyPressure_dcap (ev : MidiNote Z) (p : Num) (s : State Z) :
    (applyPressure ev p s).dcap = s.dcap := rfl
@[simp] theorem applyPressure_table (ev : MidiNote Z) (p : Num) (s : State Z) :
    (applyPressure ev p s).table = s.table := rfl
@[simp] theorem applyPressure_voices (ev : MidiNote Z) (p : Num) (s : State Z) :
    (applyPressure ev p s).voices = applyPress s.voices ev p := rfl
@[simp] theorem applyPressure_nres (ev : MidiNote Z) (p : Num) (s : State Z) :
    (applyPressure ev p s).nres = s.nres := rfl
@[simp] theorem applyPressure_pres (ev : MidiNote Z) (p : Num) (s : State Z) :
    (applyPressure ev p s).pres = s.pres := rfl
@[simp] theorem applyPressure_dly (ev : MidiNote Z) (p : Num) (s : State Z) :
    (applyPressure ev p s).dly = s.dly := rfl
@[simp] theorem applyPressure_cmd (ev : MidiNote Z) (p : Num) (s : State Z) :
    (applyPressure ev p s).cmd = s.cmd := rfl
@[simp] theorem applyPressure_ctl (ev : MidiNote Z) (p : Num) (s : State Z) :
    (applyPressure ev p s).ctl = s.ctl := rfl
@[simp] theorem applyPressure_resetIn (ev : MidiNote Z) (p : Num) (s : State Z) :
    (applyPressure ev p s).resetIn = s.resetIn := rfl
@[simp] theorem applyPressure_resetAfter (ev : MidiNote Z) (p : Num) (s : State Z) :
    (applyPressure ev p s).resetAfter = s.resetAfter := rfl
@[simp] theorem applyPressure_out (ev : MidiNote Z) (p : Num) (s : State Z) :
    (applyPressure ev p s).out = s.out := rfl
@[simp] theorem applyPressure_uops (ev : MidiNote Z) (p : Num) (s : State Z) :
    (applyPressure ev p s).uops = s.uops := rfl
@[simp] theorem applyPressure_ret (ev : MidiNote Z) (p : Num) (s : State Z) :
    (applyPressure ev p s).ret = s.ret := rfl
@[simp] theorem applyPressure_free (ev : MidiNote Z) (p : Num) (s : State Z) :
    (applyPressure ev p s).free = s.free := rfl

/-! ## The output stage -/

@[simp] theorem outStep_status (a b c d : Num) (s : State Z) :
    (outStep a b c d s).status = s.status := rfl
@[simp] theorem outStep_fault (a b c d : Num) (s : State Z) :
    (outStep a b c d s).fault = s.fault := rfl
@[simp] theorem outStep_param (a b c d : Num) (s : State Z) :
    (outStep a b c d s).param = s.param := rfl
@[simp] theorem outStep_cfg (a b c d : Num) (s : State Z) :
    (outStep a b c d s).cfg = s.cfg := rfl
@[simp] theorem outStep_dcap (a b c d : Num) (s : State Z) :
    (outStep a b c d s).dcap = s.dcap := rfl
@[simp] theorem outStep_table (a b c d : Num) (s : State Z) :
    (outStep a b c d s).table = s.table := rfl
@[simp] theorem outStep_voices (a b c d : Num) (s : State Z) :
    (outStep a b c d s).voices = s.voices := rfl
@[simp] theorem outStep_nres (a b c d : Num) (s : State Z) :
    (outStep a b c d s).nres = s.nres := rfl
@[simp] theorem outStep_pres (a b c d : Num) (s : State Z) :
    (outStep a b c d s).pres = s.pres := rfl
@[simp] theorem outStep_dly (a b c d : Num) (s : State Z) :
    (outStep a b c d s).dly = s.dly := rfl
@[simp] theorem outStep_cmd (a b c d : Num) (s : State Z) :
    (outStep a b c d s).cmd = s.cmd := rfl
@[simp] theorem outStep_ctl (a b c d : Num) (s : State Z) :
    (outStep a b c d s).ctl = s.ctl := rfl
@[simp] theorem outStep_resetIn (a b c d : Num) (s : State Z) :
    (outStep a b c d s).resetIn = s.resetIn := rfl
@[simp] theorem outStep_resetAfter (a b c d : Num) (s : State Z) :
    (outStep a b c d s).resetAfter = s.resetAfter := rfl
@[simp] theorem outStep_out (a b c d : Num) (s : State Z) :
    (outStep a b c d s).out = s.out ++ [(toF32 (guardNum (outMix s.cfg a c)), toF32 (guardNum (outMix s.cfg b d)))] := rfl
@[simp] theorem outStep_uops (a b c d : Num) (s : State Z) :
    (outStep a b c d s).uops = s.uops := rfl
@[simp] theorem outStep_ret (a b c d : Num) (s : State Z) :
    (outStep a b c d s).ret = s.ret := rfl
@[simp] theorem outStep_free (a b c d : Num) (s : State Z) :
    (outStep a b c d s).free = s.free := rfl

/-! ## Hardware reset -/

@[simp] theorem hardReset_status (s : State Z) :
    (hardReset s).status = Z.reset.status := rfl
@[simp] theorem hardReset_fault (s : State Z) :
    (hardReset s).fault = Z.reset.fault := rfl
@[simp] theorem hardReset_param (s : State Z) :
    (hardReset s).param = Z.reset.param := rfl
@[simp] theorem hardReset_cfg (s : State Z) :
    (hardReset s).cfg = Z.reset.cfg := rfl
@[simp] theorem hardReset_dcap (s : State Z) :
    (hardReset s).dcap = Z.reset.dcap := rfl
@[simp] theorem hardReset_table (s : State Z) :
    (hardReset s).table = Z.reset.table := rfl
@[simp] theorem hardReset_voices (s : State Z) :
    (hardReset s).voices = Z.reset.voices := rfl
@[simp] theorem hardReset_nres (s : State Z) :
    (hardReset s).nres = Z.reset.nres := rfl
@[simp] theorem hardReset_pres (s : State Z) :
    (hardReset s).pres = Z.reset.pres := rfl
@[simp] theorem hardReset_dly (s : State Z) :
    (hardReset s).dly = Z.reset.dly := rfl
@[simp] theorem hardReset_cmd (s : State Z) :
    (hardReset s).cmd = Z.reset.cmd := rfl
@[simp] theorem hardReset_ctl (s : State Z) :
    (hardReset s).ctl = Z.reset.ctl := rfl
@[simp] theorem hardReset_resetIn (s : State Z) :
    (hardReset s).resetIn = s.resetIn := rfl
@[simp] theorem hardReset_resetAfter (s : State Z) :
    (hardReset s).resetAfter = Z.reset.resetAfter := rfl
@[simp] theorem hardReset_out (s : State Z) :
    (hardReset s).out = s.out := rfl
@[simp] theorem hardReset_uops (s : State Z) :
    (hardReset s).uops = Z.reset.uops := rfl
@[simp] theorem hardReset_ret (s : State Z) :
    (hardReset s).ret = Z.reset.ret := rfl
@[simp] theorem hardReset_free (s : State Z) :
    (hardReset s).free = s.free := rfl

/-! ## Clearing the audio state -/

@[simp] theorem clearAudio_status (s : State Z) :
    (clearAudio s).status = s.status := rfl
@[simp] theorem clearAudio_fault (s : State Z) :
    (clearAudio s).fault = s.fault := rfl
@[simp] theorem clearAudio_param (s : State Z) :
    (clearAudio s).param = s.param := rfl
@[simp] theorem clearAudio_cfg (s : State Z) :
    (clearAudio s).cfg = undefinedCfg s.free := rfl
@[simp] theorem clearAudio_dcap (s : State Z) :
    (clearAudio s).dcap = s.dcap := rfl
@[simp] theorem clearAudio_table (s : State Z) :
    (clearAudio s).table = undefinedTable s.free := rfl
@[simp] theorem clearAudio_voices (s : State Z) :
    (clearAudio s).voices = Vector.replicate _ Voice.reset := rfl
@[simp] theorem clearAudio_nres (s : State Z) :
    (clearAudio s).nres = Vector.replicate _ NoteRes.reset := rfl
@[simp] theorem clearAudio_pres (s : State Z) :
    (clearAudio s).pres = Vector.replicate _ PressRes.reset := rfl
@[simp] theorem clearAudio_dly (s : State Z) :
    (clearAudio s).dly = ⟨DelayChan.reset, DelayChan.reset⟩ := rfl
@[simp] theorem clearAudio_cmd (s : State Z) :
    (clearAudio s).cmd = s.cmd := rfl
@[simp] theorem clearAudio_ctl (s : State Z) :
    (clearAudio s).ctl = s.ctl := rfl
@[simp] theorem clearAudio_resetIn (s : State Z) :
    (clearAudio s).resetIn = s.resetIn := rfl
@[simp] theorem clearAudio_resetAfter (s : State Z) :
    (clearAudio s).resetAfter = s.resetAfter := rfl
@[simp] theorem clearAudio_out (s : State Z) :
    (clearAudio s).out = s.out := rfl
@[simp] theorem clearAudio_uops (s : State Z) :
    (clearAudio s).uops = s.uops := rfl
@[simp] theorem clearAudio_ret (s : State Z) :
    (clearAudio s).ret = s.ret := rfl
@[simp] theorem clearAudio_free (s : State Z) :
    (clearAudio s).free = s.free + 1 := rfl

end Sys2Proof.Machine
end

