-- ==== Sys2Proof/Laws/Ops.lean ====
section
/-! SUPPORT. What each shared operation can do, said once, and what each unit operation issued on its own leaves. -/

namespace Sys2Proof.Machine

variable {Z : Config.Params}

/-! ## Raising a fault -/

/-- Raising a fault is the latch and nothing else (60_exceptions.md R392). -/
theorem raise_eq_latched (c : Cause) (s : State Z) : raise c s = latched c s := by
  unfold raise latched
  split <;> simp_all

/-! ## Voices -/

@[simp] theorem getElem_setVoice_same (s : State Z) (i : Fin Z.NV) (v : Voice Z) :
    (setVoice s i v).voices[i] = v := by
  simp [setVoice]

@[simp] theorem getElem_setVoice_other (s : State Z) {i j : Fin Z.NV} (v : Voice Z) (h : j ≠ i) :
    (setVoice s i v).voices[j] = s.voices[j] := by
  simp only [setVoice, Fin.getElem_fin]
  exact Vector.getElem_set_ne _ _ fun e => h (Fin.ext e.symm)

@[simp] theorem setVoice_setVoice (s : State Z) (i : Fin Z.NV) (v w : Voice Z) :
    setVoice (setVoice s i v) i w = setVoice s i w := by
  simp [setVoice]

@[simp] theorem returned_returned (s : State Z) (xs ys : List Num) : returned (returned s xs) ys = returned s ys := rfl

theorem setVoice_returned (s : State Z) (i : Fin Z.NV) (v : Voice Z) (xs : List Num) :
    setVoice (returned s xs) i v = returned (setVoice s i v) xs := rfl

@[simp] theorem setVoice_self (s : State Z) (i : Fin Z.NV) : setVoice s i s.voices[i] = s := by
  simp [setVoice]

/-! ## PWRITE and control-port frames -/

/-- PWRITE changes PARAM and FAULT alone (49_processor.md R350). -/
theorem pwriteTo_eq (addr : BitVec 16) (v : Num) (s : State Z) :
    ∃ p f, pwriteTo addr v s = { s with param := p, fault := f } := by
  unfold pwriteTo
  split
  · exact ⟨_, _, rfl⟩
  · exact ⟨s.param, _, raise_eq_latched _ _⟩

/-- A control-port frame changes PARAM and FAULT alone (30_encoding.md R110, R119). -/
theorem controlFrame_eq (s : State Z) (ws : List Word) :
    ∃ p f, controlFrame s ws = { s with param := p, fault := f } := by
  unfold controlFrame
  split
  · exact pwriteTo_eq _ _ _
  · exact ⟨s.param, _, raise_eq_latched _ _⟩

/-- So do several, one after the other. -/
theorem foldl_controlFrame_eq (fs : List (List Word)) (s : State Z) :
    ∃ p f, fs.foldl controlFrame s = { s with param := p, fault := f } := by
  induction fs generalizing s with
  | nil => exact ⟨s.param, s.fault, rfl⟩
  | cons ws fs ih =>
    obtain ⟨p, f, h⟩ := controlFrame_eq s ws
    obtain ⟨p', f', h'⟩ := ih { s with param := p, fault := f }
    exact ⟨p', f', by rw [List.foldl_cons, h, h']⟩

/-- With no whole frame on the control port nothing overlaps a RECALC. -/
theorem overlapping_of_not_ready {s : State Z} (h : frameReady .control s.ctl = false) : overlapping s = [] := by
  unfold overlapping
  cases hc : s.ctl with
  | nil => rfl
  | cons w ws =>
    rw [hc] at h
    simp only [frameReady, decide_eq_false_iff_not, not_le, List.length_cons] at h
    simp [splitFrames, h]

/-- With no whole frame on the control port a RECALC of an active core reads the register file (49_processor.md R353,
R354). -/
theorem execRecalc_of_not_ready {fs : Num} {s : State Z} (ha : s.status.active = true)
    (hc : frameReady .control s.ctl = false) : execRecalc fs s = .next (recalcWith (paramRead s) fs s) := by
  have ho := overlapping_of_not_ready hc
  have hs : snapshot s = paramRead s := by
    funext a
    unfold snapshot
    rw [ho]
  have hv : afterOverlap s = s := by
    unfold afterOverlap
    rw [ho]
  simp only [execRecalc, ha, if_true, hs, hv]

/-- What an overlap leaves: PARAM, FAULT, the control port's words and the free-value counter may differ. -/
theorem afterOverlap_eq (s : State Z) :
    ∃ p f ws n, afterOverlap s = { s with param := p, fault := f, ctl := ws, free := n } := by
  unfold afterOverlap
  split
  · exact ⟨_, _, _, _, rfl⟩
  · obtain ⟨p, f, h⟩ := foldl_controlFrame_eq (overlapping s) s
    rw [h]
    exact ⟨p, f, _, _, rfl⟩

/-! ## The tick: only voices and the ring itself change -/

theorem tickNoteSlot_eq (s : State Z) (j : Fin Z.RN) :
    ∃ vs r, tickNoteSlot s j = { s with voices := vs, nres := r } := by
  unfold tickNoteSlot
  dsimp only
  split_ifs
  · exact ⟨_, _, rfl⟩
  · exact ⟨s.voices, _, rfl⟩
  · exact ⟨s.voices, s.nres, rfl⟩

theorem tickPressSlot_eq (s : State Z) (j : Fin Z.RP) :
    ∃ vs r, tickPressSlot s j = { s with voices := vs, pres := r } := by
  unfold tickPressSlot
  dsimp only
  split_ifs
  · exact ⟨_, _, rfl⟩
  · exact ⟨s.voices, _, rfl⟩
  · exact ⟨s.voices, s.pres, rfl⟩

theorem foldl_tickNoteSlot_eq (js : List (Fin Z.RN)) (s : State Z) :
    ∃ vs r, js.foldl tickNoteSlot s = { s with voices := vs, nres := r } := by
  induction js generalizing s with
  | nil => exact ⟨_, _, rfl⟩
  | cons j js ih =>
    obtain ⟨vs, r, h⟩ := tickNoteSlot_eq s j
    obtain ⟨vs', r', h'⟩ := ih { s with voices := vs, nres := r }
    exact ⟨vs', r', by rw [List.foldl_cons, h, h']⟩

theorem foldl_tickPressSlot_eq (js : List (Fin Z.RP)) (s : State Z) :
    ∃ vs r, js.foldl tickPressSlot s = { s with voices := vs, pres := r } := by
  induction js generalizing s with
  | nil => exact ⟨_, _, rfl⟩
  | cons j js ih =>
    obtain ⟨vs, r, h⟩ := tickPressSlot_eq s j
    obtain ⟨vs', r', h'⟩ := ih { s with voices := vs, pres := r }
    exact ⟨vs', r', by rw [List.foldl_cons, h, h']⟩

/-- TICK changes voices and rings alone (46_scheduler.md R274). -/
theorem tick_eq (s : State Z) : ∃ vs n p, tick s = { s with voices := vs, nres := n, pres := p } := by
  obtain ⟨vs, n, h⟩ := foldl_tickNoteSlot_eq (indices Z.RN) { s with voices := tickAges s.voices }
  obtain ⟨vs', p, h'⟩ :=
    foldl_tickPressSlot_eq (indices Z.RP) { s with voices := vs, nres := n }
  exact ⟨vs', n, p, by unfold tick; dsimp only; rw [h]; exact h'⟩

/-! ## The delay -/

/-- DELAY.STEP changes the delay alone, and the free-value counter where a free value was taken (48_delay.md R331). -/
theorem delayRun_eq (xl xr : Num) (s : State Z) :
    ∃ d f, (delayRun xl xr s).1 = { s with dly := d, free := f } := ⟨_, _, rfl⟩

/-- Where the delay is backed by its RAM no free value is taken: the element at the cursor is read and written, and the
cursor counts modulo the length (48_delay.md R332). -/
theorem delayRun_of_backed {xl xr : Num} {s : State Z} (h : delayBacked s = true) :
    (delayRun xl xr s).1 = { s with dly := (delayStep s.cfg s.dcap s.free s.dly xl xr).1 } := by
  simp [delayRun, h]

theorem delayRead_of_lt {dcap tag : Nat} {d : DelayChan} (h : d.w < dcap) : delayRead dcap tag d = ramRead d.ram d.w :=
  if_pos h

theorem delayWrite_of_lt {dcap : Nat} {d : DelayChan} (v : Num) (h : d.w < dcap) :
    delayWrite dcap d v = ramWrite d.ram d.w v := if_pos h

theorem nextCursor_of_pos {len tag w : Nat} (h : 0 < len) : nextCursor len tag w = (w + 1) % len :=
  if_neg (by omega)

/-- A cursor advanced modulo a length stays below it (10_state.md R59). -/
theorem nextCursor_lt {len tag w : Nat} (h : 0 < len) : nextCursor len tag w < len := by
  rw [nextCursor_of_pos h]
  exact Nat.mod_lt _ h

/-- DELAY.STEP's write keeps the canonical form, lists no element the RAM does not have, and changes the element at the
cursor alone. -/
theorem delayWrite_spec {dcap : Nat} {d : DelayChan} (v : Num) (h : Memory.wf ramDefault d.ram = true) :
    Memory.wf ramDefault (delayWrite dcap d v) = true ∧
      (∀ e ∈ delayWrite dcap d v, e.1 < dcap ∨ e ∈ d.ram) ∧
      ∀ a, ramRead (delayWrite dcap d v) a = if a = d.w ∧ d.w < dcap then v else ramRead d.ram a := by
  unfold delayWrite
  split
  · rename_i hw
    refine ⟨wf_ramWrite h _ _, fun e he => ?_, fun a => ?_⟩
    · rcases mem_memWrite he with he | he
      · exact .inl (he ▸ hw)
      · exact .inr he
    · by_cases ha : a = d.w
      · rw [if_pos ⟨ha, hw⟩, ha, ramRead_ramWrite_same h]
      · rw [if_neg fun hx => ha hx.1, ramRead_ramWrite_other _ _ ha]
  · rename_i hw
    exact ⟨h, fun e he => .inr he, fun a => by rw [if_neg fun hx => hw hx.2]⟩

/-! ## Samples -/

/-- One sample changes voices, rings, the delay, the free-value counter and the output alone (49_processor.md R364). -/
theorem sample_eq (s : State Z) :
    ∃ vs n p d f o,
      sample s = { s with voices := vs, nres := n, pres := p, dly := d, free := f, out := s.out ++ [o] } := by
  obtain ⟨vs, n, p, h⟩ := tick_eq s
  unfold sample
  simp only [h]
  exact ⟨_, _, _, _, _, _, rfl⟩

/-- `n` samples emit `n` pairs and change voices, rings, the delay and the free-value counter besides
(49_processor.md R363, R368). -/
theorem samples_eq (n : Nat) (s : State Z) :
    ∃ vs nr pr d f os,
      samples n s = { s with voices := vs, nres := nr, pres := pr, dly := d, free := f, out := s.out ++ os } ∧
        os.length = n := by
  induction n generalizing s with
  | zero => exact ⟨s.voices, s.nres, s.pres, s.dly, s.free, [], by simp [samples], rfl⟩
  | succ n ih =>
    obtain ⟨vs, nr, pr, d, f, o, h⟩ := sample_eq s
    obtain ⟨vs', nr', pr', d', f', os, h', hl⟩ := ih (sample s)
    refine ⟨vs', nr', pr', d', f', o :: os, ?_, by simp [hl]⟩
    rw [samples, h', h]
    simp

/-! ## Issuing a unit operation on its own -/

theorem issue_of_next {i : Instr Z} {s t : State Z} (h : Z.exec i s = .next t) : issue i s = t := by
  simp [issue, h]

@[simp] theorem issue_tick (s : State Z) : issue .tick s = returned (tick s) [] := rfl

@[simp] theorem issue_applyNoteon (ev : MidiNote Z) (s : State Z) :
    issue (.applyNoteon ev) s = returned { s with voices := noteOn s.cfg s.table s.voices ev } [] := rfl

@[simp] theorem issue_applyNoteoff (ev : MidiNote Z) (s : State Z) :
    issue (.applyNoteoff ev) s = returned { s with voices := noteOff s.voices ev } [] := rfl

@[simp] theorem issue_applyPressure (ev : MidiNote Z) (p : Num) (s : State Z) :
    issue (.applyPressure ev p) s = returned (applyPressure ev p s) [] := rfl

@[simp] theorem issue_voiceStart (v : Fin Z.NV) (s : State Z) :
    issue (.voiceStart v) s = returned (setVoice s v (voiceStart s.voices[v])) [] := rfl

@[simp] theorem issue_voiceRestart (v : Fin Z.NV) (s : State Z) :
    issue (.voiceRestart v) s = returned (setVoice s v (voiceRestart s.voices[v])) [] := rfl

@[simp] theorem issue_syncStep (v : Fin Z.NV) (k : Fin Z.NS) (d : Num) (s : State Z) :
    issue (.syncStep v k d) s =
      returned (setVoice s v (syncVoice s.voices[v] k d).1) [(syncVoice s.voices[v] k d).2] := rfl

@[simp] theorem issue_carStep (v : Fin Z.NV) (k : Fin Z.NS) (d p f : Num) (s : State Z) :
    issue (.carStep v k d p f) s = returned (setVoice s v (carVoice s.cfg s.voices[v] k d p f).1)
      [(carVoice s.cfg s.voices[v] k d p f).2] := rfl

@[simp] theorem issue_modStep (v : Fin Z.NV) (k : Fin Z.NS) (d p : Num) (s : State Z) :
    issue (.modStep v k d p) s = returned (setVoice s v (modVoice s.cfg s.voices[v] k d p).1)
      [(modVoice s.cfg s.voices[v] k d p).2] := rfl

@[simp] theorem issue_lfoStep (v : Fin Z.NV) (sp lv : Num) (s : State Z) :
    issue (.lfoStep v sp lv) s =
      returned (setVoice s v (lfoStep s.cfg s.voices[v] sp lv).1) [(lfoStep s.cfg s.voices[v] sp lv).2] := rfl

@[simp] theorem issue_envStep (e : EnvSel) (v : Fin Z.NV) (g : Bool) (s : State Z) :
    issue (.envStep e v g) s =
      returned (setVoice s v (envVoice s.cfg s.voices[v] e g).1) [(envVoice s.cfg s.voices[v] e g).2] := rfl

@[simp] theorem issue_svfRetune (co rs mx : Num) (s : State Z) :
    issue (.svfRetune co rs mx) s = returned s [(svfRetune s.cfg co rs mx).alpha, (svfRetune s.cfg co rs mx).damping,
      (svfRetune s.cfg co rs mx).mix] := rfl

@[simp] theorem issue_svfStep (v : Fin Z.NV) (c : Chan) (a d x : Num) (s : State Z) :
    issue (.svfStep v c a d x) s =
      returned (setVoice s v (svfVoice s.voices[v] c a d x).1) [(svfVoice s.voices[v] c a d x).2] := rfl

@[simp] theorem issue_modAdd (d : Dest) (p : PerSource) (s : State Z) :
    issue (.modAdd d p) s = returned s [modAdd (destGet s.cfg.depth d) p] := rfl

@[simp] theorem issue_modMulbias (d : Dest) (p : PerSource) (s : State Z) :
    issue (.modMulbias d p) s = returned s [modMulbias Z (destGet s.cfg.depth d) p] := rfl

@[simp] theorem issue_modPitch (d : Dest) (p : PerSource) (s : State Z) :
    issue (.modPitch d p) s = returned s [modPitch (destGet s.cfg.depth d) p] := rfl

@[simp] theorem issue_stackRender (v : Fin Z.NV) (pm pn f : Num) (s : State Z) :
    issue (.stackRender v pm pn f) s = returned (setVoice s v (stackRender s.cfg s.voices[v] pm pn f).1)
      [(stackRender s.cfg s.voices[v] pm pn f).2.1, (stackRender s.cfg s.voices[v] pm pn f).2.2] := rfl

@[simp] theorem issue_voiceRender (v : Fin Z.NV) (s : State Z) :
    issue (.voiceRender v) s = returned (setVoice s v (voiceRender s.cfg s.voices[v]).1)
      [(voiceRender s.cfg s.voices[v]).2.1, (voiceRender s.cfg s.voices[v]).2.2] := rfl

@[simp] theorem issue_mix (sel : BitVec Z.NV) (s : State Z) :
    issue (.mix sel) s = returned { s with voices := (mixVoices s.cfg s.voices (maskVoices sel)).1 }
      [(mixVoices s.cfg s.voices (maskVoices sel)).2.1, (mixVoices s.cfg s.voices (maskVoices sel)).2.2] := rfl

@[simp] theorem issue_out (a b c d : Num) (s : State Z) : issue (.out a b c d) s = returned (outStep a b c d s) [] := rfl

@[simp] theorem issue_delayStep (xl xr : Num) (s : State Z) :
    issue (.delayStep xl xr) s = returned (delayRun xl xr s).1 [(delayRun xl xr s).2.1, (delayRun xl xr s).2.2] := rfl

/-! ## One step -/

/-- What a step can do, said once: hold the reset table, run what the ports hold, or run it and be cut short by a reset
asserted during it (70_reset_and_hazards.md R430). -/
theorem step_cases {s t : State Z} (h : Z.step s = .next t) :
    s.resetIn = true ∧ t = hardReset s ∨
    s.resetIn = false ∧ s.resetAfter = none ∧ advance Z.exec s = .next t ∨
    s.resetIn = false ∧ ∃ n u, s.resetAfter = some n ∧ advance Z.exec { s with resetAfter := none } = .next u ∧
      t = cutShort n s u := by
  unfold Config.Params.step takeStep at h
  split at h
  · cases h
    exact .inl ⟨by assumption, rfl⟩
  · rename_i hr
    have hr : s.resetIn = false := by simpa using hr
    split at h
    · exact .inr (.inl ⟨hr, by assumption, h⟩)
    · split at h
      · cases h
        exact .inr (.inr ⟨hr, _, _, by assumption, by assumption, rfl⟩)
      · cases h
      · cases h

/-- `exec` is the execution of the reference instance (00_scope.md R9). -/
theorem exec_eq (i : Instr) (s : State) : exec i s = Config.params.exec i s := by
  cases i <;> rfl

/-- `step` is the step of the reference instance. -/
theorem step_eq (s : State) : step s = Config.params.step s := by
  have : exec = Config.params.exec := funext fun i => funext fun s => exec_eq i s
  rw [step, Config.Params.step, this]

@[simp] theorem result_returned (s : State Z) (xs : List Num) (n : Nat) : result (returned s xs) n = xs.getD n n0 := rfl

end Sys2Proof.Machine
end

