-- ==== Sys2Proof/Laws/PerInstr.lean ====
section
/-! SUPPORT. Per instruction: its encoding is a frame of the length its own first word announces, on its own port
(30_encoding.md R112, R116; assumption 9 for the unit operations), with the opcode or id the table gives it. -/

namespace Sys2Proof.Laws

variable {Z : Config.Params}

/-- The number the opcode table gives an instruction: a command's `op` (30_encoding.md R117) or a unit operation's id
(30_encoding.md R120). -/
def FrameShape.number : Instr Z → Nat
  | .activate _ => 0x01
  | .deactivate => 0x02
  | .recalc _ => 0x03
  | .reserve _ _ _ _ _ => 0x04
  | .reservep _ _ _ _ _ => 0x05
  | .process _ _ => 0x06
  | .pwrite _ _ => 0x07
  | .cfgWave _ _ _ => 0x10
  | .cfgOp _ => 0x11
  | .cfgEnv _ => 0x12
  | .cfgLp1 _ _ => 0x13
  | .cfgSvf => 0x14
  | .cfgModdest => 0x15
  | .cfgTune _ => 0x16
  | .cfgStack => 0x17
  | .cfgDelay => 0x18
  | .cfgGlobal _ => 0x19
  | .tick => 0x20
  | .applyNoteon _ => 0x21
  | .applyNoteoff _ => 0x22
  | .applyPressure _ _ => 0x23
  | .voiceStart _ => 0x24
  | .voiceRestart _ => 0x25
  | .syncStep _ _ _ => 0x30
  | .carStep _ _ _ _ _ => 0x32
  | .modStep _ _ _ _ => 0x33
  | .lfoStep _ _ _ => 0x34
  | .envStep _ _ _ => 0x35
  | .lp1Step _ _ _ => 0x36
  | .hp1Step _ _ _ => 0x37
  | .svfRetune _ _ _ => 0x38
  | .svfStep _ _ _ _ _ => 0x39
  | .modAdd _ _ => 0x3A
  | .modMulbias _ _ => 0x3B
  | .modPitch _ _ => 0x3C
  | .stackRender _ _ _ _ => 0x3D
  | .voiceRender _ => 0x3E
  | .delayStep _ _ => 0x3F
  | .mix _ => 0x40
  | .out _ _ _ _ => 0x41

/-- The first word of the encoding carries the instruction's number, and announces the frame's length. -/
def FrameShape.Statement (i : Instr Z) : Prop :=
  ∃ h ops, encode i = h :: ops ∧ frameLength (portOf i) h = ops.length + 1 ∧
    (match portOf i with
      | .command => opField h
      | .control => opField h
      | .unitOp => uopField h) = FrameShape.number i

theorem opField_header (op a : BitVec 8) (b : BitVec 16) : opField (header op a b) = op.toNat := by
  unfold opField header
  congr 1
  ext i hi
  simp only [BitVec.getElem_extractLsb', BitVec.getLsbD_append]
  interval_cases i <;> simp

theorem uopField_unitHeader (u x y z : Nat) : uopField (unitHeader u x y z) = u % 256 := by
  unfold uopField unitHeader
  rw [← BitVec.toNat_ofNat (x := u) (w := 8)]
  congr 1
  ext i hi
  simp only [BitVec.getElem_extractLsb', BitVec.getLsbD_append]
  interval_cases i <;> simp

theorem uopField_mask (m : BitVec 24) (u : BitVec 8) : uopField (m ++ u) = u.toNat := by
  unfold uopField
  congr 1
  ext i hi
  simp only [BitVec.getElem_extractLsb', BitVec.getLsbD_append]
  interval_cases i <;> simp

theorem frameShape_command {i : Instr Z} {op a : BitVec 8} {b : BitVec 16} {ops : List Word} (hp : portOf i = .command)
    (he : encode i = header op a b :: ops) (hn : op.toNat = FrameShape.number i)
    (hl : frameWords (header op a b) = ops.length + 1) : FrameShape.Statement i := by
  refine ⟨_, ops, he, ?_, ?_⟩ <;> rw [hp]
  · exact hl
  · exact (opField_header op a b).trans hn

theorem frameShape_unit {i : Instr Z} {h : Word} {u : Nat} {ops : List Word} (hp : portOf i = .unitOp)
    (he : encode i = h :: ops) (hu : uopField h = u) (hn : u = FrameShape.number i)
    (hl : unitOperandWords u = some ops.length) : FrameShape.Statement i := by
  refine ⟨_, ops, he, ?_, ?_⟩ <;> rw [hp]
  · simp [frameLength, hu, hl]
  · exact hu.trans hn

theorem FrameShape.activate (fs : Num) : FrameShape.Statement (Z := Z) (.activate fs) :=
  frameShape_command rfl rfl rfl (by simp [frameWords, opField_header, numWords])
theorem FrameShape.deactivate : FrameShape.Statement (Z := Z) .deactivate :=
  frameShape_command rfl rfl rfl (by simp [frameWords, opField_header])
theorem FrameShape.recalc (fs : Num) : FrameShape.Statement (Z := Z) (.recalc fs) :=
  frameShape_command rfl rfl rfl (by simp [frameWords, opField_header, numWords])
theorem FrameShape.reserve (ch : BitVec 8) (pitch velocity : Num) (id offset : Word) :
    FrameShape.Statement (Z := Z) (.reserve ch pitch velocity id offset) :=
  frameShape_command rfl rfl rfl (by simp [frameWords, opField_header, numWords])
theorem FrameShape.reservep (ch : BitVec 8) (pitch pressure : Num) (id offset : Word) :
    FrameShape.Statement (Z := Z) (.reservep ch pitch pressure id offset) :=
  frameShape_command rfl rfl rfl (by simp [frameWords, opField_header, numWords])
theorem FrameShape.process (fs : Num) (count : Word) : FrameShape.Statement (Z := Z) (.process fs count) :=
  frameShape_command rfl rfl rfl (by simp [frameWords, opField_header, numWords])
theorem FrameShape.pwrite (addr : BitVec 16) (value : Num) : FrameShape.Statement (Z := Z) (.pwrite addr value) :=
  frameShape_command rfl rfl rfl (by simp [frameWords, opField_header, numWords])
theorem FrameShape.cfgWave (dst : WaveDst) (shapeX shapeY : Num) :
    FrameShape.Statement (Z := Z) (.cfgWave dst shapeX shapeY) :=
  frameShape_unit rfl rfl (uopField_unitHeader _ _ _ _) rfl rfl
theorem FrameShape.cfgOp (op : OpSel) : FrameShape.Statement (Z := Z) (.cfgOp op) :=
  frameShape_unit rfl rfl (uopField_unitHeader _ _ _ _) rfl rfl
theorem FrameShape.cfgEnv (e : EnvSel) : FrameShape.Statement (Z := Z) (.cfgEnv e) :=
  frameShape_unit rfl rfl (uopField_unitHeader _ _ _ _) rfl rfl
theorem FrameShape.cfgLp1 (f : OnePole) (cutoff : Num) : FrameShape.Statement (Z := Z) (.cfgLp1 f cutoff) :=
  frameShape_unit rfl rfl (uopField_unitHeader _ _ _ _) rfl rfl
theorem FrameShape.cfgSvf : FrameShape.Statement (Z := Z) .cfgSvf :=
  frameShape_unit rfl rfl (uopField_unitHeader _ _ _ _) rfl rfl
theorem FrameShape.cfgModdest : FrameShape.Statement (Z := Z) .cfgModdest :=
  frameShape_unit rfl rfl (uopField_unitHeader _ _ _ _) rfl rfl
theorem FrameShape.cfgTune (ch : Fin Z.NCH) : FrameShape.Statement (Z := Z) (.cfgTune ch) :=
  frameShape_unit rfl rfl (uopField_unitHeader _ _ _ _) rfl rfl
theorem FrameShape.cfgStack : FrameShape.Statement (Z := Z) .cfgStack :=
  frameShape_unit rfl rfl (uopField_unitHeader _ _ _ _) rfl rfl
theorem FrameShape.cfgDelay : FrameShape.Statement (Z := Z) .cfgDelay :=
  frameShape_unit rfl rfl (uopField_unitHeader _ _ _ _) rfl rfl
theorem FrameShape.cfgGlobal (fs : Num) : FrameShape.Statement (Z := Z) (.cfgGlobal fs) :=
  frameShape_unit rfl rfl (uopField_unitHeader _ _ _ _) rfl rfl
theorem FrameShape.tick : FrameShape.Statement (Z := Z) .tick :=
  frameShape_unit rfl rfl (uopField_unitHeader _ _ _ _) rfl rfl
theorem FrameShape.applyNoteon (ev : MidiNote Z) : FrameShape.Statement (Z := Z) (.applyNoteon ev) :=
  frameShape_unit rfl rfl (uopField_unitHeader _ _ _ _) rfl rfl
theorem FrameShape.applyNoteoff (ev : MidiNote Z) : FrameShape.Statement (Z := Z) (.applyNoteoff ev) :=
  frameShape_unit rfl rfl (uopField_unitHeader _ _ _ _) rfl rfl
theorem FrameShape.applyPressure (ev : MidiNote Z) (pressure : Num) :
    FrameShape.Statement (Z := Z) (.applyPressure ev pressure) :=
  frameShape_unit rfl rfl (uopField_unitHeader _ _ _ _) rfl rfl
theorem FrameShape.voiceStart (v : Fin Z.NV) : FrameShape.Statement (Z := Z) (.voiceStart v) :=
  frameShape_unit rfl rfl (uopField_unitHeader _ _ _ _) rfl rfl
theorem FrameShape.voiceRestart (v : Fin Z.NV) : FrameShape.Statement (Z := Z) (.voiceRestart v) :=
  frameShape_unit rfl rfl (uopField_unitHeader _ _ _ _) rfl rfl
theorem FrameShape.syncStep (v : Fin Z.NV) (k : Fin Z.NS) (dS : Num) :
    FrameShape.Statement (Z := Z) (.syncStep v k dS) :=
  frameShape_unit rfl rfl (uopField_unitHeader _ _ _ _) rfl rfl
theorem FrameShape.carStep (v : Fin Z.NV) (k : Fin Z.NS) (delta pulse fmIn : Num) :
    FrameShape.Statement (Z := Z) (.carStep v k delta pulse fmIn) :=
  frameShape_unit rfl rfl (uopField_unitHeader _ _ _ _) rfl rfl
theorem FrameShape.modStep (v : Fin Z.NV) (k : Fin Z.NS) (delta pulse : Num) :
    FrameShape.Statement (Z := Z) (.modStep v k delta pulse) :=
  frameShape_unit rfl rfl (uopField_unitHeader _ _ _ _) rfl rfl
theorem FrameShape.lfoStep (v : Fin Z.NV) (sp lv : Num) : FrameShape.Statement (Z := Z) (.lfoStep v sp lv) :=
  frameShape_unit rfl rfl (uopField_unitHeader _ _ _ _) rfl rfl
theorem FrameShape.envStep (e : EnvSel) (v : Fin Z.NV) (gate : Bool) :
    FrameShape.Statement (Z := Z) (.envStep e v gate) :=
  frameShape_unit rfl rfl (uopField_unitHeader _ _ _ _) rfl rfl
theorem FrameShape.lp1Step (c : Chan) (alpha x : Num) : FrameShape.Statement (Z := Z) (.lp1Step c alpha x) :=
  frameShape_unit rfl rfl (uopField_unitHeader _ _ _ _) rfl rfl
theorem FrameShape.hp1Step (c : Chan) (alpha x : Num) : FrameShape.Statement (Z := Z) (.hp1Step c alpha x) :=
  frameShape_unit rfl rfl (uopField_unitHeader _ _ _ _) rfl rfl
theorem FrameShape.svfRetune (co rs mx : Num) : FrameShape.Statement (Z := Z) (.svfRetune co rs mx) :=
  frameShape_unit rfl rfl (uopField_unitHeader _ _ _ _) rfl rfl
theorem FrameShape.svfStep (v : Fin Z.NV) (c : Chan) (alpha damping x : Num) :
    FrameShape.Statement (Z := Z) (.svfStep v c alpha damping x) :=
  frameShape_unit rfl rfl (uopField_unitHeader _ _ _ _) rfl rfl
theorem FrameShape.modAdd (d : Dest) (src : PerSource) : FrameShape.Statement (Z := Z) (.modAdd d src) :=
  frameShape_unit rfl rfl (uopField_unitHeader _ _ _ _) rfl rfl
theorem FrameShape.modMulbias (d : Dest) (src : PerSource) : FrameShape.Statement (Z := Z) (.modMulbias d src) :=
  frameShape_unit rfl rfl (uopField_unitHeader _ _ _ _) rfl rfl
theorem FrameShape.modPitch (d : Dest) (src : PerSource) : FrameShape.Statement (Z := Z) (.modPitch d src) :=
  frameShape_unit rfl rfl (uopField_unitHeader _ _ _ _) rfl rfl
theorem FrameShape.stackRender (v : Fin Z.NV) (pm pn f : Num) : FrameShape.Statement (Z := Z) (.stackRender v pm pn f) :=
  frameShape_unit rfl rfl (uopField_unitHeader _ _ _ _) rfl rfl
theorem FrameShape.voiceRender (v : Fin Z.NV) : FrameShape.Statement (Z := Z) (.voiceRender v) :=
  frameShape_unit rfl rfl (uopField_unitHeader _ _ _ _) rfl rfl
theorem FrameShape.delayStep (xl xr : Num) : FrameShape.Statement (Z := Z) (.delayStep xl xr) :=
  frameShape_unit rfl rfl (uopField_unitHeader _ _ _ _) rfl rfl
theorem FrameShape.mix (sel : BitVec Z.NV) : FrameShape.Statement (Z := Z) (.mix sel) :=
  frameShape_unit rfl rfl (uopField_mask _ _) rfl rfl
theorem FrameShape.out (mixL mixR dl dr : Num) : FrameShape.Statement (Z := Z) (.out mixL mixR dl dr) :=
  frameShape_unit rfl rfl (uopField_unitHeader _ _ _ _) rfl rfl

end Sys2Proof.Laws
end

