-- ==== Sys2Proof/Laws/Rounding.lean ====
section
/-! SUPPORT. What the one rounding of every operation can do: a result lies between any two numbers that the exact value
lies between. From it, the same of `fadd`, `fsub`, `fmul` and `fdiv` (00_scope.md R8, R14). -/

namespace Sys2Proof.Machine

/-! ## Fields and magnitudes -/

/-- The exponent and fraction fields of a pattern as one number. -/
def fieldsOf (x : Num) : Nat := x.toNat % 2 ^ 63

/-- The magnitude that exponent and fraction fields stand for, in units of `2^-1074`. -/
def magOf (f : Nat) : Nat := if f / 2 ^ 52 = 0 then f % 2 ^ 52 else (2 ^ 52 + f % 2 ^ 52) * 2 ^ (f / 2 ^ 52 - 1)

/-- The fields of an infinity. -/
def infFields : Nat := 2047 * 2 ^ 52

theorem expField_eq (x : Num) : expField x = fieldsOf x / 2 ^ 52 := by
  unfold expField fieldsOf
  rw [BitVec.extractLsb'_toNat, Nat.shiftRight_eq_div_pow]
  omega

theorem fracField_eq (x : Num) : fracField x = fieldsOf x % 2 ^ 52 := by
  unfold fracField fieldsOf
  rw [BitVec.extractLsb'_toNat, Nat.shiftRight_eq_div_pow]
  omega

theorem magUnits_eq (x : Num) : magUnits x = magOf (fieldsOf x) := by
  unfold magUnits magOf
  rw [expField_eq, fracField_eq]

theorem magOf_lt_succ (f : Nat) : magOf f < magOf (f + 1) := by
  have hp : (0 : Nat) < 2 ^ (f / 2 ^ 52 - 1) := by positivity
  unfold magOf
  by_cases hc : f % 2 ^ 52 = 2 ^ 52 - 1
  · have h1 : (f + 1) % 2 ^ 52 = 0 := by omega
    have h2 : (f + 1) / 2 ^ 52 = f / 2 ^ 52 + 1 := by omega
    rw [h1, h2, hc, if_neg (by omega : ¬ f / 2 ^ 52 + 1 = 0)]
    split
    · rename_i h0
      rw [h0]
      norm_num
    · rename_i h0
      have : f / 2 ^ 52 + 1 - 1 = (f / 2 ^ 52 - 1) + 1 := by omega
      rw [this, pow_succ]
      have key : ∀ p : Nat, 0 < p → (2 ^ 52 + (2 ^ 52 - 1)) * p < (2 ^ 52 + 0) * (p * 2) := fun p hp => by omega
      exact key _ hp
  · have h1 : (f + 1) % 2 ^ 52 = f % 2 ^ 52 + 1 := by omega
    have h2 : (f + 1) / 2 ^ 52 = f / 2 ^ 52 := by omega
    rw [h1, h2]
    split
    · omega
    · nlinarith

theorem magOf_strictMono : StrictMono magOf := strictMono_nat_of_lt_succ magOf_lt_succ

/-- The fields that a shift and a significand below `2^53` make stand for their product. -/
theorem magOf_shift {sh m : Nat} (hm : m ≤ 2 ^ 53) (h : sh = 0 ∨ 2 ^ 52 ≤ m) : magOf (sh * 2 ^ 52 + m) = m * 2 ^ sh := by
  unfold magOf
  rcases Nat.lt_or_ge m (2 ^ 52) with h1 | h1
  · obtain rfl : sh = 0 := by omega
    rw [if_pos (by omega)]
    omega
  · rcases Nat.lt_or_ge m (2 ^ 53) with h2 | h2
    · have e1 : (sh * 2 ^ 52 + m) / 2 ^ 52 = sh + 1 := by omega
      have e2 : (sh * 2 ^ 52 + m) % 2 ^ 52 = m - 2 ^ 52 := by omega
      rw [e1, e2, if_neg (by omega), Nat.add_sub_cancel, Nat.add_sub_cancel' h1]
    · obtain rfl : m = 2 ^ 53 := by omega
      have e1 : (sh * 2 ^ 52 + 2 ^ 53) / 2 ^ 52 = sh + 2 := by omega
      have e2 : (sh * 2 ^ 52 + 2 ^ 53) % 2 ^ 52 = 0 := by omega
      rw [e1, e2, if_neg (by omega)]
      have : sh + 2 - 1 = sh + 1 := by omega
      rw [this, pow_succ]
      ring

/-- What rounding a magnitude can do, said once: the exact value lies between the neighbours `g` and `g + 1`, and the
result is the nearer one, at equal distance the even one (00_scope.md R8, R14). -/
theorem roundMag_spec {num den : Nat} (hd : 0 < den) :
    ∃ g, magOf g * den ≤ num ∧ num < magOf (g + 1) * den ∧
      roundMag 53 num den = if (magOf g + magOf (g + 1)) * den < 2 * num ∨
        (2 * num = (magOf g + magOf (g + 1)) * den ∧ g % 2 = 1) then g + 1 else g := by
  set sh := Nat.log2 (num / den) - 52 with hsh
  set d := den * 2 ^ sh with hdd
  set m := num / d with hm
  have hd0 : 0 < d := by positivity
  have hq : m = num / den / 2 ^ sh := by rw [hm, hdd, Nat.div_div_eq_div_mul]
  have hrange : m < 2 ^ 53 ∧ (sh = 0 ∨ 2 ^ 52 ≤ m) := by
    rcases Nat.eq_zero_or_pos (num / den) with h0 | h0
    · have : sh = 0 := by rw [hsh, h0]; rfl
      exact ⟨by rw [hq, h0, Nat.zero_div]; norm_num, .inl this⟩
    · have hlo : 2 ^ Nat.log2 (num / den) ≤ num / den := Nat.log2_self_le (by omega)
      have hhi : num / den < 2 ^ (Nat.log2 (num / den) + 1) := Nat.lt_log2_self
      refine ⟨?_, ?_⟩
      · rw [hq, Nat.div_lt_iff_lt_mul (by positivity), ← pow_add]
        exact lt_of_lt_of_le hhi (Nat.pow_le_pow_right (by norm_num) (by omega))
      · rcases Nat.eq_zero_or_pos sh with h | h
        · exact .inl h
        · right
          rw [hq, Nat.le_div_iff_mul_le (by positivity), ← pow_add]
          exact le_trans (Nat.pow_le_pow_right (by norm_num) (by omega)) hlo
  have hg : magOf (sh * 2 ^ 52 + m) * den = d * m := by
    rw [magOf_shift hrange.1.le hrange.2, hdd]
    ring
  have hg1 : magOf (sh * 2 ^ 52 + m + 1) * den = d * m + d := by
    rw [Nat.add_assoc, magOf_shift (by omega) (by omega), hdd]
    ring
  have hmod := Nat.div_add_mod num d
  have hlt := Nat.mod_lt num hd0
  rw [← hm] at hmod
  refine ⟨sh * 2 ^ 52 + m, by omega, by omega, ?_⟩
  have hr : roundMag 53 num den = sh * 2 ^ 52 +
      (if (decide (d < 2 * (num % d)) || (decide (2 * (num % d) = d) && decide (m % 2 = 1))) = true then m + 1 else m) := rfl
  rw [hr, Nat.add_mul, hg, hg1]
  simp only [Bool.or_eq_true, Bool.and_eq_true, decide_eq_true_eq]
  split <;> split <;> omega

/-- Rounding never crosses a representable magnitude from below... -/
theorem le_roundMag {f num den : Nat} (hd : 0 < den) (h : magOf f * den ≤ num) : f ≤ roundMag 53 num den := by
  obtain ⟨g, -, h2, h3⟩ := roundMag_spec (num := num) hd
  have : f < g + 1 := magOf_strictMono.lt_iff_lt.mp (lt_of_mul_lt_mul_right (lt_of_le_of_lt h h2) (Nat.zero_le _))
  rw [h3]
  split <;> omega

/-- ... nor from above. -/
theorem roundMag_le {f num den : Nat} (hd : 0 < den) (h : num ≤ magOf f * den) : roundMag 53 num den ≤ f := by
  obtain ⟨g, h1, h2, h3⟩ := roundMag_spec (num := num) hd
  rw [h3]
  split
  · have h4 : magOf g * den < num := by
      rw [Nat.add_mul] at *
      omega
    exact magOf_strictMono.lt_iff_lt.mp (lt_of_mul_lt_mul_right (lt_of_lt_of_le h4 h) (Nat.zero_le _))
  · exact magOf_strictMono.le_iff_le.mp (le_of_mul_le_mul_right (le_trans h1 h) hd)

/-- A larger magnitude rounds no lower. -/
theorem roundMag_mono {num num' den : Nat} (hd : 0 < den) (h : num ≤ num') :
    roundMag 53 num den ≤ roundMag 53 num' den := by
  obtain ⟨g, h1, -, h3⟩ := roundMag_spec (num := num) hd
  obtain ⟨g', h1', h2', h3'⟩ := roundMag_spec (num := num') hd
  have hg : g < g' + 1 :=
    magOf_strictMono.lt_iff_lt.mp (lt_of_mul_lt_mul_right (lt_of_le_of_lt h1 (lt_of_le_of_lt h h2')) (Nat.zero_le _))
  rw [h3, h3']
  rcases Nat.lt_or_ge g g' with hlt | hge
  · split <;> split <;> omega
  · obtain rfl : g = g' := by omega
    split <;> split <;> omega

/-- Only a quotient of at most a half rounds to 0. -/
theorem roundMag_pos {num den : Nat} (hd : 0 < den) (h : den < 2 * num) : 0 < roundMag 53 num den := by
  obtain ⟨g, h1, h2, h3⟩ := roundMag_spec (num := num) hd
  rw [h3]
  rcases Nat.eq_zero_or_pos g with rfl | hg
  · have e0 : magOf 0 = 0 := by decide +kernel
    have e1 : magOf (0 + 1) = 1 := by decide +kernel
    rw [e0, e1, Nat.zero_add, Nat.one_mul, if_pos (.inl h)]
    exact Nat.one_pos
  · split <;> omega

/-! ## A rounded number against its bounds -/

theorem packNum_toNat (neg : Bool) (f : Nat) :
    (packNum neg f).toNat = (if neg then 2 ^ 63 else 0) + min f infFields := by
  unfold packNum infFields
  rw [BitVec.toNat_ofNat, Nat.mod_eq_of_lt]
  split <;> omega

theorem fieldsOf_packNum (neg : Bool) (f : Nat) : fieldsOf (packNum neg f) = min f infFields := by
  unfold fieldsOf
  rw [packNum_toNat]
  have : min f infFields < 2 ^ 63 := lt_of_le_of_lt (min_le_right _ _) (by unfold infFields; norm_num)
  cases neg <;> simp <;> omega

theorem signBit_packNum (neg : Bool) (f : Nat) : signBit (packNum neg f) = neg := by
  unfold signBit
  rw [BitVec.msb_eq_decide, packNum_toNat]
  have : min f infFields < 2 ^ 63 := lt_of_le_of_lt (min_le_right _ _) (by unfold infFields; norm_num)
  cases neg
  · simp
    omega
  · simp

theorem isNaN_packNum (neg : Bool) (f : Nat) : isNaN (packNum neg f) = false := by
  unfold isNaN
  rw [expField_eq, fracField_eq, fieldsOf_packNum]
  have : min f infFields ≤ infFields := min_le_right _ _
  simp only [infFields] at *
  by_contra h
  simp only [Bool.not_eq_false, Bool.and_eq_true, beq_iff_eq, bne_iff_ne] at h
  omega

theorem units_packNum (neg : Bool) (f : Nat) :
    units (packNum neg f) = if neg then -(magOf (min f infFields) : Int) else (magOf (min f infFields) : Int) := by
  unfold units
  rw [signBit_packNum, magUnits_eq, fieldsOf_packNum]

/-- The fields of a number that is no NaN are an infinity's at most. -/
theorem fieldsOf_le {x : Num} (h : isNaN x = false) : fieldsOf x ≤ infFields := by
  by_contra hc
  have : fieldsOf x < 2 ^ 63 := Nat.mod_lt _ (by norm_num)
  unfold isNaN at h
  rw [expField_eq, fracField_eq] at h
  simp only [infFields] at hc
  have h1 : fieldsOf x / 2 ^ 52 = 2047 := by omega
  have h2 : fieldsOf x % 2 ^ 52 ≠ 0 := by omega
  simp only [h1, beq_self_eq_true, Bool.true_and, bne_eq_false_iff_eq] at h
  exact h2 h

theorem units_nonneg {x : Num} (h : 0 ≤ units x) : units x = (magUnits x : Int) := by
  unfold units at *
  split at h <;> simp_all

theorem units_nonpos {x : Num} (h : units x ≤ 0) : units x = -(magUnits x : Int) := by
  unfold units at *
  split at h <;> simp_all

/-- Rounding stays between any two bounds the exact value is between: the one law of `roundNum` that range claims need. -/
theorem roundNum_between {neg : Bool} {num den : Nat} {lo hi : Num} (hd : 0 < den) (hlo : isNaN lo = false)
    (hhi : isNaN hi = false) (h1 : units lo * den ≤ if neg then -(num : Int) else (num : Int))
    (h2 : (if neg then -(num : Int) else (num : Int)) ≤ units hi * den) :
    fle lo (roundNum neg num den) = true ∧ fle (roundNum neg num den) hi = true := by
  have hd' : (0 : Int) < den := by exact_mod_cast hd
  unfold roundNum
  rw [fle_iff, fle_iff, units_packNum]
  refine ⟨⟨hlo, isNaN_packNum _ _, ?_⟩, isNaN_packNum _ _, hhi, ?_⟩
  · cases neg
    · simp only [Bool.false_eq_true, if_false] at *
      rcases le_or_gt 0 (units lo) with h | h
      · rw [units_nonneg h, magUnits_eq] at h1 ⊢
        have : fieldsOf lo ≤ roundMag 53 num den := le_roundMag hd (by exact_mod_cast h1)
        exact_mod_cast magOf_strictMono.le_iff_le.mpr (le_min this (fieldsOf_le hlo))
      · exact le_trans h.le (by positivity)
    · simp only [if_true] at *
      rcases le_or_gt (units lo) 0 with h | h
      · rw [units_nonpos h, magUnits_eq] at h1 ⊢
        have : roundMag 53 num den ≤ fieldsOf lo := roundMag_le hd (by
          have : (num : Int) ≤ magOf (fieldsOf lo) * den := by linarith
          exact_mod_cast this)
        have := magOf_strictMono.le_iff_le.mpr (le_trans (min_le_left _ infFields) this)
        omega
      · nlinarith [Int.natCast_nonneg num]
  · cases neg
    · simp only [Bool.false_eq_true, if_false] at *
      rcases le_or_gt 0 (units hi) with h | h
      · rw [units_nonneg h, magUnits_eq] at h2 ⊢
        have : roundMag 53 num den ≤ fieldsOf hi := roundMag_le hd (by exact_mod_cast h2)
        exact_mod_cast magOf_strictMono.le_iff_le.mpr (le_trans (min_le_left _ infFields) this)
      · nlinarith [Int.natCast_nonneg num]
    · simp only [if_true] at *
      rcases le_or_gt (units hi) 0 with h | h
      · rw [units_nonpos h, magUnits_eq] at h2 ⊢
        have : fieldsOf hi ≤ roundMag 53 num den := le_roundMag hd (by
          have : (magOf (fieldsOf hi) : Int) * den ≤ num := by linarith
          exact_mod_cast this)
        have := magOf_strictMono.le_iff_le.mpr (le_min this (fieldsOf_le hhi))
        omega
      · have : (0 : Int) ≤ magOf (min (roundMag 53 num den) infFields) := by positivity
        linarith

/-- What lies between two finite numbers is finite. -/
theorem isFinite_of_between {x lo hi : Num} (h1 : fle lo x = true) (h2 : fle x hi = true) (hlo : isFinite lo = true)
    (hhi : isFinite hi = true) : isFinite x = true := by
  have key : ∀ y : Num, isFinite y = true → fieldsOf y < infFields := by
    intro y hy
    have : fieldsOf y < 2 ^ 63 := Nat.mod_lt _ (by norm_num)
    simp only [isFinite, bne_iff_ne, expField_eq] at hy
    simp only [infFields]
    omega
  rw [fle_iff] at h1 h2
  have hx := fieldsOf_le h2.1
  by_contra hc
  have hc' : fieldsOf x = infFields := by
    simp only [isFinite, bne_iff_ne, ne_eq, Decidable.not_not, expField_eq] at hc
    simp only [infFields] at *
    omega
  have hm : magUnits x = magOf infFields := by rw [magUnits_eq, hc']
  have l1 := magOf_strictMono (key lo hlo)
  have l2 := magOf_strictMono (key hi hhi)
  rw [← magUnits_eq] at l1 l2
  have u1 : -(magUnits lo : Int) ≤ units lo := by unfold units; split <;> omega
  have u2 : units hi ≤ magUnits hi := by unfold units; split <;> omega
  have ux : units x = magUnits x ∨ units x = -(magUnits x : Int) := by unfold units; split <;> simp
  omega

/-! ## The operations against their bounds -/

theorem units_zeroOf (neg : Bool) : units (zeroOf neg) = 0 := by cases neg <;> decide +kernel

theorem isNaN_zeroOf (neg : Bool) : isNaN (zeroOf neg) = false := isNaN_packNum _ _

theorem isInf_of_isFinite {x : Num} (h : isFinite x = true) : isInf x = false := by
  simp_all [isFinite, isInf]

/-- A sum of finite numbers lies between any bounds of the exact sum (00_scope.md R14). -/
theorem fadd_between {a b lo hi : Num} (ha : isFinite a = true) (hb : isFinite b = true) (hlo : isNaN lo = false)
    (hhi : isNaN hi = false) (h1 : units lo ≤ units a + units b) (h2 : units a + units b ≤ units hi) :
    fle lo (fadd a b) = true ∧ fle (fadd a b) hi = true := by
  unfold fadd
  simp only [isNaN_of_isFinite ha, isNaN_of_isFinite hb, isInf_of_isFinite ha, isInf_of_isFinite hb, Bool.or_self,
    Bool.false_eq_true, if_false]
  split
  · rename_i h0
    rw [fle_iff, fle_iff, units_zeroOf]
    exact ⟨⟨hlo, isNaN_zeroOf _, h0 ▸ h1⟩, isNaN_zeroOf _, hhi, h0 ▸ h2⟩
  · have e : (if decide (units a + units b < 0) = true then -((units a + units b).natAbs : Int)
        else ((units a + units b).natAbs : Int)) = units a + units b := by
      simp only [decide_eq_true_eq]
      split <;> omega
    exact roundNum_between one_pos hlo hhi (by rw [e]; simpa using h1) (by rw [e]; simpa using h2)

theorem units_fneg {x : Num} : units (fneg x) = -units x := by
  have hs : signBit (fneg x) = !signBit x := by
    have hm : BitVec.msb (0x8000000000000000#64) = true := by decide
    rw [signBit, fneg, BitVec.msb_xor, hm, Bool.xor_true, signBit]
  have hf : fieldsOf (fneg x) = fieldsOf x := by
    have : (fneg x).extractLsb' 0 63 = x.extractLsb' 0 63 := by
      ext i hi
      simp only [fneg, BitVec.getElem_extractLsb', BitVec.getLsbD_xor]
      interval_cases i <;> simp
    have := congrArg BitVec.toNat this
    simpa [fieldsOf] using this
  unfold units
  rw [hs, magUnits_eq, magUnits_eq, hf]
  cases signBit x <;> simp

theorem isFinite_fneg {x : Num} : isFinite (fneg x) = isFinite x := by
  have hf : (fneg x).extractLsb' 52 11 = x.extractLsb' 52 11 := by
    ext i hi
    simp only [fneg, BitVec.getElem_extractLsb', BitVec.getLsbD_xor]
    interval_cases i <;> simp
  simp [isFinite, expField, hf]

/-- A difference of finite numbers lies between any bounds of the exact difference. -/
theorem fsub_between {a b lo hi : Num} (ha : isFinite a = true) (hb : isFinite b = true) (hlo : isNaN lo = false)
    (hhi : isNaN hi = false) (h1 : units lo ≤ units a - units b) (h2 : units a - units b ≤ units hi) :
    fle lo (fsub a b) = true ∧ fle (fsub a b) hi = true :=
  fadd_between ha (by rw [isFinite_fneg]; exact hb) hlo hhi (by rw [units_fneg]; omega) (by rw [units_fneg]; omega)

/-- A product of finite numbers lies between any bounds of the exact product. -/
theorem fmul_between {a b lo hi : Num} (ha : isFinite a = true) (hb : isFinite b = true) (hlo : isNaN lo = false)
    (hhi : isNaN hi = false) (h1 : units lo * (unitsPerOne : Int) ≤ units a * units b)
    (h2 : units a * units b ≤ units hi * (unitsPerOne : Int)) :
    fle lo (fmul a b) = true ∧ fle (fmul a b) hi = true := by
  unfold fmul
  simp only [isNaN_of_isFinite ha, isNaN_of_isFinite hb, isInf_of_isFinite ha, isInf_of_isFinite hb, Bool.or_self,
    Bool.false_eq_true, if_false]
  have e : (if (signBit a != signBit b) = true then -((magUnits a * magUnits b : Nat) : Int)
      else ((magUnits a * magUnits b : Nat) : Int)) = units a * units b := by
    unfold units
    cases signBit a <;> cases signBit b <;> simp
  exact roundNum_between (by unfold unitsPerOne; positivity) hlo hhi (by rw [e]; exact h1) (by rw [e]; exact h2)

/-- A quotient of finite numbers with a positive divisor lies between any bounds of the exact quotient. -/
theorem fdiv_between {a b lo hi : Num} (ha : isFinite a = true) (hb : isFinite b = true) (hlo : isNaN lo = false)
    (hhi : isNaN hi = false) (hpos : 0 < units b) (h1 : units lo * units b ≤ units a * (unitsPerOne : Int))
    (h2 : units a * (unitsPerOne : Int) ≤ units hi * units b) :
    fle lo (fdiv a b) = true ∧ fle (fdiv a b) hi = true := by
  have hz : isZero b = false := by
    by_contra hc
    simp only [isZero, Bool.not_eq_false, Bool.and_eq_true, beq_iff_eq] at hc
    have : magUnits b = 0 := by simp [magUnits, hc.1, hc.2]
    have : units b = 0 := by unfold units; simp [this]
    omega
  have hbm := units_nonneg hpos.le
  have hsb : signBit b = false := by
    by_contra hc
    simp only [Bool.not_eq_false] at hc
    have : units b = -(magUnits b : Int) := by simp [units, hc]
    omega
  unfold fdiv
  simp only [isNaN_of_isFinite ha, isNaN_of_isFinite hb, isInf_of_isFinite ha, isInf_of_isFinite hb, hz, Bool.or_self,
    Bool.false_eq_true, if_false]
  have e : (if (signBit a != signBit b) = true then -((magUnits a * unitsPerOne : Nat) : Int)
      else ((magUnits a * unitsPerOne : Nat) : Int)) = units a * (unitsPerOne : Int) := by
    unfold units
    rw [hsb]
    generalize unitsPerOne = u
    cases signBit a <;> simp
  refine roundNum_between (by omega) hlo hhi (by rw [e, ← hbm]; exact h1) (by rw [e, ← hbm]; exact h2)

/-- A number of non-negative magnitude with the sign bit clear. -/
theorem signBit_of_pos {x : Num} (h : flt n0 x = true) : signBit x = false := by
  have h := (flt_iff.mp h).2.2
  have e0 : units n0 = 0 := by decide +kernel
  rw [e0] at h
  by_contra hc
  simp only [Bool.not_eq_false] at hc
  have : units x = -(magUnits x : Int) := by simp [units, hc]
  omega

/-- A packed magnitude is finite exactly where it stays below the infinities. -/
theorem isFinite_packNum (neg : Bool) (f : Nat) : isFinite (packNum neg f) = decide (f < infFields) := by
  unfold isFinite
  rw [expField_eq, fieldsOf_packNum]
  unfold infFields
  by_cases h : f < 2047 * 2 ^ 52
  · rw [Nat.min_eq_left h.le, decide_eq_true h]
    simp only [bne_iff_ne, ne_eq]
    omega
  · rw [Nat.min_eq_right (not_lt.mp h), decide_eq_false h]
    decide

/-- The product of positive numbers of which neither is infinite is finite where a larger one is. -/
theorem isFinite_fmul_mono {a b c : Num} (ha : isFinite a = true) (hb : isFinite b = true) (hc : isFinite c = true)
    (h : magUnits b ≤ magUnits c) (hp : isFinite (fmul a c) = true) : isFinite (fmul a b) = true := by
  unfold fmul roundNum at *
  simp only [isNaN_of_isFinite ha, isNaN_of_isFinite hb, isNaN_of_isFinite hc, isInf_of_isFinite ha,
    isInf_of_isFinite hb, isInf_of_isFinite hc, Bool.or_self, Bool.false_eq_true, if_false, isFinite_packNum,
    decide_eq_true_eq] at *
  exact lt_of_le_of_lt (roundMag_mono (by unfold unitsPerOne; positivity) (Nat.mul_le_mul_left _ h)) hp

/-! ## Equality -/

/-- A number is a zero exactly where its magnitude is 0. -/
theorem isZero_iff {x : Num} : isZero x = true ↔ magUnits x = 0 := by
  unfold isZero magUnits
  by_cases h : expField x = 0 <;> simp [h]

/-- A pattern is its sign and its magnitude. -/
theorem eq_iff_sign_mag {a b : Num} : a = b ↔ signBit a = signBit b ∧ magUnits a = magUnits b := by
  rw [magUnits_eq, magUnits_eq, magOf_strictMono.injective.eq_iff]
  refine ⟨fun h => by rw [h]; exact ⟨rfl, rfl⟩, fun ⟨h1, h2⟩ => BitVec.eq_of_toNat_eq ?_⟩
  simp only [signBit, BitVec.msb_eq_decide, decide_eq_decide, fieldsOf] at h1 h2
  have := a.isLt
  have := b.isLt
  omega

/-- `Num` equality of numbers that are not NaN is equality bit for bit, but that +0 equals -0 (00_scope.md R14). -/
theorem feq_iff_bits {a b : Num} (ha : isNaN a = false) (hb : isNaN b = false) :
    feq a b = true ↔ a = b ∨ isZero a = true ∧ isZero b = true := by
  have same : feq a b = true ↔ units a = units b := by simp [feq, ha, hb]
  rw [same, eq_iff_sign_mag, isZero_iff, isZero_iff]
  unfold units
  cases signBit a <;> cases signBit b <;> simp <;> omega

/-- With the global id on either side, notes whose pitches are finite are the same exactly where their channels are and
their pitches are bit for bit, or both zero (46_scheduler.md R273; assumption 21 on the zeros). -/
theorem isSame_iff_bits {Z : Config.Params} {a b : MidiNote Z} (ha : isFinite a.pitch = true)
    (hb : isFinite b.pitch = true) (h : a.id = globalId ∨ b.id = globalId) :
    isSame a b = true ↔ a.ch = b.ch ∧ (a.pitch = b.pitch ∨ isZero a.pitch = true ∧ isZero b.pitch = true) := by
  rw [← feq_iff_bits (isNaN_of_isFinite ha) (isNaN_of_isFinite hb)]
  have h : ¬ (a.id ≠ globalId ∧ b.id ≠ globalId) := by tauto
  unfold isSame
  by_cases hc : a.ch = b.ch <;> simp [hc, h]

end Sys2Proof.Machine
end

