-- ==== Sys2Proof/Laws/Ranges.lean ====
section
/-! SUPPORT. Interval arithmetic over the datapath, and the ranges it gives the open functions and the coefficients
(40_primitive_math.md R140 to R147, 45_tuning.md R257). -/

namespace Sys2Proof.Machine

variable {Z : Config.Params}

/-! ## Intervals -/

theorem within_iff {x lo hi : Num} : within x lo hi = true ↔ fle lo x = true ∧ fle x hi = true := by
  simp [within]

theorem inClosedUnit_iff {x : Num} : inClosedUnit x = true ↔ within x n0 n1 = true := Iff.rfl

theorem isFinite_of_within {x lo hi : Num} (h : within x lo hi = true) (hlo : isFinite lo = true)
    (hhi : isFinite hi = true) : isFinite x = true :=
  isFinite_of_between (within_iff.mp h).1 (within_iff.mp h).2 hlo hhi

theorem within_mono {x lo hi lo' hi' : Num} (h : within x lo hi = true) (h1 : fle lo' lo = true)
    (h2 : fle hi hi' = true) : within x lo' hi' = true :=
  within_iff.mpr ⟨fle_trans h1 (within_iff.mp h).1, fle_trans (within_iff.mp h).2 h2⟩

/-- A product of two numbers in non-negative intervals, from the products of the intervals' ends. -/
theorem fmul_within {a b la ha lb hb lo hi : Num} (h1 : within a la ha = true) (h2 : within b lb hb = true)
    (fin : (isFinite la && isFinite ha && isFinite lb && isFinite hb && !isNaN lo && !isNaN hi) = true)
    (pos : 0 ≤ units la ∧ 0 ≤ units lb)
    (hl : units lo * (unitsPerOne : Int) ≤ units la * units lb)
    (hh : units ha * units hb ≤ units hi * (unitsPerOne : Int)) : within (fmul a b) lo hi = true := by
  simp only [Bool.and_eq_true, Bool.not_eq_true'] at fin
  obtain ⟨⟨⟨⟨⟨f1, f2⟩, f3⟩, f4⟩, f5⟩, f6⟩ := fin
  have e1 := within_iff.mp h1
  have e2 := within_iff.mp h2
  rw [fle_iff, fle_iff] at e1 e2
  exact within_iff.mpr (fmul_between (isFinite_of_within h1 f1 f2) (isFinite_of_within h2 f3 f4) f5 f6
    (le_trans hl (mul_le_mul e1.1.2.2 e2.1.2.2 pos.2 (le_trans pos.1 e1.1.2.2)))
    (le_trans (mul_le_mul e1.2.2.2 e2.2.2.2 (le_trans pos.2 e2.1.2.2)
      (le_trans pos.1 (le_trans e1.1.2.2 e1.2.2.2))) hh))

/-- A quotient of a number in a non-negative interval by one in a positive interval. -/
theorem fdiv_within {a b la ha lb hb lo hi : Num} (h1 : within a la ha = true) (h2 : within b lb hb = true)
    (fin : (isFinite la && isFinite ha && isFinite lb && isFinite hb && !isNaN lo && !isNaN hi) = true)
    (pos : 0 ≤ units la ∧ 0 < units lb ∧ 0 ≤ units lo ∧ 0 ≤ units hi)
    (hl : units lo * units hb ≤ units la * (unitsPerOne : Int))
    (hh : units ha * (unitsPerOne : Int) ≤ units hi * units lb) : within (fdiv a b) lo hi = true := by
  simp only [Bool.and_eq_true, Bool.not_eq_true'] at fin
  obtain ⟨⟨⟨⟨⟨f1, f2⟩, f3⟩, f4⟩, f5⟩, f6⟩ := fin
  have e1 := within_iff.mp h1
  have e2 := within_iff.mp h2
  rw [fle_iff, fle_iff] at e1 e2
  have u : (0 : Int) ≤ (unitsPerOne : Int) := Int.natCast_nonneg _
  exact within_iff.mpr (fdiv_between (isFinite_of_within h1 f1 f2) (isFinite_of_within h2 f3 f4) f5 f6
    (lt_of_lt_of_le pos.2.1 e2.1.2.2)
    (le_trans (mul_le_mul_of_nonneg_left e2.2.2.2 pos.2.2.1)
      (le_trans hl (mul_le_mul_of_nonneg_right e1.1.2.2 u)))
    (le_trans (mul_le_mul_of_nonneg_right e1.2.2.2 u)
      (le_trans hh (mul_le_mul_of_nonneg_left e2.1.2.2 pos.2.2.2))))

/-- An integer between two others, as a number, lies between their numbers. -/
theorem ofInt_within {i : Int} {lo hi : Num} (hlo : isNaN lo = false) (hhi : isNaN hi = false)
    (h1 : units lo ≤ i * (unitsPerOne : Int)) (h2 : i * (unitsPerOne : Int) ≤ units hi) :
    within (ofInt i) lo hi = true := by
  have e : (if decide (i < 0) = true then -((i.natAbs * unitsPerOne : Nat) : Int)
      else ((i.natAbs * unitsPerOne : Nat) : Int)) = i * (unitsPerOne : Int) := by
    generalize unitsPerOne = u
    simp only [decide_eq_true_eq]
    split
    · rename_i h
      rw [Nat.cast_mul, Int.ofNat_natAbs_of_nonpos h.le]
      ring
    · rename_i h
      rw [Nat.cast_mul, Int.natAbs_of_nonneg (not_lt.mp h)]
  exact within_iff.mpr (roundNum_between one_pos hlo hhi (by rw [e, Nat.cast_one, mul_one]; exact h1)
    (by rw [e, Nat.cast_one, mul_one]; exact h2))

/-! ## The open functions -/

/-- A kept value lies in the interval it is kept to. -/
theorem kept_within {r lo hi d : Num} (h : within d lo hi = true) : within (kept r lo hi d) lo hi = true := by
  unfold kept
  split
  · rename_i hr
    exact hr
  · exact h

/-- `exp2` on `[-4, 4]` lies in `[1/16, 16]` (41_oscillator.md R163, 49_processor.md R355). -/
theorem exp2_within_small {x : Num} (h : within x (negDecimal 4 1) (decimal 4 1) = true) :
    within (exp2 x) (decimal 1 16) (decimal 16 1) = true := by
  have hf := isFinite_of_within h (by decide +kernel) (by decide +kernel)
  unfold exp2
  rw [isNaN_of_isFinite hf, isInf_of_isFinite hf]
  dsimp only
  rw [if_neg (by simp), if_neg (by simp)]
  split
  · decide +kernel
  · rw [if_pos (by simpa [within] using h)]
    exact kept_within (by decide +kernel)

/-- A number between two positive ones is positive. -/
theorem pos_of_within {x lo hi : Num} (h : within x lo hi = true) (hlo : flt n0 lo = true) : flt n0 x = true := by
  have h := (within_iff.mp h).1
  rw [flt_iff] at *
  rw [fle_iff] at h
  exact ⟨hlo.1, h.2.1, lt_of_lt_of_le hlo.2.2 h.2.2⟩

/-- A packed magnitude above 0 is positive. -/
theorem flt_n0_packNum {f : Nat} (h : 0 < f) : flt n0 (packNum false f) = true := by
  rw [flt_iff, isNaN_packNum, units_packNum]
  have e0 : units n0 = 0 := by decide +kernel
  have e1 : magOf 0 = 0 := by decide +kernel
  have : magOf 0 < magOf (min f infFields) := magOf_strictMono (lt_min h (by decide))
  refine ⟨by decide +kernel, rfl, ?_⟩
  simp only [e0, Bool.false_eq_true, if_false]
  omega

/-- The product of two finite numbers of clear sign. -/
theorem fmul_eq_packNum {a b : Num} (ha : isFinite a = true) (hb : isFinite b = true) (sa : signBit a = false)
    (sb : signBit b = false) : fmul a b = packNum false (roundMag 53 (magUnits a * magUnits b) unitsPerOne) := by
  unfold fmul roundNum
  simp only [isNaN_of_isFinite ha, isNaN_of_isFinite hb, isInf_of_isFinite ha, isInf_of_isFinite hb, sa, sb, Bool.or_self,
    Bool.false_eq_true, if_false, bne_self_eq_false]

/-- What is neither finite nor a NaN is an infinity. -/
theorem isInf_of_not {x : Num} (h : isNaN x = false) (hf : isFinite x = false) : isInf x = true := by
  simp_all [isFinite, isInf, isNaN]

/-- One over a finite number of clear sign is positive. -/
theorem fdiv_one_pos {b : Num} (hb : isFinite b = true) (sb : signBit b = false) : flt n0 (fdiv n1 b) = true := by
  have f1 : isFinite n1 = true := by decide +kernel
  have s1 : signBit n1 = false := by decide +kernel
  unfold fdiv roundNum
  simp only [isNaN_of_isFinite f1, isNaN_of_isFinite hb, isInf_of_isFinite f1, isInf_of_isFinite hb, s1, sb, Bool.or_self,
    Bool.false_eq_true, if_false, bne_self_eq_false]
  split
  · rw [if_neg (by decide +kernel)]
    decide +kernel
  · rename_i hz
    have hlt : fieldsOf b < infFields := by
      have := fieldsOf_le (isNaN_of_isFinite hb)
      simp only [isFinite, bne_iff_ne, ne_eq, expField_eq] at hb
      unfold infFields at *
      omega
    have h1 : magUnits b < magOf infFields := by
      rw [magUnits_eq]
      exact magOf_strictMono hlt
    have h2 : magOf infFields < 2 * (magUnits n1 * unitsPerOne) := by decide +kernel
    have h3 : 0 < magUnits b := by
      rw [magUnits_eq]
      refine lt_of_le_of_lt (Nat.zero_le (magOf 0)) (magOf_strictMono (Nat.pos_of_ne_zero fun h => hz ?_))
      simp [isZero, expField_eq, fracField_eq, h]
    exact flt_n0_packNum (roundMag_pos h3 (lt_trans h1 h2))

/-- A value in `[1/16, 16]` meets what R142 asks. -/
theorem ratePositive_of_within {r : Num} (h : within r (decimal 1 16) (decimal 16 1) = true) : ratePositive r = true := by
  have a : within (fmul (decimal 1 1000) r) (decimal 1 100000) n1 = true :=
    fmul_within (la := decimal 1 1000) (ha := decimal 1 1000) (by decide +kernel) h (by decide +kernel) (by decide +kernel)
      (by decide +kernel) (by decide +kernel)
  have b : within (fmul (fmul (decimal 1 1000) r) fsMax) n1 fsMax = true :=
    fmul_within (lb := fsMax) (hb := fsMax) a (by decide +kernel) (by decide +kernel) (by decide +kernel)
      (by decide +kernel) (by decide +kernel)
  exact pos_of_within (fdiv_within (la := n1) (ha := n1) (lo := decimal 1 1000000) (hi := n1) (by decide +kernel) b
    (by decide +kernel) (by decide +kernel) (by decide +kernel) (by decide +kernel)) (by decide +kernel)

/-- What R142 asks at the largest sample rate holds at every one. -/
theorem rate_pos {r fs : Num} (h0 : flt n0 r = true) (hf : isFinite r = true) (hr : ratePositive r = true)
    (hfs : within fs fsMin fsMax = true) : flt n0 (fdiv n1 (fmul (fmul (decimal 1 1000) r) fs)) = true := by
  have fm : isFinite (decimal 1 1000) = true := by decide +kernel
  have fx : isFinite fsMax = true := by decide +kernel
  have sx : signBit fsMax = false := by decide +kernel
  have ff := isFinite_of_within hfs (by decide +kernel) fx
  have hpos := pos_of_within hfs (by decide +kernel)
  have sf := signBit_of_pos hpos
  have le : units (decimal 1 1000) * units r ≤ units r * (unitsPerOne : Int) := by
    have e0 : units n0 = 0 := by decide +kernel
    have e1 : units (decimal 1 1000) ≤ (unitsPerOne : Int) := by decide +kernel
    rw [mul_comm]
    exact mul_le_mul_of_nonneg_left e1 (e0 ▸ (flt_iff.mp h0).2.2.le)
  have ge : units n0 * (unitsPerOne : Int) ≤ units (decimal 1 1000) * units r := by
    have e0 : units n0 = 0 := by decide +kernel
    have e1 : 0 ≤ units (decimal 1 1000) := by decide +kernel
    rw [e0, zero_mul]
    exact mul_nonneg e1 (e0 ▸ (flt_iff.mp h0).2.2.le)
  have bt := fmul_between fm hf (by decide +kernel) (isNaN_of_isFinite hf) ge le
  have ft : isFinite (fmul (decimal 1 1000) r) = true := isFinite_of_between bt.1 bt.2 (by decide +kernel) hf
  have st : signBit (fmul (decimal 1 1000) r) = false := by
    rw [fmul_eq_packNum fm hf (by decide +kernel) (signBit_of_pos h0), signBit_packNum]
  have sp : ∀ x : Num, isFinite x = true → signBit x = false →
      signBit (fmul (fmul (decimal 1 1000) r) x) = false ∧ isNaN (fmul (fmul (decimal 1 1000) r) x) = false := fun x a b => by
    rw [fmul_eq_packNum ft a st b]
    exact ⟨signBit_packNum _ _, isNaN_packNum _ _⟩
  have fp : isFinite (fmul (fmul (decimal 1 1000) r) fsMax) = true := by
    by_contra hc
    have hi : isInf (fmul (fmul (decimal 1 1000) r) fsMax) = true := by
      exact isInf_of_not (sp fsMax fx sx).2 (by simpa using hc)
    have f1 : isNaN n1 = false ∧ isInf n1 = false := by decide +kernel
    unfold ratePositive fdiv at hr
    simp only [(sp fsMax fx sx).2, hi, f1.1, f1.2, Bool.or_self, Bool.false_eq_true, if_false, if_true] at hr
    have hz : ∀ b, flt n0 (zeroOf b) = false := by decide +kernel
    rw [hz] at hr
    cases hr
  have hm : magUnits fs ≤ magUnits fsMax := by
    have h2 := (fle_iff.mp (within_iff.mp hfs).2).2.2
    have e0 : units n0 = 0 := by decide +kernel
    have u1 := units_nonneg (e0 ▸ (flt_iff.mp hpos).2.2.le)
    have u2 : units fsMax = (magUnits fsMax : Int) := units_nonneg (by decide +kernel)
    rw [u1, u2] at h2
    exact_mod_cast h2
  exact fdiv_one_pos (isFinite_fmul_mono ft ff fx hm fp) (sp fs ff sf).1

/-- What `exp2` gives for a finite operand, said once: a positive number (40_primitive_math.md R140); a finite one for an
operand in `[-20, 20]` (R147 b); and, for an operand that EnvTime gives it, what R142 asks. -/
theorem exp2_spec {x : Num} (h : isFinite x = true) :
    flt n0 (exp2 x) = true ∧ (within x (negDecimal 20 1) (decimal 20 1) = true → isFinite (exp2 x) = true) ∧
      (isEnvOperand x = true → ratePositive (exp2 x) = true) := by
  have key : ∀ y : Num, flt n0 y = true → isFinite y = true → ratePositive y = true →
      flt n0 y = true ∧ (within x (negDecimal 20 1) (decimal 20 1) = true → isFinite y = true) ∧
        (isEnvOperand x = true → ratePositive y = true) := fun y a b c => ⟨a, fun _ => b, fun _ => c⟩
  have one := key n1 (by decide +kernel) (by decide +kernel) (by decide +kernel)
  unfold exp2
  rw [isNaN_of_isFinite h, isInf_of_isFinite h]
  dsimp only
  rw [if_neg (by simp), if_neg (by simp)]
  split
  · exact one
  · split
    · have hk : within (kept (Config.exp2Free x) (decimal 1 16) (decimal 16 1) n1) (decimal 1 16) (decimal 16 1) = true :=
        kept_within (by decide +kernel)
      have hf := isFinite_of_within hk (by decide +kernel) (by decide +kernel)
      exact key _ (pos_of_within hk (by decide +kernel)) hf (ratePositive_of_within hk)
    · split
      · rename_i hr
        simp only [expAllowed, Bool.and_eq_true, Bool.or_eq_true, Bool.not_eq_true'] at hr
        refine ⟨hr.1.1, fun hx => hr.1.2.resolve_right ?_, fun hx => hr.2.resolve_right ?_⟩
        · simpa [within] using hx
        · simp [hx]
      · split
        · exact one
        · rename_i hx
          refine ⟨by decide +kernel, fun _ => by decide +kernel, fun _ => by decide +kernel⟩

/-- `exp2` of a finite number is positive (40_primitive_math.md R140). -/
theorem exp2_pos {x : Num} (h : isFinite x = true) : flt n0 (exp2 x) = true := (exp2_spec h).1

/-- The frequency ratio of a semitone parameter in `[-48, 48]` lies in `[1/16, 16]` (41_oscillator.md R163,
49_processor.md R355). -/
theorem exp2_semitones_within {x : Num} (h : within x (negDecimal 48 1) (decimal 48 1) = true) :
    within (exp2 (fdiv x (decimal 12 1))) (decimal 1 16) (decimal 16 1) = true := by
  have low : ∀ u y : Int, 0 < u → -48 * u ≤ y → -4 * u * (12 * u) ≤ y * u := fun u y h0 h => by nlinarith
  have high : ∀ u y : Int, 0 < u → y ≤ 48 * u → y * u ≤ 4 * u * (12 * u) := fun u y h0 h => by nlinarith
  have e := within_iff.mp h
  rw [fle_iff, fle_iff] at e
  have hb : units (decimal 12 1) = 12 * (unitsPerOne : Int) := by decide +kernel
  have hp : units (decimal 48 1) = 48 * (unitsPerOne : Int) := by decide +kernel
  have hm : units (negDecimal 48 1) = -48 * (unitsPerOne : Int) := by decide +kernel
  have qp : units (decimal 4 1) = 4 * (unitsPerOne : Int) := by decide +kernel
  have qm : units (negDecimal 4 1) = -4 * (unitsPerOne : Int) := by decide +kernel
  have hu : (0 : Int) < (unitsPerOne : Int) := by decide +kernel
  refine exp2_within_small (within_iff.mpr (fdiv_between (isFinite_of_within h (by decide +kernel) (by decide +kernel))
    (by decide +kernel) (by decide +kernel) (by decide +kernel) (by decide +kernel) ?_ ?_))
  · rw [qm, hb]
    exact low _ _ hu (hm ▸ e.1.2.2)
  · rw [qp, hb]
    exact high _ _ hu (hp ▸ e.2.2.2)

/-! ## Coefficients -/

/-- EnvTime's operand for an index in `0..80` lies in the range where `exp2` is finite (40_primitive_math.md R141). -/
theorem envOperand_within {v : Int} (h0 : 0 ≤ v) (h1 : v ≤ 80) :
    isEnvOperand (envOperand v) = true ∧ within (envOperand v) (negDecimal 20 1) (decimal 20 1) = true := by
  have all : (List.range 81).all (fun n => within (envOperand n) (negDecimal 20 1) (decimal 20 1)) = true := by
    decide +kernel
  obtain ⟨n, rfl⟩ := Int.eq_ofNat_of_zero_le h0
  have hn : n ∈ List.range 81 := List.mem_range.mpr (by omega)
  exact ⟨List.any_eq_true.mpr ⟨n, hn, beq_self_eq_true _⟩, List.all_eq_true.mp all n hn⟩

/-- The lesser of 1 and a positive number is positive and at most 1. -/
theorem fmin_one_isRate {x : Num} (h0 : flt n0 x = true) : isRate (fmin n1 x) = true := by
  unfold fmin
  split
  · decide +kernel
  · rename_i hc
    have hn : isNaN x = false := (flt_iff.mp h0).2.1
    simp only [isRate, h0, Bool.true_and]
    exact fle_of_not_flt (by decide +kernel) hn (by simpa using hc)

/-- An envelope rate lies in `(0, 1]` for every index in `0..80` and every sample rate in `[1, 768000]`
(40_primitive_math.md R142). -/
theorem envRate_isRate {v : Int} {fs : Num} (h0 : 0 ≤ v) (h1 : v ≤ 80) (hfs : within fs fsMin fsMax = true) :
    isRate (envRate v fs) = true := by
  obtain ⟨ho, hw⟩ := envOperand_within h0 h1
  obtain ⟨h, hf, hr⟩ := exp2_spec (isFinite_of_within hw (by decide +kernel) (by decide +kernel))
  exact fmin_one_isRate (rate_pos h (hf hw) (hr ho) hfs)

/-- A safe rate lies in `[1, 768000]`, whatever the operand (40_primitive_math.md R145). -/
theorem safeRate_within (fs : Num) : within (safeRate fs) fsMin fsMax = true := by
  unfold safeRate
  split
  · decide +kernel
  · exact within_iff.mpr (clamp_range (Bool.eq_false_iff.mpr ‹_›) (by decide +kernel))

/-- A one-pole coefficient lies in `[0, 1]`, whatever its operands (40_primitive_math.md R146). -/
theorem onePoleAlpha_within (cutoff fs : Num) : inClosedUnit (onePoleAlpha cutoff fs) = true := by
  unfold onePoleAlpha
  dsimp only
  split
  · decide +kernel
  · exact within_iff.mpr (clamp_range (Bool.eq_false_iff.mpr ‹_›) (by decide +kernel))

/-- A finite number plus one that is no NaN is no NaN. -/
theorem isNaN_fadd {a b : Num} (ha : isFinite a = true) (hb : isNaN b = false) : isNaN (fadd a b) = false := by
  unfold fadd
  rw [isNaN_of_isFinite ha, hb, isInf_of_isFinite ha]
  simp only [Bool.or_self, Bool.false_eq_true, if_false]
  split
  · exact hb
  · split
    · exact isNaN_zeroOf _
    · exact isNaN_packNum _ _

/-- SVF.RETUNE's damping lies in `[0.01, 1]` for a configured resonance and a modulation that is no NaN
(43_filters.md R214, 10_state.md R59). -/
theorem svfRetune_damping_within {c : Cfg} (co mx : Num) {rs : Num} (h : inClosedUnit c.res = true)
    (hr : isNaN rs = false) : within (svfRetune c co rs mx).damping (decimal 1 100) n1 = true := by
  have hf : isFinite c.res = true := isFinite_of_within h (by decide +kernel) (by decide +kernel)
  have hc := clamp_range (lo := n0) (hi := resMax) (isNaN_fadd hf hr) (by decide +kernel)
  have hw := isFinite_of_between hc.1 hc.2 (by decide +kernel) (by decide +kernel)
  rw [fle_iff, fle_iff] at hc
  have h0 : units n0 = 0 := by decide +kernel
  have h1 : units (decimal 1 100) ≤ units n1 - units resMax := by decide +kernel
  unfold svfRetune
  dsimp only
  refine within_iff.mpr (fsub_between (by decide +kernel) hw (by decide +kernel) (by decide +kernel) ?_ ?_)
  · exact le_trans h1 (sub_le_sub_left hc.2.2.2 _)
  · exact sub_le_self _ (h0 ▸ hc.1.2.2)

/-- A table entry lies in `[0, 128]`, whatever its two terms (45_tuning.md R257 e, 10_state.md R53). -/
theorem boundPitch_within (base step : Num) : within (boundPitch base step) n0 (decimal 128 1) = true := by
  unfold boundPitch
  dsimp only
  split
  · exact kept_within (by decide +kernel)
  · exact within_iff.mpr (clamp_range (Bool.eq_false_iff.mpr ‹_›) (by decide +kernel))

/-- Every entry of a table that CFG.TUNE builds lies in `[0, 128]`. -/
theorem tuneTable_within (snap : Nat → Num) (ch : Nat) (key : Fin Config.KEYS) :
    within (tuneTable Z snap ch)[key] n0 (decimal 128 1) = true := by
  simp only [tuneTable, Fin.getElem_fin, Vector.getElem_ofFn]
  exact boundPitch_within _ _

end Sys2Proof.Machine
end

