-- ==== Sys2Proof/Tests/Slice0.lean ====
section
/-! SUPPORT. Tests: well-formedness smoke, one written-out word per constructor, vectors of spec/95_test_vectors.md, one
small step per instruction, and a witness for the hypotheses of every statement. Expected values come from the spec's
tables, or from hand calculation where a comment says so. -/

namespace Sys2Proof.Tests.Slice0

open Sys2Proof Sys2Proof.Machine

set_option Elab.async false

/-! ## Helpers -/

/-- The parameters of the reference instance, which every vector of spec/95_test_vectors.md uses. -/
abbrev P : Config.Params := Config.params

/-- A number of the next state, if there is one. -/
def after {α : Type} (i : Instr) (s : State) (f : State → α) : Option α :=
  match exec i s with
  | .next t => some (f t)
  | .fault _ => none
  | .refused _ => none

/-- The same for one step. -/
def afterStep {α : Type} (s : State) (f : State → α) : Option α :=
  match step s with
  | .next t => some (f t)
  | .fault _ => none
  | .refused _ => none

/-- What the frame decodes to, if it is an instruction. -/
def decoded (p : Port) (ws : List Word) : Option Instr :=
  match decode P p ws with
  | .ok i => some i
  | .error _ => none

/-- The same for a frame that is rejected. -/
def rejected (p : Port) (ws : List Word) : Option DecodeError :=
  match decode P p ws with
  | .ok _ => none
  | .error e => some e

/-- The symmetric sine waveshaper, `WaveCfg(0, -1)` (L2.2). -/
def sineWave : WaveCfg := ⟨0x4010000000000000, 0x4010000000000000, 0x3FD0000000000000, 0x3FE8000000000000, 0x3FF0000000000000, 0x0000000000000000, 0x3FF0000000000000⟩

/-- An operator of level 1 with that waveshaper. -/
def sineOp (fb : Num) : OpCfg := ⟨0x3FF0000000000000, 0x3FF0000000000000, sineWave, false, fb⟩

/-- A small configuration: a delay of two samples, one copy, sine operators, no modulation. -/
def smallCfg : Cfg :=
  { Cfg.reset with
    fs := 0x40E5888000000000, invFs := 0x3EF7C6F8C751F177, master := 0x3FE0000000000000, bend := 0x3FF0000000000000, car := sineOp 0,
    mod := sineOp 0x3FE0000000000000, lfoWave := sineWave, lfoSpeed := 0x4000000000000000, lfoLevel := 0x3FF0000000000000, stackSize := 1, dLen := 2,
    dFb := 0x3FE0000000000000, dLpAlpha := 0x3FE0000000000000, dHpAlpha := 0x3FE0000000000000 }

/-- A ready core with a delay RAM of four elements. -/
def readyState : State := { State.reset with status := ⟨true, true⟩, dcap := 4, cfg := smallCfg }

/-- An active core that is not configured. -/
def idleState : State := { State.reset with status := ⟨true, false⟩, dcap := 22050, cfg := smallCfg }

/-- A note of channel 0. -/
def note (pitch velocity : Num) (id : Word) : MidiNote P := ⟨0, pitch, velocity, id⟩

/-- A voice in a state, of an age, with a note. -/
def voiceOf (st : Life) (age : Word) (n : MidiNote P) : Voice P := { Voice.reset with state := st, length := age, note := n }

/-- A ready core with one voice replaced. -/
def withVoice (i : Fin P.NV) (v : Voice P) : State := { readyState with voices := readyState.voices.set i v }

/-! ## Well-formedness: an ill-formed term for each check -/

theorem test_wf_wave_shape_above_one : wellFormed (Z := P) (.cfgWave .carrier 0x3FF8000000000000 0) = false := by decide +kernel
theorem test_wf_wave_shape_nan : wellFormed (Z := P) (.cfgWave .lfo 0 0x7FF8000000000000) = false := by decide +kernel
theorem test_wf_lp1_cutoff_above_160 : wellFormed (Z := P) (.cfgLp1 .lowPass 0x4064200000000000) = false := by decide +kernel
theorem test_wf_noteon_velocity_below_0 : wellFormed (Z := P) (.applyNoteon (note 0x404E000000000000 0xBFE0000000000000 1)) = false := by decide +kernel
theorem test_wf_noteon_pitch_nan : wellFormed (Z := P) (.applyNoteon (note 0x7FF8000000000000 0x3FE0000000000000 1)) = false := by decide +kernel
theorem test_wf_noteoff_velocity_0 : wellFormed (Z := P) (.applyNoteoff (note 0x404E000000000000 0 1)) = false := by decide +kernel
theorem test_wf_noteoff_pitch_inf : wellFormed (Z := P) (.applyNoteoff (note 0x7FF0000000000000 0xBFF0000000000000 1)) = false := by decide +kernel
theorem test_wf_pressure_inf : wellFormed (Z := P) (.applyPressure (note 0x404E000000000000 0 1) 0x7FF0000000000000) = false := by decide +kernel
theorem test_wf_pressure_note_velocity : wellFormed (Z := P) (.applyPressure (note 0x404E000000000000 0x3FF0000000000000 1) 0) = false := by decide +kernel
/-- The boundary of each check is well formed. -/
theorem test_wf_boundaries :
    wellFormed (Z := P) (.cfgWave .carrier 0x3FF0000000000000 0xBFF0000000000000) = true ∧ wellFormed (Z := P) (.cfgLp1 .highPass 0x4064000000000000) = true ∧
      wellFormed (Z := P) (.applyNoteon (note 0x404E000000000000 0x8000000000000000 1)) = true ∧
      wellFormed (Z := P) (.applyNoteoff (note 0x404E000000000000 0xBFF0000000000000 1)) = true ∧
      wellFormed (Z := P) (.applyPressure (note 0x404E000000000000 0 1) 0x3FFB333333333333) = true := by decide +kernel

/-! ## Decoding: a written-out frame per constructor. The commands' frames are those of R124 and L2.10; the unit
operations' ids are those of R120, their layout the model's own (assumption 9). -/

theorem test_decode_activate : decoded .command [0x01000000, 0x00000000, 0x40E58880] = some (.activate 0x40E5888000000000) := by
  decide +kernel
theorem test_decode_deactivate : decoded .command [0x02000000] = some .deactivate := by decide +kernel
theorem test_decode_recalc : decoded .command [0x03000000, 0x00000000, 0x40E58880] = some (.recalc 0x40E5888000000000) := by
  decide +kernel
theorem test_decode_reserve :
    decoded .command [0x04030000, 0x00000000, 0x404E0000, 0x00000000, 0xBFF00000, 0xFFFFFFFF, 0x00000064] =
      some (.reserve 3 0x404E000000000000 0xBFF0000000000000 0xFFFFFFFF 100) := by decide +kernel
theorem test_decode_reservep :
    decoded .command [0x05020000, 0x00000000, 0x40500000, 0x00000000, 0x3FE80000, 0x00000009, 0x0000000A] =
      some (.reservep 2 0x4050000000000000 0x3FE8000000000000 9 10) := by decide +kernel
theorem test_decode_process :
    decoded .command [0x06000000, 0x00000000, 0x40E58880, 0x00001000] = some (.process 0x40E5888000000000 4096) := by
  decide +kernel
theorem test_decode_pwrite : decoded .control [0x07001704, 0x00000000, 0xBFE00000] = some (.pwrite 0x1704 0xBFE0000000000000) := by
  decide +kernel
theorem test_decode_reserved_bits :
    rejected .command [0x02000001] = some .reservedBits ∧
      rejected .command [0x07010000, 0, 0] = some .reservedBits ∧
      rejected .command [0x04000001, 0, 0, 0, 0, 0, 0] = some .reservedBits := by decide +kernel
theorem test_decode_reserved_ops :
    rejected .command [0x00000000] = some .unknownOp ∧ rejected .command [0x08000000] = some .unknownOp ∧
      rejected .command [0xFF000000] = some .unknownOp := by decide +kernel
theorem test_decode_control_port_takes_pwrite_only :
    rejected .control [0x02000000] = some .notOnControlPort := by decide +kernel

theorem test_decode_cfg_wave :
    decoded .unitOp [0x00000210, 0, 0x3FE00000, 0, 0xBFF00000] = some (.cfgWave .lfo 0x3FE0000000000000 0xBFF0000000000000) := by decide +kernel
theorem test_decode_cfg_op : decoded .unitOp [0x00000111] = some (.cfgOp .modulator) := by decide +kernel
theorem test_decode_cfg_env : decoded .unitOp [0x00000212] = some (.cfgEnv .modEnv) := by decide +kernel
theorem test_decode_cfg_lp1 : decoded .unitOp [0x00000113, 0, 0x40640000] = some (.cfgLp1 .highPass 0x4064000000000000) := by
  decide +kernel
theorem test_decode_cfg_svf : decoded .unitOp [0x00000014] = some .cfgSvf := by decide +kernel
theorem test_decode_cfg_moddest : decoded .unitOp [0x00000015] = some .cfgModdest := by decide +kernel
theorem test_decode_cfg_tune : decoded .unitOp [0x00000F16] = some (.cfgTune 15) := by decide +kernel
theorem test_decode_cfg_stack : decoded .unitOp [0x00000017] = some .cfgStack := by decide +kernel
theorem test_decode_cfg_delay : decoded .unitOp [0x00000018] = some .cfgDelay := by decide +kernel
theorem test_decode_cfg_global : decoded .unitOp [0x00000019, 0, 0x40E58880] = some (.cfgGlobal 0x40E5888000000000) := by
  decide +kernel
theorem test_decode_tick : decoded .unitOp [0x00000020] = some .tick := by decide +kernel
theorem test_decode_apply_noteon :
    decoded .unitOp [0x00000221, 0, 0x404E0000, 0x9999999A, 0x3FE99999, 7] =
      some (.applyNoteon ⟨2, 0x404E000000000000, 0x3FE999999999999A, 7⟩) := by decide +kernel
theorem test_decode_apply_noteoff :
    decoded .unitOp [0x00000222, 0, 0x404E0000, 0, 0, 7] = some (.applyNoteoff ⟨2, 0x404E000000000000, 0xBFF0000000000000, 7⟩) := by
  decide +kernel
theorem test_decode_applyPressure :
    decoded .unitOp [0x00000223, 0, 0x404E0000, 0, 0x3FE00000, 7, 0, 0x3FE80000] =
      some (.applyPressure ⟨2, 0x404E000000000000, 0x3FE0000000000000, 7⟩ 0x3FE8000000000000) := by decide +kernel
/-- Operand values outside the ranges a rule names decode all the same: a shape of 2, a velocity of NaN. -/
theorem test_decode_any_operand_value :
    decoded .unitOp [0x00000110, 0, 0x40000000, 0, 0] = some (.cfgWave .modulator 0x4000000000000000 0) ∧
      decoded .unitOp [0x00000021, 0, 0x7FF00000, 0, 0x7FF80000, 1] =
        some (.applyNoteon (note 0x7FF0000000000000 0x7FF8000000000000 1)) := by decide +kernel
theorem test_decode_voice_start : decoded .unitOp [0x00000F24] = some (.voiceStart 15) := by decide +kernel
theorem test_decode_voice_restart : decoded .unitOp [0x00000F25] = some (.voiceRestart 15) := by decide +kernel
theorem test_decode_sync_step : decoded .unitOp [0x00060330, 0, 0x3FE00000] = some (.syncStep 3 6 0x3FE0000000000000) := by
  decide +kernel
theorem test_decode_car_step :
    decoded .unitOp [0x00060332, 0, 0x3FE00000, 0, 0xBFF00000, 0, 0x3FD00000] =
      some (.carStep 3 6 0x3FE0000000000000 0xBFF0000000000000 0x3FD0000000000000) := by decide +kernel
theorem test_decode_mod_step :
    decoded .unitOp [0x00060333, 0, 0x3FE00000, 0, 0xBFF00000] = some (.modStep 3 6 0x3FE0000000000000 0xBFF0000000000000) := by decide +kernel
theorem test_decode_lfo_step :
    decoded .unitOp [0x00000334, 0, 0x3FE00000, 0, 0x3FF00000] = some (.lfoStep 3 0x3FE0000000000000 0x3FF0000000000000) := by decide +kernel
theorem test_decode_env_step : decoded .unitOp [0x01020335] = some (.envStep .modEnv 3 true) := by decide +kernel
theorem test_decode_lp1_step :
    decoded .unitOp [0x00000136, 0, 0x3FE00000, 0, 0x3FF00000] = some (.lp1Step .right 0x3FE0000000000000 0x3FF0000000000000) := by decide +kernel
theorem test_decode_hp1_step :
    decoded .unitOp [0x00000037, 0, 0x3FE00000, 0, 0x3FF00000] = some (.hp1Step .left 0x3FE0000000000000 0x3FF0000000000000) := by decide +kernel
theorem test_decode_svf_retune :
    decoded .unitOp [0x00000038, 0, 0x3FE00000, 0, 0x3FF00000, 0, 0x3FD00000] =
      some (.svfRetune 0x3FE0000000000000 0x3FF0000000000000 0x3FD0000000000000) := by decide +kernel
theorem test_decode_svf_step :
    decoded .unitOp [0x00010339, 0, 0x3FE00000, 0, 0x3FF00000, 0, 0x3FD00000] =
      some (.svfStep 3 .right 0x3FE0000000000000 0x3FF0000000000000 0x3FD0000000000000) := by decide +kernel
theorem test_decode_mod_add :
    decoded .unitOp [0x0000073A, 0, 0x3FE00000, 0, 0x3FF00000, 0, 0x3FD00000, 0, 0x40000000, 0, 0xBFF00000] =
      some (.modAdd .lfoLevel ⟨0x3FE0000000000000, 0x3FF0000000000000, 0x3FD0000000000000, 0x4000000000000000, 0xBFF0000000000000⟩) := by decide +kernel
theorem test_decode_mod_mulbias :
    decoded .unitOp [0x0000013B, 0, 0x3FE00000, 0, 0x3FF00000, 0, 0x3FD00000, 0, 0x40000000, 0, 0xBFF00000] =
      some (.modMulbias .level ⟨0x3FE0000000000000, 0x3FF0000000000000, 0x3FD0000000000000, 0x4000000000000000, 0xBFF0000000000000⟩) := by decide +kernel
theorem test_decode_mod_pitch :
    decoded .unitOp [0x0000003C, 0, 0x3FE00000, 0, 0x3FF00000, 0, 0x3FD00000, 0, 0x40000000, 0, 0xBFF00000] =
      some (.modPitch .pitch ⟨0x3FE0000000000000, 0x3FF0000000000000, 0x3FD0000000000000, 0x4000000000000000, 0xBFF0000000000000⟩) := by decide +kernel
theorem test_decode_stack_render :
    decoded .unitOp [0x0000033D, 0, 0x3FE00000, 0, 0x3FF00000, 0, 0x3FD00000] =
      some (.stackRender 3 0x3FE0000000000000 0x3FF0000000000000 0x3FD0000000000000) := by decide +kernel
theorem test_decode_voice_render : decoded .unitOp [0x0000033E] = some (.voiceRender 3) := by decide +kernel
theorem test_decode_delay_step :
    decoded .unitOp [0x0000003F, 0, 0x3FE00000, 0, 0x3FF00000] = some (.delayStep 0x3FE0000000000000 0x3FF0000000000000) := by decide +kernel
theorem test_decode_mix : decoded .unitOp [0x00800140] = some (.mix 0x8001) := by decide +kernel
theorem test_decode_out :
    decoded .unitOp [0x00000041, 0, 0x3FE00000, 0, 0x3FF00000, 0, 0x3FD00000, 0, 0x40000000] =
      some (.out 0x3FE0000000000000 0x3FF0000000000000 0x3FD0000000000000 0x4000000000000000) := by decide +kernel
/-- The unassigned id of R120, a voice number of 16, a copy number of 7 and a mask bit above the pool. -/
theorem test_decode_unit_rejects :
    rejected .unitOp [0x00000031] = some .unknownUop ∧ rejected .unitOp [0x0000103E] = some .badSelector ∧
      rejected .unitOp [0x00070030, 0, 0] = some .badSelector ∧ rejected .unitOp [0x01000040] = some .badSelector := by
  decide +kernel
/-- The bits of every row of the opcode table, operand words of zeros, decode to that row's instruction. -/
theorem test_table_rows :
    decodeTableWord 32 0x01000000 = some (.activate 0) ∧ decodeTableWord 32 0x04000000 = some (.reserve 0 0 0 0 0) ∧
      decodeTableWord 32 0x07000000 = some (.pwrite 0 0) ∧
      decodeTableWord 8 0x22 = some (.applyNoteoff ⟨0, 0, 0xBFF0000000000000, 0⟩) ∧ decodeTableWord 8 0x31 = none ∧
      decodeTableWord 8 0x40 = some (.mix 0) := by decide +kernel

/-! ## Vectors of the helpers and the primitive math (L2.0, L2.1) -/

theorem test_clamp_min_max :
    clamp 0x4014000000000000 0 0x3FF0000000000000 = 0x3FF0000000000000 ∧ clamp 0xC014000000000000 0 0x3FF0000000000000 = 0 ∧ clamp 0x3FD3333333333333 0 0x3FF0000000000000 = 0x3FD3333333333333 ∧
      isNaN (clamp 0x7FF8000000000000 0 0x3FF0000000000000) = true ∧ fmin 0x7FF8000000000000 0x3FF0000000000000 = 0x3FF0000000000000 ∧ isNaN (fmin 0x3FF0000000000000 0x7FF8000000000000) = true ∧
      fmax 0x7FF8000000000000 0x3FF0000000000000 = 0x3FF0000000000000 ∧ isNaN (fmax 0x3FF0000000000000 0x7FF8000000000000) = true := by decide +kernel
theorem test_round_int :
    roundInt 0x4004000000000000 = 3 ∧ roundInt 0xC004000000000000 = -2 ∧ roundInt 0xBFE0000000000000 = 0 ∧ roundInt 0x4053E00000000000 = 80 ∧
      roundInt 0x3FDFFFFFFFFFFFFF = 1 := by decide +kernel
theorem test_sanitize :
    sanitize 0x401C000000000000 0 0x3FF0000000000000 0x3FE0000000000000 = 0x3FF0000000000000 ∧ sanitize 0x7FF8000000000000 0 0x4054000000000000 0 = 0 ∧ sanitize 0x7FF0000000000000 0 0x3FF0000000000000 0x3FE0000000000000 = 0x3FF0000000000000 ∧
      sanitize 0xFFF0000000000000 0 0x3FF0000000000000 0x3FE0000000000000 = 0 := by decide +kernel
theorem test_to_bool : Machine.toBool 0x3FDF5C28F5C28F5C = false ∧ Machine.toBool 0x3FE0000000000000 = true ∧ Machine.toBool 0x7FF8000000000000 = false := by decide +kernel
theorem test_wrap_state :
    frac 0x3FF4000000000000 = 0x3FD0000000000000 ∧ frac 0xBFD0000000000000 = 0x3FE8000000000000 ∧ frac 0x4008000000000000 = 0 ∧ wrapState 0xBFD0000000000000 = 0x3FE8000000000000 ∧
      wrapState 0xBBC79CA10C924223 = 0 ∧
      wrapState (fadd 0x3FEFF7CED916872B 0x3F60624DD2F1A9FC) = 0x3F50624DD2F1A800 := by decide +kernel
/-- The payload of a NaN that an operation makes is open, so these two go by its shape and not by evaluation. -/
theorem test_wrap_state_nan : wrapState 0x7FF8000000000000 = 0 := wrapState_of_isNaN (by decide +kernel)
theorem test_wrap_state_inf : wrapState 0x7FF0000000000000 = 0 :=
  wrapState_of_not_finite (isFinite_nanOf 0 0x7FF0000000000000 (fneg 0x7FF0000000000000))
theorem test_guard :
    guardNum 0x3FD3333333333333 = 0x3FD3333333333333 ∧ guardNum 0x7FF0000000000000 = 0x3FE0000000000000 ∧ guardNum 0xFFF0000000000000 = 0xBFE0000000000000 ∧
      guardNum 0x7FF8000000000000 = 0x3FE0000000000000 ∧ guardNum 0xFE37E43C8800759C = 0xFE37E43C8800759C := by decide +kernel
theorem test_safe_rate :
    safeRate 0 = 0x3FF0000000000000 ∧ safeRate 0xC014000000000000 = 0x3FF0000000000000 ∧ safeRate 0x7FF8000000000000 = 0x3FF0000000000000 ∧ safeRate 0x7FF0000000000000 = 0x4127700000000000 ∧
      safeRate 0x40E5888000000000 = 0x40E5888000000000 := by decide +kernel
theorem test_sat_inc : satInc 4294967295 = 4294967295 ∧ satInc 41 = 42 := by decide +kernel
theorem test_pitch_to_freq_exact : pitchToFreq 0x4051400000000000 = 0x407B800000000000 := by decide +kernel
theorem test_env_time_and_rate :
    envTime 0 = 0x3F50624DD2F1A9FC ∧ envRate 0 0x40E5888000000000 = 0x3F97384EF2A605CE ∧ envRate 0 0x3FF0000000000000 = 0x3FF0000000000000 := by decide +kernel
theorem test_sin_shape :
    sinShape P 0x3FE0000000000000 = 0x3FE6000000000000 ∧ sinShape P 0x3FD0000000000000 = 0x3FD7800000000000 ∧ sinShape P 0x3FF0000000000000 = 0x3FF0000000000000 ∧
      sinShape P 0xBFF0000000000000 = 0xBFF0000000000000 := by decide +kernel
theorem test_one_pole_alpha : onePoleAlpha 0x4051400000000000 0x40E5888000000000 = 0x3FAE3419F72278F2 := by decide +kernel

/-! ## Vectors of the units (L2.2, L2.3, L2.5, L2.6, L2.7, L2.9) -/

theorem test_wave_cfg :
    waveCfg 0 0xBFF0000000000000 = sineWave ∧
      waveCfg 0x3FE0000000000000 0x3FE0000000000000 = ⟨0x4005555555555555, 0x4020000000000000, 0x3FD8000000000000, 0x3FE4000000000000, 0, 0x3FF0000000000000, 0x4000000000000000⟩ := by decide +kernel
theorem test_wave :
    wave P sineWave 0x3FC0000000000000 = 0x3FE6000000000000 ∧ wave P sineWave 0x3FD0000000000000 = 0x3FF0000000000000 ∧ wave P sineWave 0x3FE8000000000000 = 0xBFF0000000000000 ∧
      wave P (waveCfg 0 0) 0x3FC0000000000000 = 0x3FE0000000000000 ∧ wave P (waveCfg 0 0x3FE0000000000000) 0x3FC0000000000000 = 0x3FF0000000000000 ∧
      wave P (waveCfg 0 0x3FE0000000000000) 0x3FA999999999999A = 0x3FD999999999999A := by decide +kernel
theorem test_envelope_attack :
    (envStep P ⟨0x3F6293725BB804A4, 0x3F477F3797D68911, 0x3F54E45E503CA05E, 0x3FD999999999999A⟩
      ⟨0, false⟩ true).level = 0x3F629833C0ACAEA1 := by decide +kernel
theorem test_envelope_release :
    envStep P ⟨0x3F6293725BB804A4, 0x3F477F3797D68911, 0x3F54E45E503CA05E, 0x3FD999999999999A⟩
      ⟨0x3FD999999999999A, true⟩ false = ⟨0x3FD99138E77E0875, false⟩ := by decide +kernel
theorem test_envelope_rates_of_one :
    envStep P ⟨0x3FF0000000000000, 0x3FF0000000000000, 0x3FF0000000000000, 0x3FE0000000000000⟩ ⟨0, false⟩ true = ⟨0x3FF0000000000000, true⟩ ∧
      envStep P ⟨0x3FF0000000000000, 0x3FF0000000000000, 0x3FF0000000000000, 0x3FE0000000000000⟩ ⟨0x3FF0000000000000, true⟩ true = ⟨0x3FE0000000000000, true⟩ ∧
      envStep P ⟨0x3FF0000000000000, 0x3FF0000000000000, 0x3FF0000000000000, 0x3FE0000000000000⟩ ⟨0x3FE0000000000000, true⟩ false = ⟨0, false⟩ := by decide +kernel
theorem test_tune_value :
    tuneValue 0x4000000000000000 0x3FF0000000000000 0x3FF0000000000000 0x4028000000000000 = 0x3FF0000000000000 ∧ tuneValue 0x4000000000000000 0x3FF0000000000000 0x3FF0000000000000 0x3FF0000000000000 = 0x4028000000000000 ∧
      tuneValue 0x3FF0000000000000 0x3FF0000000000000 0x3FF0000000000000 0x3FF0000000000000 = 0 ∧ tuneValue 0 0x3FF0000000000000 0x3FF0000000000000 0x3FF0000000000000 = 0 ∧ tuneValue 0x4000000000000000 0x3FF0000000000000 0x3FF0000000000000 0 = 0 ∧
      tuneValue 0xC000000000000000 0x3FF0000000000000 0x3FF0000000000000 0x3FF0000000000000 = 0 := by decide +kernel
theorem test_is_same :
    isSame (note 0x404E000000000000 0 0xFFFFFFFF) (note 0x404E000000000000 0 5) = true ∧ isSame (note 0x404E000000000000 0 4) (note 0x4052000000000000 0 4) = true ∧
      isSame (note 0x404E000000000000 0 4) (note 0x404E000000000000 0 5) = false ∧
      isSame (note 0x404E000000000000 0 4) ⟨1, 0x404E000000000000, 0, 4⟩ = false := by decide +kernel
/-- 70_reset_and_hazards.md R436 (b): 60.0 and 60.00000000000001 do not match; R273 and 00_scope.md R14: +0 and -0 do. -/
theorem test_is_same_pitch :
    isSame (note 0x404E000000000000 0 0xFFFFFFFF) (note 0x404E000000000001 0 5) = false ∧
      isSame (note 0 0 0xFFFFFFFF) (note 0x8000000000000000 0 5) = true := by decide +kernel
theorem test_store_slot_full :
    storeSlot ((List.range 32).map fun (j : Nat) => (j : Int) + 10) = 31 ∧ storeSlot (List.replicate 32 7) = 0 ∧
      storeSlot [3, -1, 9, -1] = 1 := by decide +kernel
theorem test_fb_gate : fbGate 0x3EB09C0482F18C75 = 0 ∧ fbGate 0x3EB0C6F7A0B5ED8D = 0x3EB0C6F7A0B5ED8D ∧ fbGate 0x7FF0000000000000 = 0 := by decide +kernel
theorem test_delay_capacity :
    delayCapacity P 0x40E5888000000000 = 22050 ∧ delayCapacity P 0x40BF400000000000 = 4000 ∧ delayCapacity P 0 = 1 ∧
      delayCapacity P 0x41186A0000000000 = 96000 := by decide +kernel
/-- Rows of the register map, read off the tables of R34 to R43. -/
theorem test_param_rows :
    paramRow P 0x0000 = some ⟨0, 0x3FF0000000000000, 0x3FE0000000000000⟩ ∧ paramRow P 0x0103 = some ⟨0xBFF0000000000000, 0x3FF0000000000000, 0xBFF0000000000000⟩ ∧
      paramRow P 0x0201 = some ⟨0, 0x4010000000000000, 0⟩ ∧ paramRow P 0x0301 = some ⟨0, 0x4054000000000000, 0x4044000000000000⟩ ∧
      paramRow P 0x0600 = some ⟨0, 0x4064000000000000, 0x4060000000000000⟩ ∧ paramRow P 0x0704 = some ⟨0, 0x4064000000000000, 0x4064000000000000⟩ ∧
      paramRow P 0x0800 = some ⟨0, 0x4059000000000000, 0x4000000000000000⟩ ∧ paramRow P 0x0901 = some ⟨0x3FF0000000000000, 0x401C000000000000, 0x3FF0000000000000⟩ ∧
      paramRow P 0x1302 = some ⟨0xC060000000000000, 0x4060000000000000, 0⟩ ∧ paramRow P 0x1704 = some ⟨0xBFF0000000000000, 0x3FF0000000000000, 0⟩ ∧
      paramRow P 0x2F0E = some ⟨0, 0x405FC00000000000, 0x4051400000000000⟩ ∧ paramRow P 0x0706 = none ∧ paramRow P 0x1800 = none ∧
      paramRow P 0x3000 = none := by decide +kernel
/-- What the status port shows after each cause (R32, R87). -/
theorem test_status_port :
    statusPort State.reset = (false, false, 0) ∧ statusPort (raise .illegalCommand readyState) = (true, true, 1) ∧
      statusPort (raise .badState idleState) = (true, false, 2) ∧
      statusPort (raise .badState (raise .badOperand readyState)) = (true, true, 3) := by decide +kernel

/-! ## One step per instruction -/

theorem test_activate_sets_capacity :
    after (.activate 0) State.reset (fun t => (t.status, t.dcap)) = some (⟨true, false⟩, 1) := by decide +kernel
theorem test_activate_twice_faults :
    after (.activate 0x40E5888000000000) readyState (fun t => (t.fault, t.dcap)) = some (.badState, 4) := by decide +kernel
theorem test_deactivate_clears :
    after .deactivate (withVoice 3 (voiceOf .active 9 (note 0x404E000000000000 0x3FF0000000000000 1)))
      (fun t => (t.status, t.dcap, (t.voices[3]).state)) = some (⟨false, false⟩, 0, .inactive) := by decide +kernel
/-- L2.10's sanitising and L2.9's defaults at 44100 Hz. -/
theorem test_recalc_sanitizes :
    after (.recalc 0x40E5888000000000)
      { idleState with param := [(0x0000, 0x401C000000000000), (0x0004, 0x3FDF5C28F5C28F5C), (0x0300, 0x7FF8000000000000), (0x0901, 0x4004000000000000)] }
      (fun t => (t.status.cfgValid, t.cfg.master, t.cfg.mono, t.cfg.amp.attackDelta, t.cfg.stackSize, t.cfg.dLen)) =
      some (true, 0x3FF0000000000000, false, 0x3F97384EF2A605CE, 3, 11025) := by decide +kernel
theorem test_recalc_clips_cursor :
    after (.recalc 0x40E5888000000000) { idleState with param := [(0x0700, 0x3F50624DD2F1A9FC)], dly := ⟨⟨[], 44, 0, 0, 0⟩, ⟨[], 43, 0, 0, 0⟩⟩ }
      (fun t => (t.cfg.dLen, t.dly.left.w, t.dly.right.w)) = some (44, 0, 43) := by decide +kernel
theorem test_reserve_stores :
    after (.reserve 3 0x404E000000000000 0xBFF0000000000000 0xFFFFFFFF 100) readyState (fun t => (t.nres[0], t.fault)) =
      some (⟨⟨3, 0x404E000000000000, 0xBFF0000000000000, 0xFFFFFFFF⟩, 100⟩, .none) := by decide +kernel
theorem test_reserve_bad_channel :
    after (.reserve 16 0x404E000000000000 0x3FE999999999999A 0xFFFFFFFF 0) readyState (fun t => (t.fault, (t.voices[0]).state)) =
      some (.badOperand, .inactive) := by decide +kernel
theorem test_reservep_stores :
    after (.reservep 2 0x4050000000000000 0x3FE8000000000000 9 10) readyState (fun t => t.pres[0]) =
      some ⟨⟨2, 0x4050000000000000, 0, 9⟩, 0x3FE8000000000000, 10⟩ := by decide +kernel
theorem test_process_one_silent_sample :
    after (.process 0x40E5888000000000 1) readyState (fun t => (t.out, t.dly.left.w)) = some ([(0, 0)], 1) := by decide +kernel
theorem test_process_negative_count :
    after (.process 0x40E5888000000000 0xFFFFFFFF) readyState (fun t => (t.fault, t.out)) = some (.badOperand, []) := by
  decide +kernel
theorem test_pwrite_stores :
    after (.pwrite 0x2F0E 0x404E000000000000) State.reset (fun t => (t.param, paramRead t 0x2F0E, paramRead t 0x2E0E)) =
      some ([(0x2F0E, 0x404E000000000000)], 0x404E000000000000, 0x4051400000000000) := by decide +kernel
theorem test_pwrite_unmapped :
    after (.pwrite 0x0706 0x3FF0000000000000) State.reset (fun t => (t.param, t.fault)) = some ([], .badOperand) := by decide +kernel
theorem test_cfg_wave :
    after (.cfgWave .lfo 0x3FE0000000000000 0x3FE0000000000000) readyState (fun t => (t.cfg.lfoWave.down, t.cfg.car.wave)) =
      some (0x4020000000000000, sineWave) := by decide +kernel
/-- 12 semitones up is a ratio of `exp2(1)`, which the numerics record leaves open; 0 semitones is exactly 1 (R147). -/
theorem test_cfg_op :
    after (.cfgOp .modulator) { readyState with param := [(0x0201, 0x4022000000000000), (0x0205, 0x3FD0000000000000)] }
      (fun t => (t.cfg.mod, t.cfg.car)) =
      some (⟨0x3FF0000000000000, 0x4010000000000000, sineWave, false, 0x3FD0000000000000⟩, sineOp 0) := by decide +kernel
theorem test_cfg_env :
    after (.cfgEnv .fm) readyState (fun t => (t.cfg.fmEnv.attackDelta, t.cfg.fmEnv.sustain, t.cfg.amp)) =
      some (0x3F97384EF2A605CE, 0x3FF0000000000000, ⟨0, 0, 0, 0⟩) := by decide +kernel
theorem test_cfg_lp1 :
    after (.cfgLp1 .highPass 0x4051400000000000) readyState (fun t => (t.cfg.dHpAlpha, t.cfg.dLpAlpha, t.ret)) =
      some (0x3FAE3419F72278F2, 0x3FE0000000000000, [0x3FAE3419F72278F2]) := by decide +kernel
theorem test_cfg_svf :
    after .cfgSvf { readyState with param := [(0x0601, 0x3FE0000000000000), (0x0602, 0x3FF0000000000000)] }
      (fun t => (t.cfg.cutoff, t.cfg.res, t.cfg.mix, t.cfg.filterOn)) = some (0x4060000000000000, 0x3FE0000000000000, 0x3FF0000000000000, true) := by
  decide +kernel
theorem test_cfg_moddest :
    after .cfgModdest { readyState with param := [(0x1302, 0x4069000000000000), (0x1704, 0xBFE0000000000000)] }
      (fun t => (t.cfg.depth.cutoff.wheel, t.cfg.depth.lfoLevel.press, t.cfg.dActive.cutoff, t.cfg.dActive.pitch)) =
      some (0x4060000000000000, 0xBFE0000000000000, true, false) := by decide +kernel
theorem test_cfg_tune_default :
    after (.cfgTune 15) readyState (fun t => ((t.table[15])[0], (t.table[15])[60], (t.table[15])[127], (t.table[14])[60])) =
      some (0, 0x404E000000000000, 0x405FC00000000000, 0) := by decide +kernel
/-- `PER_N = 1` makes the period 0 and every entry 69 (L2.6). -/
theorem test_cfg_tune_zero_period :
    after (.cfgTune 0) { readyState with param := [(0x2004, 0x3FF0000000000000)] } (fun t => ((t.table[0])[0], (t.table[0])[127])) =
      some (0x4051400000000000, 0x4051400000000000) := by decide +kernel
theorem test_cfg_stack :
    after .cfgStack { readyState with param := [(0x0900, 0x3FE0000000000000), (0x0901, 0x4004000000000000)] }
      (fun t => (t.cfg.stkMode, t.cfg.stackSize, t.cfg.detune)) = some (.harmonic, 3, 0x3FB999999999999A) := by decide +kernel
theorem test_cfg_delay :
    after .cfgDelay { readyState with dcap := 22050 } (fun t => (t.cfg.dLen, t.cfg.dFb, t.cfg.dCross, t.cfg.dMix)) =
      some (11025, 0x3FD3333333333333, false, 0) := by decide +kernel
theorem test_cfg_global :
    after (.cfgGlobal 0x40E7700000000000) readyState (fun t => (t.cfg.fs, t.cfg.invFs, t.cfg.master, t.cfg.bend)) =
      some (0x40E7700000000000, 0x3EF5D867C3ECE2A5, 0x3FE0000000000000, 0x3FF0000000000000) := by decide +kernel
/-- A slot at 0 is applied and freed, a slot at 3 counts down, an age at its largest stays (L2.7). -/
theorem test_tick :
    after .tick { withVoice 5 (voiceOf .release 0xFFFFFFFF (note 0x4052000000000000 0x3FF0000000000000 1)) with
        nres := (readyState.nres.set 0 ⟨note 0x4051400000000000 0x3FF0000000000000 7, 0⟩).set 4 ⟨note 0x404E000000000000 0x3FF0000000000000 8, 3⟩ }
      (fun t => ((t.nres[0]).offset, (t.nres[4]).offset, (t.voices[0]).note, (t.voices[0]).state, (t.voices[5]).length)) =
      some (-1, 2, note 0x4051400000000000 0x3FF0000000000000 7, .active, 0xFFFFFFFF) := by decide +kernel
/-- Voices 3 and 9 Inactive with ages 40 and 90: voice 9 (L2.7). -/
theorem test_apply_noteon_oldest_inactive :
    after (.applyNoteon (note 0x4051400000000000 0x3FE999999999999A 7))
      { readyState with voices := ((Vector.replicate _ (voiceOf .active 1 (note 0 0 1))).set 3
          (voiceOf .inactive 40 (note 0 0 1))).set 9 (voiceOf .inactive 90 (note 0 0 1)) }
      (fun t => ((t.voices[9]).state, (t.voices[9]).length, (t.voices[9]).note.id, (t.voices[3]).state)) =
      some (.active, 0, 7, .inactive) := by decide +kernel
/-- Copies of a pitch-69 note in harmonic mode: 440, 880, ..., 2640, 3520 (L2.8); the pitch table is the identity. -/
theorem test_apply_noteon_harmonic_base :
    after (.applyNoteon (note 0x4051400000000000 0x3FE999999999999A 7))
      { readyState with cfg := { smallCfg with stkMode := .harmonic, stackSize := 7 },
                        table := Vector.replicate _ (Vector.replicate _ 0x4051400000000000) }
      (fun t => ((t.voices[0]).stackSize, (t.voices[0]).base)) =
      some (7, #v[0x407B800000000000, 0x408B800000000000, 0x4094A00000000000, 0x409B800000000000, 0x40A1300000000000, 0x40A4A00000000000, 0x40AB800000000000]) := by decide +kernel
theorem test_apply_noteoff_two_voices :
    after (.applyNoteoff (note 0x404E000000000000 0xBFF0000000000000 0xFFFFFFFF))
      (let s := withVoice 2 (voiceOf .active 4 (note 0x404E000000000000 0x3FF0000000000000 7))
       { s with voices := s.voices.set 8 (voiceOf .active 2 (note 0x404E000000000000 0x3FF0000000000000 0xFFFFFFFF)) })
      (fun t => ((t.voices[2]).state, (t.voices[8]).state, (t.voices[0]).state)) =
      some (.release, .release, .inactive) := by decide +kernel
theorem test_apply_pressure_clamps :
    after (.applyPressure (note 0x404E000000000000 0 7) 0x3FFB333333333333) (withVoice 2 (voiceOf .release 4 (note 0x404E800000000000 0x3FF0000000000000 7)))
      (fun t => ((t.voices[2]).pressure, (t.voices[3]).pressure)) = some (0x3FF0000000000000, 0) := by decide +kernel
theorem test_voice_start_zeroes :
    after (.voiceStart 2) (withVoice 2 { voiceOf .active 4 (note 0x404E800000000000 0x3FF0000000000000 7) with amp := ⟨0x3FF0000000000000, true⟩, lfoOut := 0x3FF0000000000000 })
      (fun t => ((t.voices[2]).amp, (t.voices[2]).lfoOut, (t.voices[2]).length)) = some (⟨0, false⟩, 0, 4) := by
  decide +kernel
theorem test_voice_restart_keeps_levels :
    after (.voiceRestart 2) (withVoice 2 { voiceOf .active 4 (note 0x404E800000000000 0x3FF0000000000000 7) with amp := ⟨0x3FF0000000000000, true⟩, lfoOut := 0x3FF0000000000000 })
      (fun t => ((t.voices[2]).amp, (t.voices[2]).lfoOut)) = some (⟨0x3FF0000000000000, false⟩, 0x3FF0000000000000) := by decide +kernel
theorem test_sync_step_wraps :
    after (.syncStep 2 6 0x3F947AE147AE147B) (withVoice 2 { Voice.reset with sync := Vector.replicate _ 0x3FEFAE147AE147AE })
      (fun t => ((t.voices[2]).sync[6], (t.voices[2]).sync[5], t.ret)) =
      some (0x3F847AE147AE1480, 0x3FEFAE147AE147AE, [0x3FE0000000000004]) := by decide +kernel
theorem test_sync_step_no_wrap :
    after (.syncStep 2 6 0x3F947AE147AE147B) (withVoice 2 { Voice.reset with sync := Vector.replicate _ 0x3FE0000000000000 })
      (fun t => ((t.voices[2]).sync[6], t.ret)) = some (0x3FE0A3D70A3D70A4, [0xBFF0000000000000]) := by decide +kernel
/-- Phase 0, `fmIn` 0.25: the lookup is at 0.25, the stored phase advances by `delta` alone (L2.2). -/
theorem test_car_step_fm :
    after (.carStep 2 6 0x3FC0000000000000 0xBFF0000000000000 0x3FD0000000000000) readyState (fun t => ((t.voices[2]).car[6], t.ret)) =
      some (⟨0x3FC0000000000000, 0x3FF0000000000000⟩, [0x3FF0000000000000]) := by decide +kernel
/-- The third sample of L2.2's feedback run: phase 0.25, previous output 0.6875, feedback 0.5. -/
theorem test_mod_step_feedback :
    after (.modStep 2 6 0x3FC0000000000000 0xBFF0000000000000) (withVoice 2 { Voice.reset with mod := Vector.replicate _ ⟨0x3FD0000000000000, 0x3FE6000000000000⟩ })
      (fun t => ((t.voices[2]).mod[6], t.ret)) = some (⟨0x3FD8000000000000, 0xBFE1280000000000⟩, [0xBFE1280000000000]) := by
  decide +kernel
theorem test_lfo_step :
    after (.lfoStep 2 0x3FF0000000000000 0x3FF0000000000000) readyState (fun t => ((t.voices[2]).lfoPhase, t.ret)) =
      some (0x3F07C6F8C751F177, [0]) := by decide +kernel
theorem test_lfo_step_second :
    after (.lfoStep 2 0x3FF0000000000000 0x3FF0000000000000) (withVoice 2 { Voice.reset with lfoPhase := 0x3F07C6F8C751F177 })
      (fun t => t.ret) = some [0x3F31D53A92354B28] := by decide +kernel
theorem test_env_step_attack :
    after (.envStep .modEnv 2 true) { readyState with cfg := { smallCfg with modEnv := ⟨0x3F6293725BB804A4, 0, 0, 0x3FD999999999999A⟩ } }
      (fun t => ((t.voices[2]).modEnv, (t.voices[2]).amp, t.ret)) =
      some (⟨0x3F629833C0ACAEA1, false⟩, ⟨0, false⟩, [0x3F629833C0ACAEA1]) := by decide +kernel
theorem test_lp1_step :
    after (.lp1Step .right 0x3FAE3419F72278F2 0x3FF0000000000000) readyState (fun t => (t.dly.right.lp, t.dly.left.lp, t.ret)) =
      some (0x3FAE3419F72278F2, 0, [0x3FAE3419F72278F2]) := by decide +kernel
theorem test_hp1_step :
    after (.hp1Step .left 0x3FAE3419F72278F2 0x3FF0000000000000) readyState (fun t => (t.dly.left.hp, t.dly.left.lp, t.ret)) =
      some (0x3FAE3419F72278F2, 0, [0x3FEE1CBE608DD871]) := by decide +kernel
/-- Cutoff 0 + 69 is 440 Hz; resonance 0.9 + 0.5 clamps to 0.99; mix 0 + 0.25 (L2.4). -/
theorem test_svf_retune :
    after (.svfRetune 0x4051400000000000 0x3FE0000000000000 0x3FD0000000000000) { readyState with cfg := { smallCfg with res := 0x3FECCCCCCCCCCCCD } } (fun t => t.ret) =
      some [0x3FAE3419F72278F2, 0x3F847AE147AE1480, 0x3FD0000000000000] := by decide +kernel
/-- The second sample of L2.4's run: state (0, 0.5), input 1. -/
theorem test_svf_step :
    after (.svfStep 2 .right 0x3FE0000000000000 0x3FE0000000000000 0x3FF0000000000000)
      (withVoice 2 { Voice.reset with flt := ⟨⟨0, 0⟩, ⟨0, 0x3FE0000000000000⟩⟩ }) (fun t => ((t.voices[2]).flt, t.ret)) =
      some (⟨⟨0, 0⟩, ⟨0x3FD0000000000000, 0x3FE8000000000000⟩⟩, [0x3FD0000000000000]) := by decide +kernel
theorem test_mod_add :
    after (.modAdd .pan ⟨0x3FE0000000000000, 0x3FD0000000000000, 0, 0x3FE999999999999A, 0x3FD3333333333333⟩)
      { readyState with cfg := { smallCfg with depth := { smallCfg.depth with pan := ⟨0x3FC999999999999A, 0, 0, 0x3FE0000000000000, 0xBFF0000000000000⟩ } } }
      (fun t => t.ret) = some [0x3FC999999999999A] := by decide +kernel
theorem test_mod_mulbias :
    after (.modMulbias .level ⟨0x3FE0000000000000, 0x3FD0000000000000, 0, 0x3FE999999999999A, 0x3FD3333333333333⟩)
      { readyState with cfg := { smallCfg with depth := { smallCfg.depth with level := ⟨0x3FE0000000000000, 0, 0, 0x3FF0000000000000, 0⟩ } } }
      (fun t => t.ret) = some [0x3FE3333333333334] := by decide +kernel
theorem test_mod_pitch :
    after (.modPitch .lfoSpeed ⟨0x3FE0000000000000, 0x3FD0000000000000, 0, 0x3FE999999999999A, 0x3FD3333333333333⟩)
      { readyState with cfg := { smallCfg with depth := { smallCfg.depth with lfoSpeed := ⟨0x3FB999999999999A, 0, 0, 0, 0x3FE0000000000000⟩ } } }
      (fun t => t.ret) = some [0x3FF351EB851EB852] := by decide +kernel
/-- One copy of a stack of two is stepped per slot below `S`: both carriers advance by `base * invFs`, slot 2 does not.
By hand: 44100 Hz / 4 at an `invFs` of 1/44100 gives a quarter of a period up to rounding, so 11025 * invFs. -/
theorem test_stack_render_steps_its_copies :
    after (.stackRender 2 0x3FF0000000000000 0 0x3FF0000000000000)
      (withVoice 2 { voiceOf .active 4 (note 0x4051400000000000 0x3FF0000000000000 7) with stackSize := 2, base := Vector.replicate _ 0x40C5888000000000 })
      (fun t => (((t.voices[2]).car[0]).phase, ((t.voices[2]).car[1]).phase, ((t.voices[2]).car[2]).phase)) =
      some (0x3FD0000000000000, 0x3FD0000000000000, 0) := by decide +kernel
/-- A Release voice whose amplitude level becomes 0 is Inactive after the sample (L2.8, R312). -/
theorem test_voice_render_ends_release :
    after (.voiceRender 2) { withVoice 2 (voiceOf .release 4 (note 0x4051400000000000 0x3FF0000000000000 7)) with
        cfg := { smallCfg with amp := ⟨0x3FF0000000000000, 0x3FF0000000000000, 0x3FF0000000000000, 0x3FE0000000000000⟩ } }
      (fun t => (t.voices[2]).state) = some .inactive := by decide +kernel
/-- The element at the cursor is read, the input is written there, the cursor wraps modulo the length (by hand: 1 through
a low-pass and a high-pass of alpha 0.5 is 0.5 and then 0.25; feedback 0.5 of it is 0.125). -/
theorem test_delay_step :
    after (.delayStep 0x3FE0000000000000 0) { readyState with dly := ⟨⟨[(1, 0x3FF0000000000000)], 1, 0x3FD0000000000000, 0, 0⟩, DelayChan.reset⟩ }
      (fun t => (t.dly.left, t.dly.right.w, t.ret)) =
      some (⟨[(1, 0x3FE8000000000000)], 0, 0x3FC0000000000000, 0x3FE0000000000000, 0x3FD0000000000000⟩, 1, [0x3FD0000000000000, 0]) := by decide +kernel
/-- At reset the RAM has no element: nothing is written, and the step goes on (R390). -/
theorem test_delay_step_without_ram :
    after (.delayStep 0x3FE0000000000000 0x3FF0000000000000) State.reset (fun t => (t.dly.left.ram, t.dly.right.ram, t.fault, t.free)) =
      some ([], [], .none, 1) := by decide +kernel
/-- A cursor between the length and the capacity, as CFG.DELAY alone can leave it: the element exists and is used. -/
theorem test_delay_step_above_length :
    after (.delayStep 0x3FE0000000000000 0) { readyState with dly := ⟨⟨[(3, 0x3FF0000000000000)], 3, 0, 0, 0⟩, DelayChan.reset⟩ }
      (fun t => (t.dly.left.ram, t.dly.left.w, t.ret, t.free)) =
      some ([(3, 0x3FE0000000000000)], 0, [0x3FD0000000000000, 0], 0) := by decide +kernel
theorem test_mix_of_no_voice : after (.mix 0) readyState (fun t => (t.ret, (t.voices[0]).state)) = some ([0, 0], .inactive) := by
  decide +kernel
/-- By hand: 0.5 times a master volume of 0.5 is 0.25 (binary32 0x3E800000); an infinite sum becomes half. -/
theorem test_out :
    after (.out 0x3FE0000000000000 0x7FF0000000000000 0x3FF0000000000000 0) readyState (fun t => t.out) = some [(0x3E800000, 0x3F000000)] := by decide +kernel

/-! ## Another instance: one of everything, and the linear attack law (R9, R198) -/

/-- The smallest parameters R9 allows. -/
abbrev tiny : Config.Params where
  NV := 1
  NS := 1
  RN := 1
  RP := 1
  NCH := 1
  DCAP_MAX := 1
  attackLaw := .linear
  sineShape := .other id
  modBase := ⟨n2, n1, n1, n1, n1⟩
  modOffset := ⟨n1, n0, n0, n0, n0⟩
  nv_pos := by decide
  ns_pos := by decide
  rn_pos := by decide
  rp_pos := by decide
  nch_pos := by decide
  nch_le := by decide
  dcap_max_pos := by decide

/-- A channel the instance does not have, and the largest stack count it has. -/
theorem test_tiny_map : paramRow tiny 0x2100 = none ∧ (paramRow tiny 0x0901).map ParamRow.hi = some n1 := by decide +kernel
theorem test_tiny_capacity : delayCapacity tiny 0x40E5888000000000 = 1 := by decide +kernel
/-- Under the linear law the attack adds `attackDelta` (R193); at or above 1 it is 1. -/
theorem test_linear_attack :
    envStep tiny ⟨0x3FD0000000000000, 0, 0, 0⟩ ⟨0x3FE0000000000000, false⟩ true = ⟨0x3FE8000000000000, false⟩ ∧
      envStep tiny ⟨0x3FD0000000000000, 0, 0, 0⟩ ⟨0x3FE8000000000000, false⟩ true = ⟨n1, true⟩ := by decide +kernel
/-- The shape and the bases are those the parameters hold: 44_modulation.md R231's unipolar LFO, base 2 and offset 1, at
depth 1 gives the factor `min(1, 1 - 2) + (0.5 + 1) = 0.5` (R234). -/
theorem test_tiny_shape :
    sinShape tiny nHalf = nHalf ∧ modMulbias tiny ⟨n1, n0, n0, n0, n0⟩ ⟨nHalf, n0, n0, n0, n0⟩ = nHalf := by decide +kernel
/-- A step of the machine with those parameters. -/
theorem test_tiny_step :
    (match tiny.step { tiny.reset with cmd := [0x01000000, 0x00000000, 0x40E58880] } with
      | .next t => some (t.status, t.dcap)
      | .fault _ => none
      | .refused _ => none) = some (⟨true, false⟩, 1) := by decide +kernel

/-! ## Steps of the machine -/

/-- A fetched command runs; the words after it stay (R116). -/
theorem test_step_runs_command :
    afterStep { State.reset with cmd := [0x07000705, 0, 0x3FE00000, 0x02000000] } (fun t => (t.param, t.cmd)) =
      some ([(0x0705, 0x3FE0000000000000)], [0x02000000]) := by decide +kernel
theorem test_step_illegal_frame :
    afterStep { readyState with cmd := [0x04000001, 1, 2, 3, 4, 5, 6, 7] } (fun t => (t.fault, t.cmd)) =
      some (.illegalCommand, [7]) := by decide +kernel
theorem test_step_waits :
    afterStep { readyState with cmd := [0x07000000, 0] } (fun t => (t.cmd, t.fault)) = some ([0x07000000, 0], .none) := by
  decide +kernel
theorem test_step_reset :
    afterStep { readyState with resetIn := true, fault := .badOperand, cmd := [0x07000000], param := [(0, 1)] }
      (fun t => (t.status, t.fault, t.dcap, t.cmd.length, t.param.length)) = some (⟨false, false⟩, .none, 0, 0, 0) := by
  decide +kernel
/-- A reset asserted after one of a PROCESS's two pairs: that pair is out, the other is not, and the core is Off (R430). -/
theorem test_step_cut_short :
    afterStep { readyState with cmd := [0x06000000, 0, 0, 2, 0x02000000], resetAfter := some 1 }
      (fun t => (t.out, t.status, t.dcap, t.cmd.length, t.resetIn)) = some ([(0, 0)], ⟨false, false⟩, 0, 0, true) := by
  decide +kernel
/-- The host's own question: a row's bits, placed where the first step fetches. -/
theorem test_with_fetch_word :
    afterStep (State.reset.withFetchWord 8 0x24) (fun t => t.uops) = some [] ∧
      afterStep (State.reset.withFetchWord 32 0x06000000) (fun t => (t.fault, t.cmd)) = some (.badState, []) := by
  decide +kernel

/-! ## Witnesses: for every statement with hypotheses, a state and operands that meet them -/

/-- An instruction that runs, from a check that evaluates. -/
theorem runs {i : Instr} {s : State} (h : after i s (fun _ => ()) = some ()) : ∃ t, P.exec i s = .next t := by
  unfold after at h
  rw [exec_eq] at h
  split at h
  · exact ⟨_, by assumption⟩
  · cases h
  · cases h

/-- A step that answers a next state, from a check that evaluates. -/
theorem runs_step {s : State} (h : afterStep s (fun _ => ()) = some ()) : ∃ t, P.step s = .next t := by
  unfold afterStep at h
  rw [step_eq] at h
  split at h
  · exact ⟨_, by assumption⟩
  · cases h
  · cases h

/-- A ready core with something in every memory. -/
def filledState : State :=
  { readyState with
    param := [(0x0000, 0x3FF0000000000000), (0x2F0E, 0x404E000000000000)]
    dly := ⟨⟨[(0, 0x3FF0000000000000), (3, 0xBFF0000000000000)], 1, 0x3FE0000000000000, 0, 0⟩, ⟨[(2, 0x4000000000000000)], 0, 0, 0, 0⟩⟩ }

/-- The reference instance fits the unit frames, and so does the largest pool that does. -/
theorem witness_EncodeDecodeAgree : P.NV ≤ 24 ∧ P.NS ≤ 256 ∧ portOf (Z := P) .tick = .unitOp := ⟨by decide, by decide, rfl⟩
theorem witness_DecodedFrameIsEncoding :
    decode P .command [0x07000705, 0, 0x3FE00000] = .ok (.pwrite 0x0705 0x3FE0000000000000) ∧
      decode P .unitOp [0x00FFFF40] = .ok (.mix 0xFFFF) := ⟨rfl, rfl⟩
theorem witness_StepRunsDecodedInstruction :
    (let s := { readyState with cmd := [0x02000000] ++ [7], ctl := [0x07000000, 0] }
     s.resetIn = false ∧ s.resetAfter = none ∧ s.uops = [] ∧ frameReady .control s.ctl = false ∧ decode P .command [0x02000000] = .ok .deactivate) ∧
      (let s := { readyState with ctl := [0x07000000, 0, 0] ++ [7], cmd := [0x06000000, 0, 0] }
       s.resetIn = false ∧ s.resetAfter = none ∧ s.uops = [] ∧ frameReady .command s.cmd = false ∧
         decode P .control [0x07000000, 0, 0] = .ok (.pwrite 0 0)) ∧
      decode P .unitOp [0x00000020] = .ok .tick := ⟨⟨rfl, rfl, rfl, rfl, rfl⟩, ⟨rfl, rfl, rfl, rfl, rfl⟩, rfl⟩
theorem witness_PortsWaitForWholeFrame :
    (let s := { readyState with cmd := [0x04000000, 0, 0, 0, 0, 0], ctl := [0x07000000, 0] }
     s.resetIn = false ∧ s.resetAfter = none ∧ s.uops = [] ∧ (∀ h ops, s.cmd = h :: ops → s.cmd.length < formatWords (h.toNat / 2 ^ 24)) ∧
       ∀ h ops, s.ctl = h :: ops → s.ctl.length < formatWords (h.toNat / 2 ^ 24)) := by
  refine ⟨rfl, rfl, rfl, ?_, ?_⟩ <;> (intro h ops e; cases e; decide +kernel)
/-- A reserved `op`, a reserved bit, and on the control port a legal header that is not PWRITE's. -/
theorem witness_IllegalFrameLatches :
    ¬ headerLegal 0x08000000 ∧ formatWords ((0x08000000 : Word).toNat / 2 ^ 24) = 1 ∧ ¬ headerLegal 0x07010000 ∧
      formatWords ((0x07010000 : Word).toNat / 2 ^ 24) = 3 ∧ headerLegal 0x04FF0000 ∧ ¬ headerLegal 0x04000001 ∧
      ¬ ((0x04FF0000 : Word).toNat / 2 ^ 24 = 7) ∧ headerLegal 0x0700FFFF ∧
      frameReady .control [0x07000000, 0] = false ∧ frameReady .command [] = false := by
  unfold headerLegal
  decide +kernel
theorem witness_ContendedPortsRunOne :
    (let s := { readyState with cmd := [0x02000000] ++ [1], ctl := [0x07000000, 0, 0] ++ [2] }
     s.resetIn = false ∧ s.resetAfter = none ∧ s.uops = [] ∧ s.cmd = 0x02000000 :: [] ++ [1] ∧ s.ctl = 0x07000000 :: [0, 0] ++ [2] ∧
       formatWords ((0x02000000 : Word).toNat / 2 ^ 24) = 1 ∧ formatWords ((0x07000000 : Word).toNat / 2 ^ 24) = 3) ∧
      (let s := { readyState with cmd := [0xFF000000], ctl := [0x06000000, 0, 0, 0] }
       s.resetIn = false ∧ s.resetAfter = none ∧ s.uops = [] ∧ s.cmd = 0xFF000000 :: [] ++ [] ∧ s.ctl = 0x06000000 :: [0, 0, 0] ++ [] ∧
         formatWords ((0xFF000000 : Word).toNat / 2 ^ 24) = 1 ∧ formatWords ((0x06000000 : Word).toNat / 2 ^ 24) = 4) := by
  decide +kernel
/-- Reset held; and reset asserted during a step, before its first pair and after its last. -/
theorem witness_HardwareResetTable :
    ({ filledState with resetIn := true } : State).resetIn = true ∧
      (let s := { filledState with cmd := [0x06000000, 0, 0, 1] }
       s.resetIn = false ∧ ∃ u, P.step { s with resetAfter := none } = .next u) ∧
      afterStep { filledState with cmd := [0x06000000, 0, 0, 1], resetAfter := some 0 } (fun t => t.out.length) = some 0 ∧
      afterStep { filledState with cmd := [0x06000000, 0, 0, 1], resetAfter := some 1 } (fun t => t.out.length) = some 1 :=
  ⟨rfl, ⟨rfl, runs_step (by decide +kernel)⟩, by decide +kernel, by decide +kernel⟩
/-- A ready core with a command waiting. -/
def waitingState : State :=
  let e : EnvCfg := ⟨0x3FF0000000000000, 0x3FD0000000000000, 0x3F50624DD2F1A9FC, 0x3FE0000000000000⟩
  { filledState with cfg := { smallCfg with amp := e, fmEnv := e, modEnv := e }, cmd := [0x06000000, 0, 0, 1] }

theorem witness_HostInvariantKept : HostInv waitingState := by
  refine ⟨rfl, ?_, ?_, ?_, ?_, ?_, ?_⟩
  · unfold memoryForm; decide +kernel
  · refine ⟨nofun, fun _ => ⟨by decide, by decide⟩, fun _ => ⟨by decide, by decide, by decide, by decide, by decide, by decide,
      ?_, ?_⟩⟩
    · refine ⟨List.all_eq_true.mp (by decide +kernel : (cfgNums waitingState.cfg).all isFinite = true), ?_⟩
      unfold envCfgForm; decide +kernel
    · intro ch key
      have h : tableRead waitingState.table ch key = 0 := by
        simp [tableRead, waitingState, filledState, readyState, State.reset, Config.Params.reset]
      rw [h]
      decide +kernel
  · unfold ringForm; decide +kernel
  · unfold voiceForm; decide +kernel
  · unfold delayForm; decide +kernel
  · unfold delayForm; decide +kernel
theorem witness_MemoryFormKept :
    memoryForm filledState ∧ (∃ t, P.exec (.delayStep 0x3FF0000000000000 0x3FF0000000000000) filledState = .next t) ∧
      ∃ t, P.exec (.pwrite 0x0000 0x3FE0000000000000) filledState = .next t := by
  refine ⟨?_, runs (by decide +kernel), runs (by decide +kernel)⟩
  unfold memoryForm
  decide +kernel
theorem witness_FaultIsSticky :
    (let s := { readyState with fault := .badState, cmd := [0xFF000000] }
     s.resetIn = false ∧ s.resetAfter = none ∧ s.fault ≠ .none ∧ ∃ t, P.step s = .next t) ∧
      (let s := { readyState with fault := .badState, resetIn := true }; s.resetIn = true ∧ ∃ t, P.step s = .next t) ∧
      (let s := { readyState with fault := .badState, resetAfter := some 0, cmd := [0x02000000] }
       s.resetAfter ≠ none ∧ ∃ t, P.step s = .next t) :=
  ⟨⟨rfl, rfl, by decide +kernel, runs_step (by decide +kernel)⟩, ⟨rfl, runs_step (by decide +kernel)⟩, by decide,
    runs_step (by decide +kernel)⟩
theorem witness_WrongStateFaults :
    readyState.status.active = true ∧ State.reset.status.active = false ∧ idleState.status.active = true ∧
      idleState.status.cfgValid = false := ⟨rfl, rfl, rfl, rfl⟩
theorem witness_BadOperandFaults :
    (∀ a ∈ [0x0005, 0x00FF, 0x0106, 0x0206, 0x0304, 0x0404, 0x0504, 0x0603, 0x0706, 0x0804, 0x0903, 0x0A00, 0x0FFF, 0x1005,
      0x10FF, 0x1705, 0x1800, 0x1FFF, 0x200F, 0x2F0F, 0x3000, 0xFFFF], ¬ listedAddress P a) ∧
      readyState.status.active = true ∧ readyState.status.cfgValid = true ∧ P.NCH ≤ (16 : BitVec 8).toNat ∧
      isFinite 0x7FF8000000000000 = false ∧ isFinite 0x7FF0000000000000 = false ∧ (0xFFFFFFFF : Word).toInt < 0 ∧
      (0x80000000 : Word).toInt < 0 := by
  unfold listedAddress
  decide +kernel
theorem witness_UnitOperationsRaiseNothing :
    portOf (Z := P) .tick = .unitOp ∧ ∃ t, P.exec .tick readyState = .next t := ⟨rfl, runs (by decide +kernel)⟩
theorem witness_FaultIsARecord : ∃ t, P.exec (.process 0 1) { readyState with fault := .badState } = .next t :=
  runs (by decide +kernel)
theorem witness_TiersWriteTheirOwn :
    (tierOf (Z := P) .deactivate = .init ∧ ∃ t, P.exec .deactivate readyState = .next t) ∧
      (tierOf (Z := P) (.recalc 0x40E5888000000000) = .event ∧ frameReady .control readyState.ctl = false ∧
        ∃ t, P.exec (.recalc 0x40E5888000000000) readyState = .next t) ∧
      (tierOf (Z := P) (.process 0 1) = .audio ∧ ∃ t, P.exec (.process 0 1) readyState = .next t) ∧
      (tierOf (Z := P) (.pwrite 0 0) = .hostSide ∧ ∃ t, P.exec (.pwrite 0 0) readyState = .next t) :=
  ⟨⟨rfl, runs (by decide +kernel)⟩, ⟨rfl, rfl, runs (by decide +kernel)⟩, ⟨rfl, runs (by decide +kernel)⟩, rfl,
    runs (by decide +kernel)⟩
/-- The first and the last register of every group. -/
theorem witness_PwriteStores :
    memoryForm filledState ∧
      ∀ a ∈ [0x0000, 0x0004, 0x0100, 0x0105, 0x0200, 0x0205, 0x0300, 0x0303, 0x0400, 0x0403, 0x0500, 0x0503, 0x0600, 0x0602,
        0x0700, 0x0705, 0x0800, 0x0803, 0x0900, 0x0902, 0x1000, 0x1004, 0x1100, 0x1704, 0x2000, 0x200E, 0x2F00, 0x2F0E],
        listedAddress P a := by
  unfold memoryForm listedAddress
  decide +kernel
theorem witness_PwriteCommutes :
    listedAddress P (0x0000 : BitVec 16).toNat ∧ (∃ t, P.exec (.reserve 0 0x404E000000000000 0x3FF0000000000000 1 3) readyState = .next t) ∧
      (∃ t, P.exec (.reservep 0 0x404E000000000000 0x3FF0000000000000 1 0) readyState = .next t) ∧ ∃ t, P.exec (.process 0 1) readyState = .next t := by
  refine ⟨?_, runs (by decide +kernel), runs (by decide +kernel), runs (by decide +kernel)⟩
  unfold listedAddress
  decide +kernel
theorem witness_ActivateClears : ({ filledState with status := ⟨false, false⟩ } : State).status.active = false := rfl
theorem witness_DeactivateClears : filledState.status.active = true ∧ idleState.status.active = true := ⟨rfl, rfl⟩
theorem witness_RecalcIsItsSchedule :
    filledState.status.active = true ∧ frameReady .control filledState.ctl = false ∧
      frameReady .control [0x07000000, 0] = false := ⟨rfl, rfl, rfl⟩
theorem witness_RecalcIsIdempotent :
    (∃ t, P.exec (.recalc 0x40E5888000000000) filledState = .next t) ∧ filledState.status.active = true ∧
      frameReady .control filledState.ctl = false ∧
      (let s := { idleState with param := filledState.param, dcap := filledState.dcap }
       s.status.active = true ∧ frameReady .control s.ctl = false ∧ filledState.param = s.param ∧
         filledState.dcap = s.dcap ∧ ∃ t, P.exec (.recalc 0x40E5888000000000) s = .next t) :=
  ⟨runs (by decide +kernel), rfl, rfl, rfl, rfl, rfl, rfl, runs (by decide +kernel)⟩
theorem witness_SnapshotIsCoherent :
    frameReady .control idleState.ctl = false ∧ idleState.status.active = true ∧
      (∀ b, paramRead idleState b = snapshot idleState b) ∧ ∃ t, P.exec (.recalc 0x40E5888000000000) idleState = .next t :=
  ⟨rfl, rfl, fun _ => rfl, runs (by decide +kernel)⟩
theorem witness_SanitizedInRange : paramRow P 0x0000 = some ⟨0, 0x3FF0000000000000, 0x3FE0000000000000⟩ := by decide +kernel
theorem witness_RecalcBounds :
    (let s := { filledState with dcap := 1 }
     s.status.active = true ∧ 1 ≤ s.dcap ∧ frameReady .control s.ctl = false ∧
       ∃ t, P.exec (.recalc 0x7FF8000000000000) s = .next t) ∧ isNaN 0x7FF0000000000000 = false ∧ isNaN 0xBFF0000000000000 = false :=
  ⟨⟨rfl, le_refl _, rfl, runs (by decide +kernel)⟩, by decide +kernel, by decide +kernel⟩
/-- The sum of the lowest and of the highest key of a default channel is a number: -6 periods of 12 on the pitch 72, and 4
periods on 79. -/
theorem witness_CfgTuneResult :
    isNaN (fadd (fmul (decimal 12 1) (ofInt (Int.fdiv ((0 : Int) - 69) 12))) (decimal 72 1)) = false ∧
      isNaN (fadd (fmul (decimal 12 1) (ofInt (Int.fdiv ((127 : Int) - 69) 12))) (decimal 79 1)) = false := by decide +kernel
theorem witness_DefaultTuningIsIdentity :
    ∀ k, k < 15 → paramRead State.reset (0x2000 + 256 * (15 : Fin 16).val + k) =
      paramDefault P (0x2000 + 256 * (15 : Fin 16).val + k) := fun _ _ => rfl
/-- The largest channel, and the offsets where the two clauses meet. -/
theorem witness_ReserveAppliesOrStores :
    (15 : BitVec 8).toNat < P.NCH ∧ readyState.status.active = true ∧ readyState.status.cfgValid = true ∧
      isFinite 0x404E000000000000 = true ∧ isFinite 0xBFF0000000000000 = true ∧ (0 : Word).toInt ≤ 0 ∧ (0x80000000 : Word).toInt ≤ 0 ∧
      0 < (1 : Word).toInt ∧ 0 < (0x7FFFFFFF : Word).toInt := by decide +kernel
theorem witness_ReservepAppliesOrStores :
    (0 : BitVec 8).toNat < P.NCH ∧ readyState.status.active = true ∧ readyState.status.cfgValid = true ∧
      isFinite 0x404E000000000000 = true ∧ isFinite 0x3FFB333333333333 = true ∧ (0 : Word).toInt ≤ 0 ∧ 0 < (1 : Word).toInt := by decide +kernel
/-- A ring with a free slot, and a full one. -/
theorem witness_StoreTakesTheSlot :
    (∃ k : Fin P.RN, (readyState.nres[k]).offset < 0) ∧ (∃ k : Fin P.RP, (readyState.pres[k]).offset < 0) ∧
      (∀ k : Fin P.RN, 0 ≤ ((Vector.replicate P.RN (⟨note 0 0 1, 0⟩ : NoteRes P))[k]).offset) ∧
      ∀ k : Fin P.RP, 0 ≤ ((Vector.replicate P.RP (⟨note 0 0 1, 0, 7⟩ : PressRes P))[k]).offset := by
  decide +kernel
theorem witness_ReservationCountsDown :
    (let s := { readyState with nres := readyState.nres.set 31 ⟨note 0x404E000000000000 0x3FF0000000000000 1, 0⟩
                                pres := readyState.pres.set 0 ⟨note 0x404E000000000000 0 1, 0x3FF0000000000000, 3⟩ }
     (s.nres[(31 : Fin 32)]).offset = ((0 : Nat) : Int) ∧ (s.pres[(0 : Fin 32)]).offset = ((3 : Nat) : Int)) := by
  decide +kernel
/-- A pool with an Inactive voice, and one with none. -/
theorem witness_NoteOnTakesAVoice :
    (∃ i : Fin P.NV, (readyState.voices[i]).state = .inactive) ∧
      ∀ i : Fin P.NV, ((Vector.replicate P.NV (voiceOf .active 3 (note 0 0 1)))[i]).state ≠ .inactive := by
  decide +kernel
/-- Matched by id, matched by pitch through the global id (-0 and 0 are one pitch), and not matched. -/
theorem witness_NoteOffAndPressureMatch :
    (let same := fun (a b : MidiNote P) =>
       a.ch = b.ch ∧ if a.id ≠ 0xFFFFFFFF ∧ b.id ≠ 0xFFFFFFFF then a.id = b.id else feq a.pitch b.pitch = true
     same (note 0x404E000000000000 0 4) (note 0x4052000000000000 0 4) ∧ same (note 0x8000000000000000 0 0xFFFFFFFF) (note 0 0 5) ∧
       ¬ same (note 0x404E000000000000 0 0xFFFFFFFF) (note 0x404E000000000001 0 5) ∧
       ¬ same (note 0x404E000000000000 0 4) (note 0x404E000000000000 0 5) ∧ ¬ same (note 0x404E000000000000 0 4) ⟨1, 0x404E000000000000, 0, 4⟩) := by decide +kernel
/-- The ends of every range; attack, decay at the sustain level, and release. -/
theorem witness_EnvelopeLevels :
    inClosedUnit 0 = true ∧ inClosedUnit 0x3FF0000000000000 = true ∧ fle 0x3FE0000000000000 0x3FE0000000000000 = true ∧
      (envStepUnder .expReverse ⟨0x3FF0000000000000, 0x3FF0000000000000, 0x3FF0000000000000, 0x3FE0000000000000⟩ ⟨0, false⟩ true).decaying = true := by decide +kernel
theorem witness_VoiceLifecycle :
    ((withVoice 15 (voiceOf .active 3 (note 0 0 1))).voices[(15 : Fin 16)]).state = .active ∧
      ((withVoice 15 (voiceOf .release 3 (note 0 0 1))).voices[(15 : Fin 16)]).state = .release ∧
      (readyState.voices[(0 : Fin 16)]).state = .inactive := by decide +kernel
/-- Both cursors backed; and a cursor at a length of 2 with a capacity of 4. -/
theorem witness_DelayStepEffect :
    memoryForm filledState ∧ filledState.dly.left.w < filledState.dcap ∧ filledState.dly.right.w < filledState.dcap ∧
      0 < filledState.cfg.dLen ∧ filledState.cfg.dLen < filledState.dcap ∧ 0 ≤ filledState.dcap := by
  unfold memoryForm
  decide +kernel
theorem witness_DelayLineReturnsInput :
    memoryForm filledState ∧ filledState.dly.left.w < filledState.cfg.dLen ∧
      filledState.dly.right.w < filledState.cfg.dLen ∧ filledState.cfg.dLen ≤ filledState.dcap ∧
      ([(0x3FF0000000000000, 0), (0, 0x3FF0000000000000)] : List (Sys2Proof.Num × Sys2Proof.Num)).length = filledState.cfg.dLen := by
  unfold memoryForm
  decide +kernel
/-- A count of 0, and the largest one. -/
theorem witness_ProcessIsItsSamples :
    filledState.status.active = true ∧ filledState.status.cfgValid = true ∧ 0 ≤ (0 : Word).toInt ∧
      0 ≤ (0x7FFFFFFF : Word).toInt := by decide +kernel
theorem witness_SelectionRule :
    (∀ i : Fin P.NV, (readyState.voices[i]).state = .inactive) ∧
      ∃ i : Fin P.NV, ((withVoice 15 (voiceOf .release 3 (note 0 0 1))).voices[i]).state ≠ .inactive := by
  decide +kernel
theorem witness_SilenceStaysSilent :
    memoryForm readyState ∧ readyState.status.active = true ∧ readyState.status.cfgValid = true ∧
      readyState.dly.left.w < readyState.cfg.dLen ∧ readyState.dly.right.w < readyState.cfg.dLen ∧
      readyState.cfg.dLen ≤ readyState.dcap ∧ 0 ≤ (4096 : Word).toInt ∧
      (∀ i : Fin P.NV, (readyState.voices[i]).state = .inactive) ∧
      (∀ j : Fin P.RN, (readyState.nres[j]).offset < 0) ∧ (∀ j : Fin P.RP, (readyState.pres[j]).offset < 0) ∧
      (∀ c : Chan, (∀ a, ramRead (chanGet readyState.dly c).ram a = n0) ∧ (chanGet readyState.dly c).fb = n0 ∧
        (chanGet readyState.dly c).lp = n0 ∧ (chanGet readyState.dly c).hp = n0) ∧
      inClosedUnit readyState.cfg.dLpAlpha = true ∧ inClosedUnit readyState.cfg.dHpAlpha = true ∧
      inClosedUnit readyState.cfg.dFb = true ∧ inClosedUnit readyState.cfg.dMix = true ∧
      inClosedUnit readyState.cfg.master = true ∧ signBit readyState.cfg.master = false := by
  refine ⟨?_, rfl, rfl, by decide, by decide, by decide, by decide, by decide +kernel, by decide +kernel, by decide +kernel,
    ?_, by decide +kernel, by decide +kernel, by decide +kernel, by decide +kernel, by decide +kernel, by decide +kernel⟩
  · unfold memoryForm
    decide +kernel
  · rintro (_ | _) <;> exact ⟨fun _ => rfl, rfl, rfl, rfl⟩

end Sys2Proof.Tests.Slice0
end

-- ==== State: reset and FAULT ====
section
/-! PROOFS. The invariant at reset, and the sticky FAULT register (10_state.md R32, R58, R59). -/

namespace Sys2Proof.Machine

variable {Z : Config.Params}

/-! ## The invariant at reset (R58, R59) -/

theorem memoryForm_reset : memoryForm Z.reset := ⟨rfl, rfl, rfl, nofun⟩

theorem statusForm_reset : statusForm Z.reset := ⟨fun _ => ⟨rfl, rfl⟩, nofun, nofun⟩

theorem ringForm_reset : ringForm Z.reset := by
  constructor <;> intro j <;> simp [Config.Params.reset, NoteRes.reset, PressRes.reset]

/-- The reset voice has its phases and levels at +0 and one copy (10_state.md R45, R59). -/
theorem voiceForm_reset : voiceForm (Voice.reset : Voice Z) := by
  have phase : inUnit 0 = true := inUnit_n0
  have level : inClosedUnit 0 = true := by decide +kernel
  refine ⟨le_refl _, Z.ns_pos, phase, ?_, ?_, ?_, level, level, level⟩ <;> intro k <;> simpa [Voice.reset] using phase

theorem delayForm_reset (dcap : Nat) : delayForm dcap DelayChan.reset := ⟨nofun, rfl⟩

theorem hostInv_reset : HostInv Z.reset :=
  ⟨rfl, memoryForm_reset, statusForm_reset, ringForm_reset,
    fun i => by simpa [Config.Params.reset] using voiceForm_reset, delayForm_reset _, delayForm_reset _⟩

/-- Settles O11: each form of the invariant holds of the reset table. -/
theorem hostInvariantAtReset : Obligations.HostInvariantAtReset := ⟨fun _ => hostInv_reset, rfl⟩

/-! ## FAULT keeps its first cause (R32) -/

/-- FAULT keeps the cause it holds from `s` to `t`, if it holds one. -/
def KeepsCause (s t : State Z) : Prop := s.fault ≠ .none → t.fault = s.fault

theorem KeepsCause.of_eq {s t : State Z} (h : t.fault = s.fault) : KeepsCause s t := fun _ => h

theorem KeepsCause.trans {s t u : State Z} (h1 : KeepsCause s t) (h2 : KeepsCause t u) : KeepsCause s u := fun h => by
  have ht := h1 h
  rw [h2 (ht ▸ h), ht]

theorem keepsCause_raise (c : Cause) (s : State Z) : KeepsCause s (raise c s) := fun h => by rw [raise, if_neg h]

theorem keepsCause_pwriteTo (addr : BitVec 16) (v : Num) (s : State Z) : KeepsCause s (pwriteTo addr v s) := by
  unfold pwriteTo
  split
  · exact .of_eq rfl
  · exact keepsCause_raise _ _

theorem keepsCause_controlFrame (s : State Z) (ws : List Word) : KeepsCause s (controlFrame s ws) := by
  unfold controlFrame
  split
  · exact keepsCause_pwriteTo _ _ _
  · exact keepsCause_raise _ _

theorem keepsCause_foldl_controlFrame (fs : List (List Word)) (s : State Z) :
    KeepsCause s (fs.foldl controlFrame s) := by
  induction fs generalizing s with
  | nil => exact .of_eq rfl
  | cons ws fs ih => exact (keepsCause_controlFrame s ws).trans (ih _)

theorem keepsCause_afterOverlap (s : State Z) : KeepsCause s (afterOverlap s) := by
  unfold afterOverlap
  split
  · exact .of_eq rfl
  · exact (keepsCause_foldl_controlFrame (overlapping s) s).trans (.of_eq rfl)

theorem samples_fault (n : Nat) (s : State Z) : (samples n s).fault = s.fault := by
  obtain ⟨vs, nr, pr, d, f, os, h, -⟩ := samples_eq n s
  rw [h]

theorem tick_fault (s : State Z) : (tick s).fault = s.fault := by
  obtain ⟨vs, n, p, h⟩ := tick_eq s
  rw [h]

/-- A unit operation leaves FAULT as it is (60_exceptions.md R390 a). -/
theorem exec_unitOp_fault {i : Instr Z} {s t : State Z} (hp : portOf i = .unitOp) (h : Z.exec i s = .next t) :
    t.fault = s.fault := by
  cases i <;> cases hp
  case tick => cases h; exact tick_fault s
  case delayStep xl xr => cases h; rfl
  all_goals cases h; simp

/-- The shape of a command that needs a state `b`: elsewhere it raises a cause (60_exceptions.md R391). -/
theorem keepsCause_of_guard {b : Bool} {c : Cause} {o : Host.Outcome (State Z) Fault Refusal} {s t : State Z}
    (h : (if b then o else .next (raise c s)) = .next t) (ho : o = .next t → KeepsCause s t) : KeepsCause s t := by
  split at h
  · exact ho h
  · cases h
    exact keepsCause_raise c s

/-- An instruction raises a cause at most where FAULT holds none (60_exceptions.md R392). -/
theorem keepsCause_exec {i : Instr Z} {s t : State Z} (h : Z.exec i s = .next t) : KeepsCause s t := by
  cases i
  case activate fs =>
    simp only [Config.Params.exec, execActivate] at h
    split at h <;> cases h
    · exact keepsCause_raise _ _
    · exact .of_eq rfl
  case deactivate => exact keepsCause_of_guard h fun h => by cases h; exact .of_eq rfl
  case recalc fs =>
    exact keepsCause_of_guard h fun h => by cases h; exact (keepsCause_afterOverlap s).trans (.of_eq rfl)
  case reserve ch pitch velocity id offset =>
    refine keepsCause_of_guard h fun h => ?_
    split at h
    · cases h; exact keepsCause_raise _ _
    · split at h <;> cases h <;> exact .of_eq rfl
  case reservep ch pitch pressure id offset =>
    refine keepsCause_of_guard h fun h => ?_
    split at h
    · cases h; exact keepsCause_raise _ _
    · split at h <;> cases h <;> exact .of_eq rfl
  case process fs count =>
    refine keepsCause_of_guard h fun h => ?_
    split at h <;> cases h
    · exact keepsCause_raise _ _
    · exact .of_eq (samples_fault _ _)
  case pwrite addr v => cases h; exact keepsCause_pwriteTo _ _ _
  all_goals exact .of_eq (exec_unitOp_fault rfl h)

@[simp] theorem consumeFrame_fault (p : Port) (s : State Z) : (consumeFrame p s).fault = s.fault := by cases p <;> rfl

@[simp] theorem arbitrated_fault (s : State Z) : (arbitrated s).fault = s.fault := by
  unfold arbitrated
  split <;> rfl

/-- What the ports hold, run for one step, leaves a cause in FAULT as it is (60_exceptions.md R392). -/
theorem keepsCause_advance {s t : State Z} (h : advance Z.exec s = .next t) : KeepsCause s t := by
  unfold advance at h
  split at h
  · unfold runUnit at h
    split at h
    · exact KeepsCause.trans (.of_eq (consumeFrame_fault _ _)) (keepsCause_exec h)
    · cases h
  · split at h
    · cases h
      exact .of_eq rfl
    · have taken : ∀ p, KeepsCause s (consumeFrame p (arbitrated s)) := fun p => .of_eq (by simp)
      unfold runFrame at h
      split at h
      · exact (taken _).trans (keepsCause_exec h)
      · cases h
        exact (taken _).trans (keepsCause_raise _ _)

/-- Settles O13: a step without a reset keeps a cause, since raising one does; a step with one leaves the reset table. -/
theorem faultIsSticky : Obligations.FaultIsSticky := by
  intro Z
  refine ⟨fun s => rfl, fun s t hr ha hf h => ?_, fun s t hr h => ?_, rfl⟩
  · rcases step_cases h with ⟨hr', -⟩ | ⟨-, -, h⟩ | ⟨-, n, u, ha', -⟩
    · simp [hr] at hr'
    · exact keepsCause_advance h hf
    · simp [ha] at ha'
  · rcases step_cases h with ⟨-, rfl⟩ | ⟨hr', ha', -⟩ | ⟨-, n, u, -, -, rfl⟩
    · rfl
    · simp [hr', ha'] at hr
    · rfl

end Sys2Proof.Machine
end

-- ==== State: PWRITE and the other commands ====
section
/-! PROOFS. PWRITE commutes with the commands that do not read PARAM (20_memory.md, consistency model, clause d). -/

namespace Sys2Proof.Machine

variable {Z : Config.Params}

/-! ## Which addresses are mapped (R33 to R43, 49_processor.md R350) -/

theorem mapped_iff_lt_length (a : Nat) : mapped Z a = true ↔ a % 256 < (groupRows Z (a / 256)).length := by
  simp [mapped, paramRow]

/-- The addresses with a row in the map are those that R350 lists. -/
theorem mapped_iff_listedAddress (a : Nat) : mapped Z a = true ↔ listedAddress Z a := by
  rw [mapped_iff_lt_length]
  unfold groupRows listedAddress
  split_ifs <;> simp only [envRows, depthRows, tuneRows, List.length_cons, List.length_nil, List.length_replicate] <;> omega

theorem pwriteTo_of_listed {addr : BitVec 16} (h : listedAddress Z addr.toNat) (v : Num) (s : State Z) :
    pwriteTo addr v s = paramWrite s addr.toNat v :=
  if_pos ((mapped_iff_listedAddress _).mpr h)

theorem exec_pwrite_of_listed {addr : BitVec 16} (h : listedAddress Z addr.toNat) (v : Num) (s : State Z) :
    Z.exec (.pwrite addr v) s = .next (paramWrite s addr.toNat v) :=
  congrArg _ (pwriteTo_of_listed h v s)

/-! ## What does not read PARAM commutes with a write to it -/

@[simp] theorem ready_paramWrite (s : State Z) (a : Nat) (v : Num) : ready (paramWrite s a v) = ready s := rfl

theorem raise_paramWrite (c : Cause) (s : State Z) (a : Nat) (v : Num) :
    raise c (paramWrite s a v) = paramWrite (raise c s) a v := by
  unfold raise
  rw [paramWrite_fault]
  split_ifs <;> rfl

theorem applyNote_paramWrite (ev : MidiNote Z) (s : State Z) (a : Nat) (v : Num) :
    applyNote ev (paramWrite s a v) = paramWrite (applyNote ev s) a v := rfl

theorem applyPressure_paramWrite (ev : MidiNote Z) (p : Num) (s : State Z) (a : Nat) (v : Num) :
    applyPressure ev p (paramWrite s a v) = paramWrite (applyPressure ev p s) a v := rfl

theorem tickNoteSlot_paramWrite (s : State Z) (j : Fin Z.RN) (a : Nat) (v : Num) :
    tickNoteSlot (paramWrite s a v) j = paramWrite (tickNoteSlot s j) a v := by
  unfold tickNoteSlot
  dsimp only [paramWrite_nres]
  split_ifs <;> rfl

theorem tickPressSlot_paramWrite (s : State Z) (j : Fin Z.RP) (a : Nat) (v : Num) :
    tickPressSlot (paramWrite s a v) j = paramWrite (tickPressSlot s j) a v := by
  unfold tickPressSlot
  dsimp only [paramWrite_pres]
  split_ifs <;> rfl

theorem tick_paramWrite (s : State Z) (a : Nat) (v : Num) :
    tick (paramWrite s a v) = paramWrite (tick s) a v := by
  have notes (u : State Z) : (indices Z.RN).foldl tickNoteSlot (paramWrite u a v) =
      paramWrite ((indices Z.RN).foldl tickNoteSlot u) a v :=
    List.foldl_hom (paramWrite · a v) fun s j => tickNoteSlot_paramWrite s j a v
  have pressures (u : State Z) : (indices Z.RP).foldl tickPressSlot (paramWrite u a v) =
      paramWrite ((indices Z.RP).foldl tickPressSlot u) a v :=
    List.foldl_hom (paramWrite · a v) fun s j => tickPressSlot_paramWrite s j a v
  unfold tick
  rw [← pressures, ← notes]
  rfl

theorem sample_paramWrite (s : State Z) (a : Nat) (v : Num) :
    sample (paramWrite s a v) = paramWrite (sample s) a v := by
  unfold sample
  rw [tick_paramWrite]
  rfl

theorem samples_paramWrite (n : Nat) (s : State Z) (a : Nat) (v : Num) :
    samples n (paramWrite s a v) = paramWrite (samples n s) a v := by
  induction n generalizing s with
  | zero => rfl
  | succ n ih => rw [samples, sample_paramWrite, ih, samples]

/-- The outcome with `g` applied to the next state, if there is one. -/
def thenApply (g : State Z → State Z) : Host.Outcome (State Z) Fault Refusal → Host.Outcome (State Z) Fault Refusal
  | .next t => .next (g t)
  | .fault r => .fault r
  | .refused r => .refused r

/-- `f` does the same whether a register is written before it or after it. -/
def CommutesWithWrite (f : State Z → Host.Outcome (State Z) Fault Refusal) : Prop :=
  ∀ (s : State Z) (a : Nat) (v : Num), f (paramWrite s a v) = thenApply (paramWrite · a v) (f s)

theorem raise_commutesWithWrite (c : Cause) : CommutesWithWrite (Z := Z) fun s => .next (raise c s) :=
  fun s a v => congrArg Host.Outcome.next (raise_paramWrite c s a v)

/-- The shape of a command that only a Ready core takes. -/
theorem ready_commutesWithWrite {f : State Z → Host.Outcome (State Z) Fault Refusal} (h : CommutesWithWrite f) :
    CommutesWithWrite fun s => if ready s then f s else .next (raise .badState s) := by
  intro s a v
  dsimp only
  rw [ready_paramWrite]
  split
  · exact h s a v
  · exact raise_commutesWithWrite .badState s a v

theorem execReserve_commutesWithWrite (ch : BitVec 8) (pitch velocity : Num) (id offset : Word) :
    CommutesWithWrite (execReserve (Z := Z) ch pitch velocity id offset) := by
  refine ready_commutesWithWrite fun s a v => ?_
  cases noteOperand (Z := Z) ch pitch velocity velocity id with
  | none => exact raise_commutesWithWrite .badOperand s a v
  | some ev => dsimp only; split_ifs <;> rfl

theorem execReservep_commutesWithWrite (ch : BitVec 8) (pitch pressure : Num) (id offset : Word) :
    CommutesWithWrite (execReservep (Z := Z) ch pitch pressure id offset) := by
  refine ready_commutesWithWrite fun s a v => ?_
  cases noteOperand (Z := Z) ch pitch pressure n0 id with
  | none => exact raise_commutesWithWrite .badOperand s a v
  | some ev => dsimp only; split_ifs <;> rfl

theorem execProcess_commutesWithWrite (fs : Num) (count : Word) :
    CommutesWithWrite (execProcess (Z := Z) fs count) := by
  refine ready_commutesWithWrite fun s a v => ?_
  split
  · exact raise_commutesWithWrite .badOperand s a v
  · exact congrArg Host.Outcome.next (samples_paramWrite _ s a v)

/-- Settles O20: no command of the three reads PARAM, and each keeps it. -/
theorem pwriteCommutes : Obligations.PwriteCommutes := by
  intro Z addr v i s t ha hi h
  have hc : CommutesWithWrite (Z.exec i) := by
    rcases hi with ⟨ch, p, x, id, off, rfl⟩ | ⟨ch, p, x, id, off, rfl⟩ | ⟨fs, n, rfl⟩
    · exact execReserve_commutesWithWrite ch p x id off
    · exact execReservep_commutesWithWrite ch p x id off
    · exact execProcess_commutesWithWrite fs n
  refine ⟨_, _, exec_pwrite_of_listed ha v s, ?_, exec_pwrite_of_listed ha v t⟩
  rw [hc s addr.toNat v, h, thenApply]

end Sys2Proof.Machine
end

-- ==== State: the ranges after RECALC ====
section
/-! PROOFS. The ranges of CFG, TABLE and the cursors after a RECALC (10_state.md R44, R53; 49_processor.md R353). -/

namespace Sys2Proof.Machine

variable {Z : Config.Params}

/-! ## Intervals: sums, magnitudes, integers -/

/-- A sum of two numbers in intervals, from the sums of the intervals' ends. -/
theorem fadd_within {a b la ha lb hb lo hi : Num} (h1 : within a la ha = true) (h2 : within b lb hb = true)
    (fin : (isFinite la && isFinite ha && isFinite lb && isFinite hb && !isNaN lo && !isNaN hi) = true)
    (hl : units lo ≤ units la + units lb) (hh : units ha + units hb ≤ units hi) : within (fadd a b) lo hi = true := by
  simp only [Bool.and_eq_true, Bool.not_eq_true'] at fin
  obtain ⟨⟨⟨⟨⟨fla, fha⟩, flb⟩, fhb⟩, nlo⟩, nhi⟩ := fin
  have ea := within_iff.mp h1
  have eb := within_iff.mp h2
  rw [fle_iff, fle_iff] at ea eb
  obtain ⟨⟨-, -, la_le⟩, -, -, le_ha⟩ := ea
  obtain ⟨⟨-, -, lb_le⟩, -, -, le_hb⟩ := eb
  exact within_iff.mpr (fadd_between (isFinite_of_within h1 fla fha) (isFinite_of_within h2 flb fhb) nlo nhi
    (hl.trans (add_le_add la_le lb_le)) ((add_le_add le_ha le_hb).trans hh))

/-- One less a number in an interval, from the interval's ends. -/
theorem one_sub_within {b lb hb lo hi : Num} (h : within b lb hb = true)
    (fin : (isFinite lb && isFinite hb && !isNaN lo && !isNaN hi) = true)
    (hl : units lo ≤ units n1 - units hb) (hh : units n1 - units lb ≤ units hi) : within (fsub n1 b) lo hi = true := by
  simp only [Bool.and_eq_true, Bool.not_eq_true'] at fin
  obtain ⟨⟨⟨flb, fhb⟩, nlo⟩, nhi⟩ := fin
  have eb := within_iff.mp h
  rw [fle_iff, fle_iff] at eb
  obtain ⟨⟨-, -, lb_le⟩, -, -, le_hb⟩ := eb
  exact within_iff.mpr (fsub_between (by decide +kernel) (isFinite_of_within h flb fhb) nlo nhi
    (hl.trans (sub_le_sub_left le_hb _)) ((sub_le_sub_left lb_le _).trans hh))

theorem clamp_within {x lo hi : Num} (hx : isNaN x = false) (h : fle lo hi = true) :
    within (clamp x lo hi) lo hi = true := within_iff.mpr (clamp_range hx h)

theorem fabs_toNat (x : Num) : (fabs x).toNat = x.toNat % 2 ^ 63 := by
  rw [fabs, BitVec.toNat_and]
  exact Nat.and_two_pow_sub_one_eq_mod x.toNat 63

theorem fieldsOf_fabs (x : Num) : fieldsOf (fabs x) = fieldsOf x := by
  simp [fieldsOf, fabs_toNat]

theorem isNaN_fabs (x : Num) : isNaN (fabs x) = isNaN x := by
  simp only [isNaN, expField_eq, fracField_eq, fieldsOf_fabs]

/-- `NUM.abs` is the magnitude of the value (00_scope.md R14). -/
theorem units_fabs (x : Num) : units (fabs x) = |units x| := by
  have hs : signBit (fabs x) = false := by
    rw [signBit, BitVec.msb_eq_decide, fabs_toNat]
    have := Nat.mod_lt x.toNat (show 0 < 2 ^ 63 by norm_num)
    simpa using this
  have hm : magUnits (fabs x) = magUnits x := by rw [magUnits_eq, magUnits_eq, fieldsOf_fabs]
  unfold units
  rw [hs, hm]
  cases signBit x <;> simp

/-- The magnitude of a number between two of opposite values. -/
theorem fle_fabs_of_within {x lo hi : Num} (h : within x lo hi = true) (opp : units lo = -units hi) :
    fle (fabs x) hi = true := by
  have e := within_iff.mp h
  rw [fle_iff, fle_iff, opp] at e
  obtain ⟨⟨-, -, lo_le⟩, nx, nhi, le_hi⟩ := e
  exact fle_iff.mpr ⟨(isNaN_fabs x).trans nx, nhi, (units_fabs x).trans_le (abs_le.mpr ⟨lo_le, le_hi⟩)⟩

/-- A finite number at or above one integer and below the successor of another has its floor between them. -/
theorem floorInt_between {x : Num} {lo hi : Int} (h1 : lo * (unitsPerOne : Int) ≤ units x)
    (h2 : units x < (hi + 1) * (unitsPerOne : Int)) : lo ≤ floorInt x ∧ floorInt x ≤ hi := by
  have hu : (0 : Int) < (unitsPerOne : Int) := by decide +kernel
  exact ⟨(Int.le_ediv_iff_mul_le hu).mpr h1, Int.lt_add_one_iff.mp ((Int.ediv_lt_iff_lt_mul hu).mpr h2)⟩

theorem clampInt_between {lo hi : Int} (x : Int) (h : lo ≤ hi) : lo ≤ clampInt x lo hi ∧ clampInt x lo hi ≤ hi := by
  unfold clampInt
  split_ifs <;> omega

/-- An integer clamped to `1..n`, as a natural number. -/
theorem clampInt_toNat_between {n : Nat} (x : Int) (h : 1 ≤ n) :
    1 ≤ (clampInt x 1 n).toNat ∧ (clampInt x 1 n).toNat ≤ n := by
  have := clampInt_between x (show (1 : Int) ≤ n by exact_mod_cast h)
  omega

/-! ## Registers as a CFG rule sees them -/

/-- A register is read in the range of its own row (49_processor.md R354). -/
theorem paramNum_within {a : Nat} {lo hi d : Num} (snap : Nat → Num) (h : paramRow Z a = some ⟨lo, hi, d⟩)
    (hd : within d lo hi = true) : within (paramNum Z snap a) lo hi = true := by
  obtain ⟨h1, h2⟩ := within_iff.mp hd
  have : paramNum Z snap a = sanitize (snap a) lo hi d := by simp [paramNum, h]
  exact this ▸ within_iff.mpr (sanitize_range _ (fle_trans h1 h2) h1 h2)

/-- An envelope's index register rounds to an index of `0..80` (42_envelope.md R190, 40_primitive_math.md R141). -/
theorem paramInt_envIndex {a : Nat} {d : Num} (snap : Nat → Num) (h : paramRow Z a = some ⟨n0, decimal 80 1, d⟩)
    (hd : within d n0 (decimal 80 1) = true) : 0 ≤ paramInt Z snap a ∧ paramInt Z snap a ≤ 80 := by
  have e := within_iff.mp (fadd_within (b := nHalf) (lb := nHalf) (hb := nHalf) (lo := nHalf) (hi := decimal 161 2)
    (paramNum_within snap h hd) (by decide +kernel) (by decide +kernel) (by decide +kernel) (by decide +kernel))
  rw [fle_iff, fle_iff] at e
  obtain ⟨⟨-, -, ge⟩, -, -, le⟩ := e
  exact floorInt_between (le_trans (by decide +kernel) ge) (lt_of_le_of_lt le (by decide +kernel))

/-! ## Waveshapers -/

/-- The skew of a shape in `[-1, 1]` (41_oscillator.md R161). -/
theorem skew_within {x : Num} (h : within x nNeg1 n1 = true) :
    within (clamp (fdiv (fadd n1 x) n2) skewMin (fsub n1 skewMin)) skewMin (fsub n1 skewMin) = true := by
  have sum : within (fadd n1 x) n0 n2 = true := fadd_within (la := n1) (ha := n1) (by decide +kernel) h
    (by decide +kernel) (by decide +kernel) (by decide +kernel)
  have half : within (fdiv (fadd n1 x) n2) n0 n1 = true := fdiv_within (lb := n2) (hb := n2) sum (by decide +kernel)
    (by decide +kernel) (by decide +kernel) (by decide +kernel) (by decide +kernel)
  exact clamp_within (isNaN_of_isFinite (isFinite_of_within half (by decide +kernel) (by decide +kernel)))
    (by decide +kernel)

/-- Two over a skew lies in `[1, 128]`. -/
theorem slope_within {r : Num} (h : within r skewMin (fsub n1 skewMin) = true) :
    within (fdiv n2 r) n1 (decimal 128 1) = true :=
  fdiv_within (la := n2) (ha := n2) (by decide +kernel) h (by decide +kernel) (by decide +kernel) (by decide +kernel)
    (by decide +kernel)

/-- The squaring gain of a shape in `[0, 1]` lies in `[1, 64]` (41_oscillator.md R161). -/
theorem square_within {y : Num} (h : fle n0 y = true) :
    within (fdiv n1 (fsub n1 (fmin y sqMax))) n1 (decimal 64 1) = true := by
  have least : within (fmin y sqMax) n0 sqMax = true := by
    unfold fmin
    split
    · exact within_iff.mpr ⟨h, fle_of_flt ‹_›⟩
    · decide +kernel
  have rest : within (fsub n1 (fmin y sqMax)) skewMin n1 = true :=
    one_sub_within least (by decide +kernel) (by decide +kernel) (by decide +kernel)
  exact fdiv_within (la := n1) (ha := n1) (by decide +kernel) rest (by decide +kernel) (by decide +kernel)
    (by decide +kernel) (by decide +kernel)

/-- A waveshaper record of shapes in `[-1, 1]` holds finite numbers alone (41_oscillator.md R161, 10_state.md R44). -/
theorem waveCfg_finite {x y : Num} (hx : within x nNeg1 n1 = true) (hy : within y nNeg1 n1 = true) :
    ∀ n ∈ waveNums (waveCfg x y), isFinite n = true := by
  have fin {n lo hi : Num} (h : within n lo hi = true) (e : (isFinite lo && isFinite hi) = true) : isFinite n = true := by
    simp only [Bool.and_eq_true] at e
    exact isFinite_of_within h e.1 e.2
  have r := skew_within hx
  have rest := one_sub_within (lo := skewMin) (hi := fsub n1 skewMin) r (by decide +kernel) (by decide +kernel)
    (by decide +kernel)
  have b1 := fdiv_within (b := n2) (lb := n2) (hb := n2) (lo := n0) (hi := n1) r (by decide +kernel) (by decide +kernel)
    (by decide +kernel) (by decide +kernel) (by decide +kernel)
  have b2 := one_sub_within (lo := n0) (hi := n1) b1 (by decide +kernel) (by decide +kernel) (by decide +kernel)
  have tri := fadd_within (a := n1) (la := n1) (ha := n1) (lo := n0) (hi := n2) (by decide +kernel) hy (by decide +kernel)
    (by decide +kernel) (by decide +kernel)
  simp only [waveNums, waveCfg, List.forall_mem_cons]
  refine ⟨fin (slope_within r) (by decide +kernel), fin (slope_within rest) (by decide +kernel),
    fin b1 (by decide +kernel), fin b2 (by decide +kernel), ?_, ?_, ?_, nofun⟩
  · split
    · decide +kernel
    · exact isFinite_fneg.trans (fin hy (by decide +kernel))
  · split
    · decide +kernel
    · exact fin tri (by decide +kernel)
  · split
    · exact fin (square_within ‹_›) (by decide +kernel)
    · decide +kernel

/-! ## CFG as RECALC leaves it -/

/-- The record CFG.ENV writes for an envelope (42_envelope.md R190). -/
def envRecord (Z : Config.Params) (snap : Nat → Num) (e : EnvSel) (fs : Num) : EnvCfg :=
  envCfg (paramInt Z snap (envGroup e)) (paramInt Z snap (envGroup e + 1)) (paramNum Z snap (envGroup e + 2))
    (paramInt Z snap (envGroup e + 3)) fs

/-- Every field of CFG after a RECALC, from the snapshot, the sample rate and the capacity alone (49_processor.md R353,
R355 to R361). -/
theorem rebuildCfg_eq (snap : Nat → Num) (fs : Num) (dcap : Nat) (c : Cfg) :
    rebuildCfg Z snap fs dcap c =
      { fs := safeRate fs
        invFs := fdiv n1 (safeRate fs)
        master := paramNum Z snap 0x0000
        bend := exp2 (fdiv (paramNum Z snap 0x0001) (decimal 12 1))
        wheel := paramNum Z snap 0x0002
        after := paramNum Z snap 0x0003
        mono := paramBool Z snap 0x0004
        car := opCfg (paramNum Z snap 0x0100) (paramNum Z snap 0x0101) (paramNum Z snap 0x0102) (paramNum Z snap 0x0103)
          (paramBool Z snap 0x0104) n0
        mod := opCfg (paramNum Z snap 0x0200) (paramNum Z snap 0x0201) (paramNum Z snap 0x0202) (paramNum Z snap 0x0203)
          (paramBool Z snap 0x0204) (paramNum Z snap 0x0205)
        pan := paramNum Z snap 0x0105
        lfoWave := waveCfg (paramNum Z snap 0x0801) (paramNum Z snap 0x0802)
        lfoSpeed := paramNum Z snap 0x0800
        lfoLevel := paramNum Z snap 0x0803
        amp := envRecord Z snap .amp (safeRate fs)
        fmEnv := envRecord Z snap .fm (safeRate fs)
        modEnv := envRecord Z snap .modEnv (safeRate fs)
        cutoff := paramNum Z snap 0x0600
        res := paramNum Z snap 0x0601
        mix := paramNum Z snap 0x0602
        filterOn := filterEnabled (paramNum Z snap 0x0602) (destActive (depthOf Z snap .mix))
        depth := perDest (depthOf Z snap)
        dActive := perDest fun d => destActive (depthOf Z snap d)
        stkMode := if paramBool Z snap 0x0900 then .harmonic else .unison
        stackSize := (clampInt (paramInt Z snap 0x0901) 1 Z.NS).toNat
        detune := fdiv (paramNum Z snap 0x0902) (decimal 100 1)
        dLen := (clampInt (roundInt (fmul (paramNum Z snap 0x0700) (safeRate fs))) 1 dcap).toNat
        dFb := paramNum Z snap 0x0701
        dMix := paramNum Z snap 0x0705
        dCross := paramBool Z snap 0x0702
        dLpAlpha := onePoleAlpha (paramNum Z snap 0x0704) (safeRate fs)
        dHpAlpha := onePoleAlpha (paramNum Z snap 0x0703) (safeRate fs) } := by
  simp only [rebuildCfg, cfgGlobalOf, cfgOpOf, opCfgSet, cfgEnvOf, envCfgSet, cfgModdestOf, cfgSvfOf, cfgStackOf, cfgDelayOf,
    cfgLp1Of, onePoleSet, envRecord, perDest]

/-- The numbers of CFG whose range is `[0, 1]`. -/
def unitNums (c : Cfg) : List Num :=
  [c.master, c.wheel, c.after, c.mix, c.res, c.dMix, c.dFb, c.dLpAlpha, c.dHpAlpha, c.car.level, c.mod.fb, c.lfoLevel,
   c.amp.sustain, c.fmEnv.sustain, c.modEnv.sustain, c.detune]

/-- The bounds and default of a destination's depth registers (10_state.md R42). -/
def depthRow (d : Dest) : ParamRow :=
  if d = .cutoff then ⟨negDecimal 128 1, decimal 128 1, n0⟩ else ⟨nNeg1, n1, n0⟩

/-- The ranges of CFG on a core with capacity `dcap` (10_state.md R44, R59). -/
structure CfgRanges (Z : Config.Params) (dcap : Nat) (c : Cfg) : Prop where
  fs : within c.fs fsMin fsMax = true
  invFs : within c.invFs n0 n1 = true
  unit : ∀ x ∈ unitNums c, inClosedUnit x = true
  carFb : c.car.fb = n0
  modLevel : within c.mod.level n0 (decimal 4 1) = true
  lfoSpeed : within c.lfoSpeed n0 (decimal 100 1) = true
  cutoff : within c.cutoff n0 (decimal 160 1) = true
  pan : within c.pan nNeg1 n1 = true
  ratio : ∀ x ∈ [c.bend, c.car.ratio, c.mod.ratio], within x (decimal 1 16) (decimal 16 1) = true
  rate : ∀ e ∈ [c.amp, c.fmEnv, c.modEnv], ∀ x ∈ [e.attackDelta, e.decayRate, e.releaseRate], isRate x = true
  depth : ∀ d : Dest, ∀ x ∈ sourceList (destGet c.depth d), within x (depthRow d).lo (depthRow d).hi = true
  wave : ∀ w ∈ [c.car.wave, c.mod.wave, c.lfoWave], ∀ x ∈ waveNums w, isFinite x = true
  stackSize : 1 ≤ c.stackSize ∧ c.stackSize ≤ Z.NS
  dLen : 1 ≤ c.dLen ∧ c.dLen ≤ dcap

theorem isFinite_of_isRate {x : Num} (h : isRate x = true) : isFinite x = true := by
  simp only [isRate, Bool.and_eq_true] at h
  exact isFinite_of_between (fle_of_flt h.1) h.2 (by decide +kernel) (by decide +kernel)

theorem isFinite_of_inClosedUnit {x : Num} (h : inClosedUnit x = true) : isFinite x = true :=
  isFinite_of_within (inClosedUnit_iff.mp h) (by decide +kernel) (by decide +kernel)

/-- What lies in a depth's range is finite. -/
theorem isFinite_of_depthRow {x : Num} {d : Dest} (h : within x (depthRow d).lo (depthRow d).hi = true) :
    isFinite x = true :=
  isFinite_of_within h (by cases d <;> decide +kernel) (by cases d <;> decide +kernel)

theorem CfgRanges.finite_unit {dcap : Nat} {c : Cfg} (h : CfgRanges Z dcap c) {x : Num} (hx : x ∈ unitNums c) :
    isFinite x = true := isFinite_of_inClosedUnit (h.unit x hx)

/-- An envelope's rates and its sustain level. -/
theorem CfgRanges.finite_env {dcap : Nat} {c : Cfg} (h : CfgRanges Z dcap c) {e : EnvCfg}
    (he : e ∈ [c.amp, c.fmEnv, c.modEnv]) (hs : e.sustain ∈ unitNums c) :
    ∀ x ∈ [e.attackDelta, e.decayRate, e.releaseRate, e.sustain], isFinite x = true := by
  have rates := h.rate e he
  simp only [List.forall_mem_cons] at rates ⊢
  obtain ⟨attack, decay, release, -⟩ := rates
  exact ⟨isFinite_of_isRate attack, isFinite_of_isRate decay, isFinite_of_isRate release, h.finite_unit hs, nofun⟩

/-- The numbers with a range of their own. -/
theorem CfgRanges.finite_own {dcap : Nat} {c : Cfg} (h : CfgRanges Z dcap c) :
    ∀ x ∈ [c.fs, c.invFs, c.pan, c.lfoSpeed, c.cutoff, c.car.fb, c.mod.level], isFinite x = true := by
  simp only [List.forall_mem_cons]
  exact ⟨isFinite_of_within h.fs (by decide +kernel) (by decide +kernel),
    isFinite_of_within h.invFs (by decide +kernel) (by decide +kernel),
    isFinite_of_within h.pan (by decide +kernel) (by decide +kernel),
    isFinite_of_within h.lfoSpeed (by decide +kernel) (by decide +kernel),
    isFinite_of_within h.cutoff (by decide +kernel) (by decide +kernel), h.carFb ▸ by decide +kernel,
    isFinite_of_within h.modLevel (by decide +kernel) (by decide +kernel), nofun⟩

/-- In these ranges every number of CFG is finite (10_state.md R59). -/
theorem CfgRanges.finite {dcap : Nat} {c : Cfg} (h : CfgRanges Z dcap c) : ∀ x ∈ cfgNums c, isFinite x = true := by
  have ratio : ∀ x ∈ [c.bend, c.car.ratio, c.mod.ratio], isFinite x = true :=
    fun x hx => isFinite_of_within (h.ratio x hx) (by decide +kernel) (by decide +kernel)
  have dest (d : Dest) : ∀ x ∈ sourceList (destGet c.depth d), isFinite x = true :=
    fun x hx => isFinite_of_depthRow (h.depth d x hx)
  simp only [cfgNums, List.forall_mem_append]
  refine ⟨⟨⟨⟨⟨fun x hx => ?_, h.wave _ (by simp)⟩, h.wave _ (by simp)⟩, h.wave _ (by simp)⟩, ?_⟩, ?_⟩
  · have : x ∈ unitNums c ∨ x ∈ [c.bend, c.car.ratio, c.mod.ratio] ∨
        x ∈ [c.fs, c.invFs, c.pan, c.lfoSpeed, c.cutoff, c.car.fb, c.mod.level] := by
      simp only [unitNums, List.mem_cons] at hx ⊢
      grind
    exact this.elim h.finite_unit fun rest => rest.elim (ratio x) (h.finite_own x)
  · simp only [List.flatMap_cons, List.forall_mem_append]
    exact ⟨h.finite_env (by simp) (by simp [unitNums]), h.finite_env (by simp) (by simp [unitNums]),
      h.finite_env (by simp) (by simp [unitNums]), nofun⟩
  · simp only [List.flatMap_cons, List.forall_mem_append]
    exact ⟨dest .pitch, dest .level, dest .pan, dest .cutoff, dest .resonance, dest .mix, dest .lfoSpeed,
      dest .lfoLevel, nofun⟩

/-- A depth register's row (10_state.md R42). -/
theorem paramRow_depth (d : Dest) {k : Nat} (hk : k < 5) :
    paramRow Z ((0x10 + destNumber d) * 256 + k) = some (depthRow d) := by
  have group : ((0x10 + destNumber d) * 256 + k) / 256 = 0x10 + destNumber d := by omega
  have index : ((0x10 + destNumber d) * 256 + k) % 256 = k := by omega
  rw [paramRow, group, index]
  cases d <;> exact List.getElem?_replicate_of_lt hk

theorem depthOf_within (snap : Nat → Num) (d : Dest) :
    ∀ x ∈ sourceList (depthOf Z snap d), within x (depthRow d).lo (depthRow d).hi = true := by
  have register {k : Nat} (hk : k < 5) :
      within (paramNum Z snap ((0x10 + destNumber d) * 256 + k)) (depthRow d).lo (depthRow d).hi = true :=
    paramNum_within snap (paramRow_depth d hk) (by cases d <;> decide +kernel)
  simp only [sourceList, depthOf, List.forall_mem_cons]
  exact ⟨by simpa using register (k := 0) (by decide), register (by decide), register (by decide), register (by decide),
    register (by decide), nofun⟩

/-- An envelope's four registers (10_state.md R37). -/
theorem paramRow_env (e : EnvSel) :
    paramRow Z (envGroup e) = some ⟨n0, decimal 80 1, n0⟩ ∧
      paramRow Z (envGroup e + 1) = some ⟨n0, decimal 80 1, decimal 40 1⟩ ∧
      paramRow Z (envGroup e + 2) = some ⟨n0, n1, n1⟩ ∧
      paramRow Z (envGroup e + 3) = some ⟨n0, decimal 80 1, decimal 20 1⟩ := by
  cases e <;> exact ⟨rfl, rfl, rfl, rfl⟩

/-- The record CFG.ENV writes is in range (42_envelope.md R190, 40_primitive_math.md R142). -/
theorem envRecord_form (snap : Nat → Num) (e : EnvSel) {fs : Num} (h : within fs fsMin fsMax = true) :
    envCfgForm (envRecord Z snap e fs) := by
  obtain ⟨attack, decay, sustain, release⟩ := paramRow_env (Z := Z) e
  have rate {a : Nat} {d : Num} (row : paramRow Z a = some ⟨n0, decimal 80 1, d⟩)
      (hd : within d n0 (decimal 80 1) = true) : isRate (envRate (paramInt Z snap a) fs) = true := by
    obtain ⟨h0, h1⟩ := paramInt_envIndex snap row hd
    exact envRate_isRate h0 h1 h
  simp only [envCfgForm, envRecord, envCfg]
  exact ⟨rate attack (by decide +kernel), rate decay (by decide +kernel), rate release (by decide +kernel),
    inClosedUnit_iff.mpr (paramNum_within snap sustain (by decide +kernel))⟩

theorem envCfgForm.rates {e : EnvCfg} (h : envCfgForm e) :
    ∀ x ∈ [e.attackDelta, e.decayRate, e.releaseRate], isRate x = true := by
  obtain ⟨attack, decay, release, -⟩ := h
  simp only [List.forall_mem_cons]
  exact ⟨attack, decay, release, nofun⟩

theorem envCfgForm.sustain {e : EnvCfg} (h : envCfgForm e) : inClosedUnit e.sustain = true := by
  obtain ⟨-, -, -, sustain⟩ := h
  exact sustain

/-- RECALC leaves CFG in its ranges, whatever its snapshot (10_state.md R44, R59). -/
theorem rebuildCfg_ranges (snap : Nat → Num) (fs : Num) {dcap : Nat} (c : Cfg) (h : 1 ≤ dcap) :
    CfgRanges Z dcap (rebuildCfg Z snap fs dcap c) := by
  have rate := safeRate_within fs
  have inverse : within (fdiv n1 (safeRate fs)) n0 n1 = true :=
    fdiv_within (la := n1) (ha := n1) (by decide +kernel) rate (by decide +kernel) (by decide +kernel) (by decide +kernel)
      (by decide +kernel)
  have env (e : EnvSel) := envRecord_form (Z := Z) snap e rate
  have shape {a : Nat} {d : Num} (row : paramRow Z a = some ⟨nNeg1, n1, d⟩) (hd : within d nNeg1 n1 = true) :=
    paramNum_within snap row hd
  have unit {a : Nat} {d : Num} (row : paramRow Z a = some ⟨n0, n1, d⟩) (hd : inClosedUnit d = true) :
      inClosedUnit (paramNum Z snap a) = true := inClosedUnit_iff.mpr (paramNum_within snap row hd)
  have semitones {a : Nat} (row : paramRow Z a = some ⟨negDecimal 48 1, decimal 48 1, n0⟩) :
      within (exp2 (fdiv (paramNum Z snap a) (decimal 12 1))) (decimal 1 16) (decimal 16 1) = true :=
    exp2_semitones_within (paramNum_within snap row (by decide +kernel))
  rw [rebuildCfg_eq]
  constructor
  case fs => exact rate
  case invFs => dsimp only; exact inverse
  case unit =>
    have detune : inClosedUnit (fdiv (paramNum Z snap 0x0902) (decimal 100 1)) = true :=
      fdiv_within (lb := decimal 100 1) (hb := decimal 100 1)
        (paramNum_within snap (lo := n0) (hi := decimal 100 1) rfl (by decide +kernel)) (by decide +kernel)
        (by decide +kernel) (by decide +kernel) (by decide +kernel) (by decide +kernel)
    simp only [unitNums, List.forall_mem_cons]
    exact ⟨unit rfl (by decide +kernel), unit rfl (by decide +kernel), unit rfl (by decide +kernel),
      unit rfl (by decide +kernel), unit rfl (by decide +kernel), unit rfl (by decide +kernel),
      unit rfl (by decide +kernel), onePoleAlpha_within _ _, onePoleAlpha_within _ _, unit rfl (by decide +kernel),
      unit rfl (by decide +kernel), unit rfl (by decide +kernel), (env .amp).sustain, (env .fm).sustain,
      (env .modEnv).sustain, detune, nofun⟩
  case carFb => rfl
  case modLevel => exact paramNum_within snap rfl (by decide +kernel)
  case lfoSpeed => exact paramNum_within snap rfl (by decide +kernel)
  case cutoff => exact paramNum_within snap rfl (by decide +kernel)
  case pan => exact shape rfl (by decide +kernel)
  case ratio =>
    simp only [List.forall_mem_cons]
    exact ⟨semitones rfl, semitones rfl, semitones rfl, nofun⟩
  case rate =>
    intro e he
    have : ∃ e', e = envRecord Z snap e' (safeRate fs) := by
      simp only [List.mem_cons] at he
      rcases he with rfl | rfl | rfl | he
      exacts [⟨_, rfl⟩, ⟨_, rfl⟩, ⟨_, rfl⟩, nomatch he]
    obtain ⟨e', rfl⟩ := this
    exact (env e').rates
  case depth =>
    intro d
    cases d <;> exact depthOf_within snap _
  case wave =>
    rw [List.forall_mem_cons, List.forall_mem_cons, List.forall_mem_cons]
    exact ⟨waveCfg_finite (shape rfl (by decide +kernel)) (shape rfl (by decide +kernel)),
      waveCfg_finite (shape rfl (by decide +kernel)) (shape rfl (by decide +kernel)),
      waveCfg_finite (shape rfl (by decide +kernel)) (shape rfl (by decide +kernel)), nofun⟩
  case stackSize => exact clampInt_toNat_between _ Z.ns_pos
  case dLen => exact clampInt_toNat_between _ h

/-! ## RECALC as a whole -/

theorem clipCursor_lt {len : Nat} (d : DelayChan) (h : 1 ≤ len) : (clipCursor len d).w < len := by
  unfold clipCursor
  split_ifs
  · exact h
  · omega

/-- The tables RECALC leaves are in range (10_state.md R53). -/
theorem rebuildTables_form (snap : Nat → Num) : tableForm (rebuildTables Z snap) := by
  intro ch key
  simpa [tableRead, rebuildTables] using tuneTable_within (Z := Z) snap ch.val key

/-- SVF.RETUNE's mix lies in `[0, 1]` for a configured mix and a modulation that is no NaN (43_filters.md R214). -/
theorem svfRetune_mix_within {c : Cfg} (co rs : Num) {mx : Num} (h : inClosedUnit c.mix = true)
    (hm : isNaN mx = false) : inClosedUnit (svfRetune c co rs mx).mix = true :=
  clamp_within (isNaN_fadd (isFinite_of_inClosedUnit h) hm) (by decide +kernel)

/-- Settles O27: CFG is in its ranges (`rebuildCfg_ranges`), and with it what SVF.RETUNE computes from it. -/
theorem recalcBounds : Obligations.RecalcBounds := by
  intro Z fs s t ha hd hc h
  have ht : recalcWith (paramRead s) fs s = t := Host.Outcome.next.inj ((execRecalc_of_not_ready ha hc).symm.trans h)
  have status : t.status = ⟨true, true⟩ := by simp [← ht, recalcWith, ha]
  have cap : t.dcap = s.dcap := by rw [← ht]; rfl
  have r : CfgRanges Z t.dcap t.cfg := by
    rw [cap, ← ht]
    exact rebuildCfg_ranges _ fs s.cfg hd
  have left : t.dly.left.w < t.cfg.dLen := by
    rw [← ht] at r ⊢
    exact clipCursor_lt _ r.dLen.1
  have right : t.dly.right.w < t.cfg.dLen := by
    rw [← ht] at r ⊢
    exact clipCursor_lt _ r.dLen.1
  have table : tableForm t.table := by
    rw [← ht]
    exact rebuildTables_form _
  have depth (d : Dest) : ∀ x ∈ sourceList (destGet t.cfg.depth d),
      fle (fabs x) (if d = .cutoff then decimal 128 1 else n1) = true := fun x hx => by
    have := fle_fabs_of_within (r.depth d x hx) (by cases d <;> decide +kernel)
    cases d <;> exact this
  refine ⟨status, r.fs, r.unit, r.carFb, r.modLevel, r.lfoSpeed, r.cutoff, r.pan, r.ratio,
    fun e he x hx => Bool.and_eq_true_iff.mp (r.rate e he x hx), depth, r.finite, r.stackSize.1, r.stackSize.2, r.dLen.1,
    r.dLen.2, left, right, table, fun co rs mx => ⟨_, _, _, rfl, onePoleAlpha_within _ _, ?_, ?_⟩⟩
  · exact svfRetune_damping_within co mx (r.unit _ (by simp [unitNums]))
  · exact svfRetune_mix_within co rs (r.unit _ (by simp [unitNums]))

end Sys2Proof.Machine
end

-- ==== State: the snapshot of an overlapped RECALC ====
section
/-! PROOFS. What an overlapped RECALC reads and what it leaves (20_memory.md R88; 49_processor.md R353, R354). -/

namespace Sys2Proof.Machine

variable {Z : Config.Params}

/-! ## What the snapshot reads (R88 b, c) -/

theorem valuesTaken_ne_nil (s : State Z) (a : Nat) (fs : List (List Word)) : valuesTaken s a fs ≠ [] := by
  cases fs <;> exact List.cons_ne_nil _ _

/-- Every value a register takes is the one it holds after some of the frames, the first ones. -/
theorem exists_paramRead_of_mem_valuesTaken {s : State Z} {a : Nat} {fs : List (List Word)} {v : Num}
    (h : v ∈ valuesTaken s a fs) : ∃ n, v = paramRead ((fs.take n).foldl controlFrame s) a := by
  induction fs generalizing s with
  | nil => exact ⟨0, List.mem_singleton.mp h⟩
  | cons f fs ih =>
    obtain before | later := List.mem_cons.mp h
    · exact ⟨0, before⟩
    · obtain ⟨n, after⟩ := ih later
      exact ⟨n + 1, after⟩

/-- The free choice of R88 is among the values the register takes, whatever it is. -/
theorem snapshot_mem_valuesTaken (s : State Z) (a : Nat) : snapshot s a ∈ valuesTaken s a (overlapping s) := by
  unfold snapshot
  split
  case h_1 none => exact none ▸ List.mem_singleton_self _
  case h_2 =>
    have inRange := Nat.mod_lt (Config.overlapPick s.free a)
      (List.length_pos_of_ne_nil (valuesTaken_ne_nil s a (overlapping s)))
    dsimp only
    rw [List.getD_eq_getElem _ _ inRange]
    exact List.getElem_mem inRange

theorem snapshot_of_not_ready {s : State Z} (h : frameReady .control s.ctl = false) (a : Nat) :
    snapshot s a = paramRead s a := by
  simpa [overlapping_of_not_ready h, valuesTaken] using snapshot_mem_valuesTaken s a

/-! ## What the RECALC leaves (R353) -/

theorem afterOverlap_param (s : State Z) :
    (afterOverlap s).param = ((overlapping s).foldl controlFrame s).param := by
  unfold afterOverlap
  split
  case h_1 none => rw [none, List.foldl_nil]
  case h_2 => rfl

theorem execRecalc_of_active {s : State Z} (h : s.status.active = true) (fs : Num) :
    execRecalc fs s = .next (recalcWith (snapshot s) fs (afterOverlap s)) := if_pos h

/-- CFG as RECALC rebuilds it keeps nothing of the CFG before. -/
theorem rebuildCfg_congr (snap : Nat → Num) (fs : Num) (dcap : Nat) (c c' : Cfg) :
    rebuildCfg Z snap fs dcap c = rebuildCfg Z snap fs dcap c' := by
  rw [rebuildCfg_eq, rebuildCfg_eq]

/-- A RECALC's CFG and TABLE are a function of its snapshot, the sample rate and the capacity. -/
theorem recalcWith_cfg_table {s s' : State Z} (snap : Nat → Num) (fs : Num) (h : s.dcap = s'.dcap) :
    (recalcWith snap fs s).cfg = (recalcWith snap fs s').cfg ∧
      (recalcWith snap fs s).table = (recalcWith snap fs s').table := by
  refine ⟨?_, rfl⟩
  dsimp only [recalcWith]
  rw [h]
  exact rebuildCfg_congr ..

/-- Settles O25: the snapshot is among the values taken (`snapshot_mem_valuesTaken`), an overlap touches PARAM, FAULT and
the port alone (`afterOverlap_eq`), and CFG and TABLE follow from the snapshot (`recalcWith_cfg_table`). -/
theorem snapshotIsCoherent : Obligations.SnapshotIsCoherent := by
  intro Z s a
  refine ⟨exists_paramRead_of_mem_valuesTaken (snapshot_mem_valuesTaken s a), fun h => snapshot_of_not_ready h a,
    fun fs active => ⟨_, execRecalc_of_active active fs, ?_⟩⟩
  have param : (recalcWith (snapshot s) fs (afterOverlap s)).param = ((overlapping s).foldl controlFrame s).param :=
    afterOverlap_param s
  obtain ⟨p, f, ws, n, overlapped⟩ := afterOverlap_eq s
  have dcap : (afterOverlap s).dcap = s.dcap := congrArg (·.dcap) overlapped
  have status : (recalcWith (snapshot s) fs (afterOverlap s)).status = ⟨true, true⟩ := by
    simp [recalcWith, overlapped, active]
  refine ⟨status, param, dcap, congrArg (·.voices) overlapped, congrArg (·.nres) overlapped,
    congrArg (·.pres) overlapped, congrArg (·.out) overlapped, fun s' t' active' dcap' quiet same h' => ?_⟩
  have ht' : recalcWith (paramRead s') fs s' = t' :=
    Host.Outcome.next.inj ((execRecalc_of_not_ready active' quiet).symm.trans h')
  rw [← ht', funext same]
  exact recalcWith_cfg_table _ fs (dcap.trans dcap'.symm)

end Sys2Proof.Machine
end

-- ==== Encoding: the fields of a frame ====
section
/-! PROOFS. The fields of a frame's words: what a header built from its fields reads as, and that a word is its fields
(30_encoding.md R111, R113; assumption 9 for the unit operations). -/

namespace Sys2Proof.Machine

/-! ## Command headers and operands (R111, R113) -/

@[simp] theorem aField_header (op a : BitVec 8) (b : BitVec 16) : aField (header op a b) = a := by
  unfold aField header
  rw [BitVec.extractLsb'_append_eq_of_le (by decide)]
  exact BitVec.extractLsb'_append_eq_right

@[simp] theorem bField_header (op a : BitVec 8) (b : BitVec 16) : bField (header op a b) = b :=
  BitVec.extractLsb'_append_eq_right

/-- A header is its three fields, no bit left over. -/
theorem header_fields (h : Word) : header (h.extractLsb' 24 8) (aField h) (bField h) = h := by
  unfold header aField bField
  rw [BitVec.extractLsb'_append_extractLsb'_eq_extractLsb' (rfl : 24 = 16 + 8),
    BitVec.extractLsb'_append_extractLsb'_eq_extractLsb' (rfl : 16 = 0 + 16)]
  exact BitVec.extractLsb'_eq_self

theorem header_eq_of_fields {h : Word} {op a : BitVec 8} {b : BitVec 16} (hop : opField h = op.toNat)
    (ha : aField h = a) (hb : bField h = b) : header op a b = h := by
  have top : h.extractLsb' 24 8 = op := BitVec.eq_of_toNat_eq hop
  rw [← top, ← ha, ← hb, header_fields]

theorem header_inj {op a op' a' : BitVec 8} {b b' : BitVec 16} :
    header op a b = header op' a' b' ↔ op = op' ∧ a = a' ∧ b = b' := by
  refine ⟨fun h => ⟨BitVec.eq_of_toNat_eq ?_, ?_, ?_⟩, fun ⟨hop, ha, hb⟩ => by rw [hop, ha, hb]⟩
  · simpa only [Laws.opField_header] using congrArg opField h
  · simpa only [aField_header] using congrArg aField h
  · simpa only [bField_header] using congrArg bField h

theorem header_and_header (op a op' a' : BitVec 8) (b b' : BitVec 16) :
    header op a b &&& header op' a' b' = header (op &&& op') (a &&& a') (b &&& b') := by
  unfold header
  rw [BitVec.and_append, BitVec.and_append]

@[simp] theorem joinNum_words (x : Num) : joinNum (lowWord x) (highWord x) = x := by
  unfold joinNum lowWord highWord
  rw [BitVec.extractLsb'_append_extractLsb'_eq_extractLsb' (rfl : 32 = 0 + 32)]
  exact BitVec.extractLsb'_eq_self

@[simp] theorem numWords_joinNum (lo hi : Word) : numWords (joinNum lo hi) = [lo, hi] := by
  unfold numWords joinNum lowWord highWord
  rw [BitVec.extractLsb'_append_eq_right, BitVec.extractLsb'_append_eq_left]

/-! ## Unit headers (assumption 9) -/

@[simp] theorem selX_unitHeader (u x y z : Nat) : selX (unitHeader u x y z) = x % 256 := by
  unfold selX unitHeader
  rw [BitVec.extractLsb'_append_eq_of_le (by decide)]
  exact congrArg _ BitVec.extractLsb'_append_eq_right

@[simp] theorem selY_unitHeader (u x y z : Nat) : selY (unitHeader u x y z) = y % 256 := by
  unfold selY unitHeader
  rw [BitVec.extractLsb'_append_eq_of_le (by decide), BitVec.extractLsb'_append_eq_of_le (by decide)]
  exact congrArg _ BitVec.extractLsb'_append_eq_right

@[simp] theorem selZ_unitHeader (u x y z : Nat) : selZ (unitHeader u x y z) = z % 256 := by
  unfold selZ unitHeader
  rw [BitVec.extractLsb'_append_eq_of_le (by decide), BitVec.extractLsb'_append_eq_of_le (by decide)]
  exact congrArg _ BitVec.extractLsb'_append_eq_left

@[simp] theorem maskField_append (m : BitVec 24) (u : BitVec 8) : maskField (m ++ u) = m :=
  BitVec.extractLsb'_append_eq_left

/-- A unit header is its id and its three selectors, no bit left over. -/
theorem unitHeader_fields (h : Word) : unitHeader (uopField h) (selX h) (selY h) (selZ h) = h := by
  unfold unitHeader uopField selX selY selZ
  simp only [BitVec.ofNat_toNat, BitVec.setWidth_eq]
  rw [BitVec.extractLsb'_append_extractLsb'_eq_extractLsb' (rfl : 24 = 16 + 8),
    BitVec.extractLsb'_append_extractLsb'_eq_extractLsb' (rfl : 16 = 8 + 8),
    BitVec.extractLsb'_append_extractLsb'_eq_extractLsb' (rfl : 8 = 0 + 8)]
  exact BitVec.extractLsb'_eq_self

theorem unitHeader_eq_of_fields {h : Word} {u x y z : Nat} (hu : uopField h = u) (hx : selX h = x) (hy : selY h = y)
    (hz : selZ h = z) : unitHeader u x y z = h := by
  rw [← hu, ← hx, ← hy, ← hz, unitHeader_fields]

/-- A MIX header is its id and its mask, no bit left over. -/
theorem mixHeader_eq_of_fields {h : Word} {u : BitVec 8} {m : BitVec 24} (hu : uopField h = u.toNat)
    (hm : maskField h = m) : m ++ u = h := by
  have low : h.extractLsb' 0 8 = u := BitVec.eq_of_toNat_eq hu
  rw [← low, ← hm, maskField, BitVec.extractLsb'_append_extractLsb'_eq_extractLsb' (rfl : 8 = 0 + 8)]
  exact BitVec.extractLsb'_eq_self

/-! ## Selectors: a number names one element at most, and each element's own number names it (assumption 9) -/

theorem unused_eq_some {n : Nat} {u : Unit} : unused n = some u ↔ n = 0 := by
  simp [unused]

theorem toFin_eq_some {n i : Nat} {k : Fin n} : toFin n i = some k ↔ i = k := by
  unfold toFin
  split
  · simp [Fin.ext_iff]
  · have := k.isLt
    simp
    omega

theorem waveDstOf_eq_some {n : Nat} {d : WaveDst} : waveDstOf n = some d ↔ n = waveDstNumber d := by
  unfold waveDstOf
  split <;> cases d <;> simp_all [waveDstNumber]

theorem opSelOf_eq_some {n : Nat} {o : OpSel} : opSelOf n = some o ↔ n = opSelNumber o := by
  unfold opSelOf
  split <;> cases o <;> simp_all [opSelNumber]

theorem envSelOf_eq_some {n : Nat} {e : EnvSel} : envSelOf n = some e ↔ n = envSelNumber e := by
  unfold envSelOf
  split <;> cases e <;> simp_all [envSelNumber]

theorem onePoleOf_eq_some {n : Nat} {f : OnePole} : onePoleOf n = some f ↔ n = onePoleNumber f := by
  unfold onePoleOf
  split <;> cases f <;> simp_all [onePoleNumber]

theorem chanOf_eq_some {n : Nat} {c : Chan} : chanOf n = some c ↔ n = chanNumber c := by
  unfold chanOf
  split <;> cases c <;> simp_all [chanNumber]

theorem boolOf_eq_some {n : Nat} {g : Bool} : boolOf n = some g ↔ n = g.toNat := by
  unfold boolOf
  split <;> cases g <;> simp_all

theorem destOf_eq_some {n : Nat} {d : Dest} : destOf n = some d ↔ n = destCode d := by
  unfold destOf
  split <;> cases d <;> simp_all [destCode]

/-! The same, where the number comes back from the eight bits of a frame. -/

theorem toFin_mod {n : Nat} (k : Fin n) (h : n ≤ 256) : toFin n (k % 256) = some k :=
  toFin_eq_some.mpr (Nat.mod_eq_of_lt (k.isLt.trans_le h))

theorem waveDstOf_mod (d : WaveDst) : waveDstOf (waveDstNumber d % 256) = some d := by cases d <;> rfl
theorem opSelOf_mod (o : OpSel) : opSelOf (opSelNumber o % 256) = some o := by cases o <;> rfl
theorem envSelOf_mod (e : EnvSel) : envSelOf (envSelNumber e % 256) = some e := by cases e <;> rfl
theorem onePoleOf_mod (f : OnePole) : onePoleOf (onePoleNumber f % 256) = some f := by cases f <;> rfl
theorem chanOf_mod (c : Chan) : chanOf (chanNumber c % 256) = some c := by cases c <;> rfl
theorem boolOf_mod (g : Bool) : boolOf (g.toNat % 256) = some g := by cases g <;> rfl
theorem destOf_mod (d : Dest) : destOf (destCode d % 256) = some d := by cases d <;> rfl

end Sys2Proof.Machine
end

-- ==== Encoding: decoding and encoding agree ====
section
/-! PROOFS. Decoding an encoding gives the instruction back, and a frame that decodes is the encoding of what it decodes
to (30_encoding.md R112, R116 to R118; assumption 9 for the unit operations). -/

namespace Sys2Proof.Machine

variable {Z : Config.Params}

/-! ## Commands: a frame decodes to the command that it encodes, and to no other (R112, R117, R118) -/

theorem decodeCommand_encode {h : Word} {ops : List Word} {i : Instr Z} (hp : portOf i = .command)
    (he : encode i = h :: ops) : decodeCommand Z h ops = .ok i := by
  cases i <;> cases hp
  all_goals
    cases he
    simp [decodeCommand, Laws.opField_header, numWords]

/-- The check of the reserved header bits passed (R118). -/
theorem of_reserved_check {c : Prop} [Decidable c] {i j : Instr Z}
    (hd : (if c then .ok j else .error .reservedBits : Except DecodeError (Instr Z)) = .ok i) : c ∧ j = i := by
  split at hd
  · exact ⟨‹c›, Except.ok.inj hd⟩
  · cases hd

theorem encode_of_decodeCommand {h : Word} {ops : List Word} {i : Instr Z} (hd : decodeCommand Z h ops = .ok i) :
    portOf i = .command ∧ encode i = h :: ops := by
  unfold decodeCommand at hd
  split at hd
  case h_1 hop | h_2 hop | h_3 hop | h_6 hop =>
    split at hd
    · obtain ⟨⟨ha, hb⟩, rfl⟩ := of_reserved_check hd
      exact ⟨rfl, congrArg₂ List.cons (header_eq_of_fields hop ha hb) (by simp)⟩
    · cases hd
  case h_4 hop | h_5 hop =>
    split at hd
    · obtain ⟨hb, rfl⟩ := of_reserved_check hd
      exact ⟨rfl, congrArg₂ List.cons (header_eq_of_fields hop rfl hb) (by simp)⟩
    · cases hd
  case h_7 hop =>
    split at hd
    · obtain ⟨ha, rfl⟩ := of_reserved_check hd
      exact ⟨rfl, congrArg₂ List.cons (header_eq_of_fields hop ha rfl) (by simp)⟩
    · cases hd
  case h_8 => cases hd

theorem decodeCommand_eq_ok {h : Word} {ops : List Word} {i : Instr Z} :
    decodeCommand Z h ops = .ok i ↔ portOf i = .command ∧ encode i = h :: ops :=
  ⟨encode_of_decodeCommand, fun ⟨hp, he⟩ => decodeCommand_encode hp he⟩

theorem decodeControl_eq_ok {h : Word} {ops : List Word} {i : Instr Z} :
    decodeControl Z h ops = .ok i ↔ opField h = 7 ∧ decodeCommand Z h ops = .ok i := by
  unfold decodeControl
  split <;> simp_all

/-! ## Unit operations (assumption 9) -/

/-- A unit frame decodes when it has its id's length and parses. -/
theorem decodeUnit_eq_ok {h : Word} {ops : List Word} {i : Instr Z} : decodeUnit Z h ops = .ok i ↔
    unitOperandWords (uopField h) = some ops.length ∧ parseUnit Z h ops = some i := by
  unfold decodeUnit
  cases unitOperandWords (uopField h) with
  | none => simp
  | some n =>
    dsimp only
    split
    · cases parseUnit Z h ops <;> simp_all
    · simp_all [eq_comm]

theorem decode_encode_of_parseUnit {i : Instr Z} {h : Word} {u : Nat} {ops : List Word} (hp : portOf i = .unitOp)
    (he : encode i = h :: ops) (hu : uopField h = u) (hn : unitOperandWords u = some ops.length)
    (hi : parseUnit Z h ops = some i) : decode Z (portOf i) (encode i) = .ok i := by
  rw [hp, he]
  exact decodeUnit_eq_ok.mpr ⟨hu ▸ hn, hi⟩

/-- Every selector that a unit frame holds names its element again, so the frame of an operation parses to it. -/
theorem decode_encode_unitOp {i : Instr Z} (hp : portOf i = .unitOp) (nv : Z.NV ≤ 24) (ns : Z.NS ≤ 256) :
    decode Z (portOf i) (encode i) = .ok i := by
  have nch := Z.nch_le
  have nv8 : Z.NV ≤ 256 := by omega
  cases i <;> cases hp
  case mix sel =>
    have fits : (sel.setWidth 24).toNat < 2 ^ Z.NV := by
      rw [BitVec.toNat_setWidth]
      exact (Nat.mod_le _ _).trans_lt sel.isLt
    refine decode_encode_of_parseUnit rfl rfl (Laws.uopField_mask _ _) rfl ?_
    unfold parseUnit
    rw [Laws.uopField_mask, maskField_append]
    refine (if_pos fits).trans (congrArg some ?_)
    rw [BitVec.setWidth_setWidth_of_le _ nv, BitVec.setWidth_eq]
  all_goals
    refine decode_encode_of_parseUnit rfl rfl (Laws.uopField_unitHeader _ _ _ _) rfl ?_
    unfold parseUnit
    rw [Laws.uopField_unitHeader, selX_unitHeader, selY_unitHeader, selZ_unitHeader]
  case cfgWave => rw [waveDstOf_mod]; exact congrArg some (by simp)
  case cfgOp => rw [opSelOf_mod]; rfl
  case cfgEnv => rw [envSelOf_mod]; rfl
  case cfgLp1 => rw [onePoleOf_mod]; exact congrArg some (by simp)
  case cfgSvf | cfgModdest | cfgStack | cfgDelay | tick => rfl
  case cfgGlobal | svfRetune | delayStep | out => exact congrArg some (by simp)
  case cfgTune | applyNoteon | applyNoteoff | applyPressure | voiceStart | voiceRestart | lfoStep | stackRender |
      voiceRender =>
    rw [toFin_mod _ ‹_›]
    exact congrArg some (by simp)
  case syncStep | carStep | modStep =>
    rw [toFin_mod _ nv8, toFin_mod _ ns]
    exact congrArg some (by simp)
  case envStep => rw [envSelOf_mod, toFin_mod _ nv8, boolOf_mod]; rfl
  case lp1Step | hp1Step => rw [chanOf_mod]; exact congrArg some (by simp)
  case svfStep => rw [toFin_mod _ nv8, chanOf_mod]; exact congrArg some (by simp)
  case modAdd | modMulbias | modPitch => rw [destOf_mod]; exact congrArg some (by simp [joinSource])

theorem portOf_ne_control (i : Instr Z) : portOf i ≠ .control := by
  cases i <;> nofun

theorem encode_ne_nil (i : Instr Z) : encode i ≠ [] := by
  cases i <;> exact List.cons_ne_nil _ _

/-- Settles O1: the commands' frames by `decodeCommand_encode`, the unit operations' by `decode_encode_unitOp`. -/
theorem encodeDecodeAgree : Obligations.EncodeDecodeAgree := by
  intro Z i fits
  cases hp : portOf i with
  | command =>
    obtain ⟨h, ops, he⟩ := List.exists_cons_of_ne_nil (encode_ne_nil i)
    rw [he]
    exact decodeCommand_encode hp he
  | control => exact absurd hp (portOf_ne_control i)
  | unitOp =>
    obtain ⟨nv, ns⟩ := fits hp
    rw [← hp]
    exact decode_encode_unitOp hp nv ns

/-! ## A unit frame that parses is its operation's encoding, by the selectors that it holds -/

section
variable {h : Word} {ops : List Word} {i : Instr Z} {u : Nat}

/-- No selector. -/
theorem encode_of_select_none {j : Instr Z} (hu : uopField h = u) (he : encode j = unitHeader u 0 0 0 :: ops)
    (hi : (do unused (selX h); unused (selY h); unused (selZ h); return j) = some i) : encode i = h :: ops := by
  simp only [Option.bind_eq_bind, Option.bind_eq_some_iff, Option.pure_def, Option.some.injEq, unused_eq_some] at hi
  obtain ⟨-, hx, -, hy, -, hz, rfl⟩ := hi
  rw [he, unitHeader_eq_of_fields hu hx hy hz]

/-- One selector, in bits 15..8. -/
theorem encode_of_select_x {α : Type} {sel : Nat → Option α} {num : α → Nat} {j : α → Instr Z} (hu : uopField h = u)
    (names : ∀ {n a}, sel n = some a ↔ n = num a) (he : ∀ a, encode (j a) = unitHeader u (num a) 0 0 :: ops)
    (hi : (do unused (selY h); unused (selZ h); return j (← sel (selX h))) = some i) : encode i = h :: ops := by
  simp only [Option.bind_eq_bind, Option.bind_eq_some_iff, Option.pure_def, Option.some.injEq, unused_eq_some,
    names] at hi
  obtain ⟨-, hy, -, hz, a, hx, rfl⟩ := hi
  rw [he, unitHeader_eq_of_fields hu hx hy hz]

/-- Two selectors, a voice in bits 15..8 and another in bits 23..16. -/
theorem encode_of_select_xy {α : Type} {sel : Nat → Option α} {num : α → Nat} {j : Fin Z.NV → α → Instr Z}
    (hu : uopField h = u) (names : ∀ {n a}, sel n = some a ↔ n = num a)
    (he : ∀ v a, encode (j v a) = unitHeader u v (num a) 0 :: ops)
    (hi : (do unused (selZ h); return j (← toFin Z.NV (selX h)) (← sel (selY h))) = some i) : encode i = h :: ops := by
  simp only [Option.bind_eq_bind, Option.bind_eq_some_iff, Option.pure_def, Option.some.injEq, unused_eq_some,
    toFin_eq_some, names] at hi
  obtain ⟨-, hz, v, hx, a, hy, rfl⟩ := hi
  rw [he, unitHeader_eq_of_fields hu hx hy hz]

/-- The three selectors of ENV.STEP. -/
theorem encode_of_select_envStep (hu : uopField h = 0x35)
    (hi : (do return Instr.envStep (← envSelOf (selY h)) (← toFin Z.NV (selX h)) (← boolOf (selZ h))) = some i) :
    encode i = [h] := by
  simp only [Option.bind_eq_bind, Option.bind_eq_some_iff, Option.pure_def, Option.some.injEq, envSelOf_eq_some,
    toFin_eq_some, boolOf_eq_some] at hi
  obtain ⟨e, hy, v, hx, g, hz, rfl⟩ := hi
  rw [encode, unitHeader_eq_of_fields hu hx hy hz]

/-- The mask of MIX: a mask that names voices of the pool alone is kept by the pool's width. -/
theorem encode_of_select_mix (hu : uopField h = 0x40)
    (hi : (if (maskField h).toNat < 2 ^ Z.NV then some (Instr.mix ((maskField h).setWidth Z.NV)) else none) = some i) :
    encode i = [h] := by
  obtain ⟨fits, hi⟩ := Option.ite_none_right_eq_some.mp hi
  obtain rfl := Option.some.inj hi
  have kept : ((maskField h).setWidth Z.NV).setWidth 24 = maskField h := by
    apply BitVec.eq_of_toNat_eq
    rw [BitVec.toNat_setWidth, BitVec.toNat_setWidth, Nat.mod_eq_of_lt fits, Nat.mod_eq_of_lt (maskField h).isLt]
  rw [encode, kept, mixHeader_eq_of_fields hu rfl]

end

/-- Row by row of the unit operations (30_encoding.md R120). -/
theorem encode_of_decodeUnit {h : Word} {ops : List Word} {i : Instr Z} (hd : decodeUnit Z h ops = .ok i) :
    encode i = h :: ops := by
  obtain ⟨hn, hi⟩ := decodeUnit_eq_ok.mp hd
  generalize hl : ops.length = n at hn
  unfold parseUnit at hi
  generalize hu : uopField h = u at hi hn
  unfold unitOperandWords at hn
  split at hn
  case h_34 => cases hn
  all_goals obtain rfl := Option.some.inj hn
  case h_1 => -- CFG.WAVE
    match ops, hl, hi with
    | [a0, a1, b0, b1], _, hi => exact encode_of_select_x hu waveDstOf_eq_some (fun _ => by simp [encode]) hi
  case h_2 => -- CFG.OP
    match ops, hl, hi with
    | [], _, hi => exact encode_of_select_x hu opSelOf_eq_some (fun _ => by simp [encode]) hi
  case h_3 => -- CFG.ENV
    match ops, hl, hi with
    | [], _, hi => exact encode_of_select_x hu envSelOf_eq_some (fun _ => by simp [encode]) hi
  case h_4 => -- CFG.LP1
    match ops, hl, hi with
    | [a0, a1], _, hi => exact encode_of_select_x hu onePoleOf_eq_some (fun _ => by simp [encode]) hi
  case h_5 | h_6 | h_8 | h_9 | h_11 => -- CFG.SVF, CFG.MODDEST, CFG.STACK, CFG.DELAY, TICK
    match ops, hl, hi with
    | [], _, hi => exact encode_of_select_none hu (by simp [encode]) hi
  case h_10 => -- CFG.GLOBAL
    match ops, hl, hi with
    | [a0, a1], _, hi => exact encode_of_select_none hu (by simp [encode]) hi
  case h_7 | h_15 | h_16 | h_30 => -- CFG.TUNE, VOICE.START, VOICE.RESTART, VOICE.RENDER
    match ops, hl, hi with
    | [], _, hi => exact encode_of_select_x hu toFin_eq_some (fun _ => by simp [encode]) hi
  case h_12 | h_13 => -- APPLY.NOTEON, APPLY.NOTEOFF
    match ops, hl, hi with
    | [p0, p1, v0, v1, id], _, hi =>
      exact encode_of_select_x hu toFin_eq_some (fun _ => by simp [encode, noteWords]) hi
  case h_14 => -- APPLY.PRESSURE
    match ops, hl, hi with
    | [p0, p1, v0, v1, id, x0, x1], _, hi =>
      exact encode_of_select_x hu toFin_eq_some (fun _ => by simp [encode, noteWords]) hi
  case h_17 => -- SYNC.STEP
    match ops, hl, hi with
    | [a0, a1], _, hi => exact encode_of_select_xy hu toFin_eq_some (fun _ _ => by simp [encode]) hi
  case h_18 => -- CAR.STEP
    match ops, hl, hi with
    | [a0, a1, b0, b1, c0, c1], _, hi => exact encode_of_select_xy hu toFin_eq_some (fun _ _ => by simp [encode]) hi
  case h_19 => -- MOD.STEP
    match ops, hl, hi with
    | [a0, a1, b0, b1], _, hi => exact encode_of_select_xy hu toFin_eq_some (fun _ _ => by simp [encode]) hi
  case h_20 => -- LFO.STEP
    match ops, hl, hi with
    | [a0, a1, b0, b1], _, hi => exact encode_of_select_x hu toFin_eq_some (fun _ => by simp [encode]) hi
  case h_21 => -- ENV.STEP
    match ops, hl, hi with
    | [], _, hi => exact encode_of_select_envStep hu hi
  case h_22 | h_23 => -- LP1.STEP, HP1.STEP
    match ops, hl, hi with
    | [a0, a1, b0, b1], _, hi => exact encode_of_select_x hu chanOf_eq_some (fun _ => by simp [encode]) hi
  case h_24 => -- SVF.RETUNE
    match ops, hl, hi with
    | [a0, a1, b0, b1, c0, c1], _, hi => exact encode_of_select_none hu (by simp [encode]) hi
  case h_25 => -- SVF.STEP
    match ops, hl, hi with
    | [a0, a1, b0, b1, c0, c1], _, hi => exact encode_of_select_xy hu chanOf_eq_some (fun _ _ => by simp [encode]) hi
  case h_26 | h_27 | h_28 => -- MOD.ADD, MOD.MULBIAS, MOD.PITCH
    match ops, hl, hi with
    | [a0, a1, b0, b1, c0, c1, d0, d1, e0, e1], _, hi =>
      exact encode_of_select_x hu destOf_eq_some (fun _ => by simp [encode, sourceWords, joinSource]) hi
  case h_29 => -- STACK.RENDER
    match ops, hl, hi with
    | [a0, a1, b0, b1, c0, c1], _, hi => exact encode_of_select_x hu toFin_eq_some (fun _ => by simp [encode]) hi
  case h_31 => -- DELAY.STEP
    match ops, hl, hi with
    | [a0, a1, b0, b1], _, hi => exact encode_of_select_none hu (by simp [encode]) hi
  case h_32 => -- MIX
    match ops, hl, hi with
    | [], _, hi => exact encode_of_select_mix hu hi
  case h_33 => -- OUT
    match ops, hl, hi with
    | [a0, a1, b0, b1, c0, c1, d0, d1], _, hi => exact encode_of_select_none hu (by simp [encode]) hi

/-- Settles O2: the commands by `encode_of_decodeCommand`, the unit operations by `encode_of_decodeUnit`. -/
theorem decodedFrameIsEncoding : Obligations.DecodedFrameIsEncoding := by
  intro Z p ws i hd
  match ws, p, hd with
  | h :: ops, .command, hd => exact (decodeCommand_eq_ok.mp hd).2
  | h :: ops, .control, hd => exact (decodeCommand_eq_ok.mp (decodeControl_eq_ok.mp hd).2).2
  | h :: ops, .unitOp, hd => exact encode_of_decodeUnit hd

end Sys2Proof.Machine
end

-- ==== Encoding: legal headers ====
section
/-! PROOFS. Which frames of the host ports decode: the rows of the command table as conditions on the header's fields
(30_encoding.md R116 to R119), and the worked encodings. -/

namespace Sys2Proof.Machine

variable {Z : Config.Params}

theorem opField_eq_div (h : Word) : opField h = h.toNat / 2 ^ 24 := by
  have := h.isLt
  rw [opField, BitVec.extractLsb'_toNat, Nat.shiftRight_eq_div_pow]
  omega

/-- The length that a header announces is that of its `op`'s format (R112, R116). -/
theorem frameWords_eq (h : Word) : frameWords h = formatWords (h.toNat / 2 ^ 24) := by
  rw [← opField_eq_div]
  unfold frameWords
  split
  case h_8 =>
    unfold formatWords
    split_ifs <;> simp_all
  all_goals
    rename_i hop
    rw [hop]
    rfl

/-! The three masks of R117, by the fields that they compare. -/

theorem and_wholeMask_eq (op a n : BitVec 8) (b : BitVec 16) :
    header op a b &&& 0xFFFFFFFF = header n 0 0 ↔ op = n ∧ a = 0 ∧ b = 0 := by
  have mask : (0xFFFFFFFF : Word) = header (BitVec.allOnes 8) (BitVec.allOnes 8) (BitVec.allOnes 16) := rfl
  simp only [mask, header_and_header, header_inj, BitVec.and_allOnes]

theorem and_freeChannelMask_eq (op a n : BitVec 8) (b : BitVec 16) :
    header op a b &&& 0xFF00FFFF = header n 0 0 ↔ op = n ∧ b = 0 := by
  have mask : (0xFF00FFFF : Word) = header (BitVec.allOnes 8) 0 (BitVec.allOnes 16) := rfl
  simp only [mask, header_and_header, header_inj, BitVec.and_allOnes]
  simp

theorem and_freeAddressMask_eq (op a n : BitVec 8) (b : BitVec 16) :
    header op a b &&& 0xFFFF0000 = header n 0 0 ↔ op = n ∧ a = 0 := by
  have mask : (0xFFFF0000 : Word) = header (BitVec.allOnes 8) (BitVec.allOnes 8) 0 := rfl
  simp only [mask, header_and_header, header_inj, BitVec.and_allOnes]
  simp

/-- The rows of R117 by the header's fields: `a` is free in RESERVE and RESERVEP alone, `b` in PWRITE alone (R118). -/
theorem headerLegal_header (op a : BitVec 8) (b : BitVec 16) : headerLegal (header op a b) ↔
    op = 1 ∧ a = 0 ∧ b = 0 ∨ op = 2 ∧ a = 0 ∧ b = 0 ∨ op = 3 ∧ a = 0 ∧ b = 0 ∨ op = 4 ∧ b = 0 ∨ op = 5 ∧ b = 0 ∨
      op = 6 ∧ a = 0 ∧ b = 0 ∨ op = 7 ∧ a = 0 := by
  have rows : commandRows = [(header 1 0 0, 0xFFFFFFFF), (header 2 0 0, 0xFFFFFFFF), (header 3 0 0, 0xFFFFFFFF),
    (header 4 0 0, 0xFF00FFFF), (header 5 0 0, 0xFF00FFFF), (header 6 0 0, 0xFFFFFFFF), (header 7 0 0, 0xFFFF0000)] :=
    rfl
  simp only [headerLegal, rows, List.exists_mem_cons_iff, List.not_mem_nil, false_and, exists_false, or_false,
    and_wholeMask_eq, and_freeChannelMask_eq, and_freeAddressMask_eq]

/-- A legal frame of the command port is some command's encoding, and only a legal one is (R112, R117). -/
theorem exists_encode_eq_iff (h : Word) (ops : List Word) : (∃ i : Instr Z, portOf i = .command ∧ encode i = h :: ops) ↔
    headerLegal h ∧ ops.length + 1 = formatWords (h.toNat / 2 ^ 24) := by
  rw [← frameWords_eq]
  constructor
  · rintro ⟨i, hp, he⟩
    cases i <;> cases hp
    all_goals
      cases he
      simp [headerLegal_header, frameWords, Laws.opField_header, numWords]
  · rintro ⟨legal, hl⟩
    obtain ⟨op, a, b, rfl⟩ : ∃ op a b, h = header op a b := ⟨_, _, _, (header_fields h).symm⟩
    rw [frameWords, Laws.opField_header] at hl
    rcases (headerLegal_header op a b).mp legal with ⟨rfl, rfl, rfl⟩ | ⟨rfl, rfl, rfl⟩ | ⟨rfl, rfl, rfl⟩ | ⟨rfl, rfl⟩ |
      ⟨rfl, rfl⟩ | ⟨rfl, rfl, rfl⟩ | ⟨rfl, rfl⟩
    · match ops, hl with
      | [x0, x1], _ => exact ⟨.activate (joinNum x0 x1), rfl, by simp [encode]⟩
    · match ops, hl with
      | [], _ => exact ⟨.deactivate, rfl, rfl⟩
    · match ops, hl with
      | [x0, x1], _ => exact ⟨.recalc (joinNum x0 x1), rfl, by simp [encode]⟩
    · match ops, hl with
      | [p0, p1, v0, v1, id, off], _ =>
        exact ⟨.reserve a (joinNum p0 p1) (joinNum v0 v1) id off, rfl, by simp [encode]⟩
    · match ops, hl with
      | [p0, p1, x0, x1, id, off], _ =>
        exact ⟨.reservep a (joinNum p0 p1) (joinNum x0 x1) id off, rfl, by simp [encode]⟩
    · match ops, hl with
      | [x0, x1, n], _ => exact ⟨.process (joinNum x0 x1) n, rfl, by simp [encode]⟩
    · match ops, hl with
      | [x0, x1], _ => exact ⟨.pwrite b (joinNum x0 x1), rfl, by simp [encode]⟩

/-- Settles O3: what decodes is an encoding (`decodeCommand_eq_ok`), and the encodings are the legal frames
(`exists_encode_eq_iff`). -/
theorem legalHeadersDecode : Obligations.LegalHeadersDecode := by
  intro Z h ops
  have command : (∃ i, decode Z .command (h :: ops) = .ok i) ↔
      headerLegal h ∧ ops.length + 1 = formatWords (h.toNat / 2 ^ 24) := by
    rw [← exists_encode_eq_iff (Z := Z)]
    exact exists_congr fun i => decodeCommand_eq_ok
  refine ⟨command, ?_⟩
  calc (∃ i, decode Z .control (h :: ops) = .ok i)
      ↔ opField h = 7 ∧ ∃ i, decode Z .command (h :: ops) = .ok i := by
        rw [← exists_and_left]
        exact exists_congr fun i => decodeControl_eq_ok
    _ ↔ headerLegal h ∧ h.toNat / 2 ^ 24 = 7 ∧ ops.length + 1 = 3 := by
        rw [command, opField_eq_div, and_left_comm]
        exact and_congr_right fun _ => and_congr_right fun hop => by rw [hop]; rfl

/-- Settles O4: each of the eight frames evaluates to its command, for all parameters. -/
theorem workedEncodingsDecode : Obligations.WorkedEncodingsDecode :=
  fun _ => ⟨rfl, rfl, rfl, rfl, rfl, rfl, rfl, rfl⟩

end Sys2Proof.Machine
end

-- ==== Encoding: taking a frame from a port ====
section
/-! PROOFS. What a step does with the frame at the front of a port: it waits for the whole of it, consumes it whole, and
runs it or latches IllegalCommand (30_encoding.md R116, R119). -/

namespace Sys2Proof.Machine

variable {Z : Config.Params} {s : State Z} {h : Word} {ops rest : List Word}

/-! ## The frame at the front of a port (R116) -/

theorem frameReady_of_whole {p : Port} (hs : portWords p s = h :: ops ++ rest) (hl : frameLength p h = ops.length + 1) :
    frameReady p (portWords p s) = true := by
  simp [frameReady, hs, hl]

theorem frontFrame_of_whole {p : Port} (hs : portWords p s = h :: ops ++ rest) (hl : frameLength p h = ops.length + 1) :
    frontFrame p s = h :: ops := by
  simp [frontFrame, hs, hl]

theorem consumeFrame_of_whole {p : Port} (hs : portWords p s = h :: ops ++ rest)
    (hl : frameLength p h = ops.length + 1) : consumeFrame p s = setPortWords p rest s := by
  simp [consumeFrame, hs, hl]

theorem runFrame_of_whole {p : Port} (hs : portWords p s = h :: ops ++ rest) (hl : frameLength p h = ops.length + 1) :
    runFrame Z.exec p s = frameEffect p (h :: ops) (setPortWords p rest s) := by
  unfold runFrame frameEffect
  rw [frontFrame_of_whole hs hl, consumeFrame_of_whole hs hl]
  cases decode Z p (h :: ops) with
  | ok i => rfl
  | error e => exact congrArg Host.Outcome.next (raise_eq_latched _ _)

theorem frameEffect_of_ok {p : Port} {ws : List Word} {i : Instr Z} (hd : decode Z p ws = .ok i) (s : State Z) :
    frameEffect p ws s = Z.exec i s := by
  rw [frameEffect, hd]

theorem frameEffect_of_not_ok {p : Port} {ws : List Word} (hd : ¬ ∃ i, decode Z p ws = .ok i) (s : State Z) :
    frameEffect p ws s = .next (latched .illegalCommand s) := by
  unfold frameEffect
  cases hw : decode Z p ws with
  | ok i => exact absurd ⟨i, hw⟩ hd
  | error e => rfl

/-- A frame that decodes has the length that its first word announces (R112, R116). -/
theorem frameLength_of_decode {p : Port} {i : Instr Z} (hd : decode Z p (h :: ops) = .ok i) :
    frameLength p h = ops.length + 1 := by
  have command (hc : decode Z .command (h :: ops) = .ok i) : frameWords h = ops.length + 1 := by
    rw [frameWords_eq]
    exact (((legalHeadersDecode Z h ops).1.mp ⟨i, hc⟩).2).symm
  cases p with
  | command => exact command hd
  | control => exact command (decodeControl_eq_ok.mp hd).2
  | unitOp => simp [frameLength, (decodeUnit_eq_ok.mp hd).1]

/-! ## One step, no reset asserted -/

theorem step_eq_advance (hr : s.resetIn = false) (ha : s.resetAfter = none) : Z.step s = advance Z.exec s := by
  simp [Config.Params.step, takeStep, hr, ha]

/-- The step of a port that is chosen without a free choice. -/
theorem step_of_nextPort {p : Port} (hr : s.resetIn = false) (ha : s.resetAfter = none) (hu : s.uops = [])
    (alone : contended s = false) (hp : nextPort s = some p) (hs : portWords p s = h :: ops ++ rest)
    (hl : frameLength p h = ops.length + 1) : Z.step s = frameEffect p (h :: ops) (setPortWords p rest s) := by
  rw [step_eq_advance hr ha, ← runFrame_of_whole hs hl]
  simp [advance, hu, hp, arbitrated, alone, frameReady]

theorem step_of_command (hr : s.resetIn = false) (ha : s.resetAfter = none) (hu : s.uops = [])
    (quiet : frameReady .control s.ctl = false) (hs : portWords .command s = h :: ops ++ rest)
    (hl : frameLength .command h = ops.length + 1) :
    Z.step s = frameEffect .command (h :: ops) { s with cmd := rest } := by
  have ready : frameReady .command s.cmd = true := frameReady_of_whole hs hl
  have alone : contended s = false := by simp [contended, quiet]
  exact step_of_nextPort hr ha hu alone (by simp [nextPort, alone, ready]) hs hl

theorem step_of_control (hr : s.resetIn = false) (ha : s.resetAfter = none) (hu : s.uops = [])
    (quiet : frameReady .command s.cmd = false) (hs : portWords .control s = h :: ops ++ rest)
    (hl : frameLength .control h = ops.length + 1) :
    Z.step s = frameEffect .control (h :: ops) { s with ctl := rest } := by
  have ready : frameReady .control s.ctl = true := frameReady_of_whole hs hl
  have alone : contended s = false := by simp [contended, quiet]
  exact step_of_nextPort hr ha hu alone (by simp [nextPort, alone, quiet, ready]) hs hl

/-- A unit frame goes before what the host ports hold (assumption 9). -/
theorem step_of_unitOp {i : Instr Z} (hr : s.resetIn = false) (ha : s.resetAfter = none)
    (hs : portWords .unitOp s = h :: ops ++ rest) (hd : decode Z .unitOp (h :: ops) = .ok i) :
    Z.step s = Z.exec i { s with uops := rest } := by
  have hl := frameLength_of_decode hd
  have ready : frameReady .unitOp s.uops = true := frameReady_of_whole hs hl
  rw [step_eq_advance hr ha, advance, if_pos ready, runUnit, frontFrame_of_whole hs hl, consumeFrame_of_whole hs hl, hd]
  rfl

/-- Settles O7: an illegal header does not decode (`legalHeadersDecode`), so the step latches the cause. -/
theorem illegalFrameLatches : Obligations.IllegalFrameLatches := by
  intro Z s h ops rest hr ha hu hl
  have whole : frameWords h = ops.length + 1 := (frameWords_eq h).trans hl.symm
  obtain ⟨command, control⟩ := legalHeadersDecode Z h ops
  constructor
  · intro illegal hs quiet
    rw [step_of_command hr ha hu quiet hs whole]
    exact frameEffect_of_not_ok (fun hd => illegal (command.mp hd).1) _
  · intro illegal hs quiet
    rw [step_of_control hr ha hu quiet hs whole]
    refine frameEffect_of_not_ok (fun hd => illegal ?_) _
    obtain ⟨legal, pwrite, -⟩ := control.mp hd
    exact ⟨legal, pwrite⟩

/-- Settles O5: a frame that decodes is whole (`frameLength_of_decode`), so the step of its port runs it. -/
theorem stepRunsDecodedInstruction : Obligations.StepRunsDecodedInstruction := by
  refine ⟨fun Z s ws rest i hr ha => ?_, exec_eq, step_eq⟩
  match ws with
  | [] => exact ⟨nofun, nofun, nofun⟩
  | h :: ops =>
    refine ⟨fun hu quiet hs hd => ?_, fun hu quiet hs hd => ?_, fun hs hd => step_of_unitOp hr ha hs hd⟩
    · rw [step_of_command hr ha hu quiet hs (frameLength_of_decode hd), frameEffect_of_ok hd]
    · rw [step_of_control hr ha hu quiet hs (frameLength_of_decode hd), frameEffect_of_ok hd]

theorem frameReady_eq_false {p : Port} {ws : List Word}
    (missing : ∀ h ops, ws = h :: ops → ws.length < frameLength p h) : frameReady p ws = false := by
  cases ws with
  | nil => rfl
  | cons h ops => simpa [frameReady] using missing h ops rfl

/-- Settles O6: neither port is ready, so no port is chosen. -/
theorem portsWaitForWholeFrame : Obligations.PortsWaitForWholeFrame := by
  intro Z s hr ha hu hcmd hctl
  have command : frameReady .command s.cmd = false :=
    frameReady_eq_false fun h ops hs => (hcmd h ops hs).trans_eq (frameWords_eq h).symm
  have control : frameReady .control s.ctl = false :=
    frameReady_eq_false fun h ops hs => (hctl h ops hs).trans_eq (frameWords_eq h).symm
  rw [step_eq_advance hr ha]
  simp only [advance, hu, nextPort, contended, command, control]
  rfl

end Sys2Proof.Machine
end

-- ==== Unit operations: the oscillators ====
section
/-! PROOFS. CFG.WAVE, CFG.OP, SYNC.STEP, CAR.STEP, MOD.STEP and LFO.STEP as the rules state them (41_oscillator.md). -/

namespace Sys2Proof.Machine

variable {Z : Config.Params}

/-! ## What each operation writes -/

theorem exec_cfgWave (dst : WaveDst) (x y : Num) (s : State Z) :
    Z.exec (.cfgWave dst x y) s = .next (returned { s with cfg := waveSet s.cfg dst (waveCfg x y) } []) := rfl

@[simp] theorem issue_cfgWave (dst : WaveDst) (x y : Num) (s : State Z) :
    issue (.cfgWave dst x y) s = returned { s with cfg := waveSet s.cfg dst (waveCfg x y) } [] := rfl

theorem exec_cfgOp (o : OpSel) (s : State Z) :
    Z.exec (.cfgOp o) s = .next (returned { s with cfg := cfgOpOf Z (paramRead s) o s.cfg } []) := rfl

theorem exec_syncStep (v : Fin Z.NV) (k : Fin Z.NS) (dS : Num) (s : State Z) :
    Z.exec (.syncStep v k dS) s =
      .next (returned (setVoice s v (syncVoice s.voices[v] k dS).1) [(syncVoice s.voices[v] k dS).2]) := rfl

theorem exec_carStep (v : Fin Z.NV) (k : Fin Z.NS) (delta pulse fmIn : Num) (s : State Z) :
    Z.exec (.carStep v k delta pulse fmIn) s =
      .next (returned (setVoice s v (carVoice s.cfg s.voices[v] k delta pulse fmIn).1)
        [(carVoice s.cfg s.voices[v] k delta pulse fmIn).2]) := rfl

theorem exec_modStep (v : Fin Z.NV) (k : Fin Z.NS) (delta pulse : Num) (s : State Z) :
    Z.exec (.modStep v k delta pulse) s =
      .next (returned (setVoice s v (modVoice s.cfg s.voices[v] k delta pulse).1)
        [(modVoice s.cfg s.voices[v] k delta pulse).2]) := rfl

theorem exec_lfoStep (v : Fin Z.NV) (sp lv : Num) (s : State Z) :
    Z.exec (.lfoStep v sp lv) s =
      .next (returned (setVoice s v (lfoStep s.cfg s.voices[v] sp lv).1) [(lfoStep s.cfg s.voices[v] sp lv).2]) := rfl

/-! ## CFG.WAVE and CFG.OP (R161, R163) -/

/-- Settles O28: the three destinations take one record, `waveCfg`'s. -/
theorem cfgWaveResult : Obligations.CfgWaveResult := by
  intro Z x y s r w
  have record : waveCfg x y = w := rfl
  rw [exec_cfgWave, exec_cfgWave, exec_cfgWave, record]
  exact ⟨rfl, rfl, rfl⟩

/-- A CFG rule sees a mapped register sanitized by its own row (49_processor.md R354). -/
theorem paramNum_of_row {a : Nat} {r : ParamRow} (snap : Nat → Num) (h : paramRow Z a = some r) :
    paramNum Z snap a = sanitize (snap a) r.lo r.hi r.dflt := by
  simp [paramNum, h]

theorem fneg_semitones : fneg (decimal 48 1) = negDecimal 48 1 := by decide +kernel

/-- Settles O29: every register is read by its row of R35 or R36 (`paramNum_of_row`), and the record CFG.WAVE would write
is the `waveCfg` of the same two shapes. -/
theorem cfgOpResult : Obligations.CfgOpResult := by
  intro Z s v semi
  have low : fneg semi = negDecimal 48 1 := fneg_semitones
  have reg {a : Nat} {lo hi d : Num} (row : paramRow Z a = some ⟨lo, hi, d⟩) :
      paramNum Z (paramRead s) a = v lo hi d a := by
    rw [paramNum_of_row _ row]
  rw [low, issue_cfgWave, issue_cfgWave]
  constructor
  · rw [exec_cfgOp, cfgOpOf, paramBool, reg (a := 0x0100) rfl, reg (a := 0x0101) rfl, reg (a := 0x0102) rfl,
      reg (a := 0x0103) rfl, reg (a := 0x0104) rfl]
    rfl
  · rw [exec_cfgOp, cfgOpOf, paramBool, reg (a := 0x0200) rfl, reg (a := 0x0201) rfl, reg (a := 0x0202) rfl,
      reg (a := 0x0203) rfl, reg (a := 0x0204) rfl, reg (a := 0x0205) rfl]
    rfl

/-! ## SYNC.STEP (R164) -/

/-- A pulse is -1, or a time since the wrap, which is never negative (R164). -/
theorem syncStep_pulse (phase dS : Num) :
    (syncStep phase dS).2 = nNeg1 ∨ fle n0 (syncStep phase dS).2 = true := by
  have zero : isNaN n0 = false := by decide +kernel
  dsimp only [syncStep]
  split
  case isFalse silent => exact .inl rfl
  case isTrue fires =>
    right
    split
    case isTrue => exact fle_refl zero
    case isFalse kept =>
      simp only [Bool.or_eq_true, Bool.not_eq_true', not_or, Bool.not_eq_false, Bool.not_eq_true] at kept
      obtain ⟨finite, notBelow⟩ := kept
      exact fle_of_not_flt (isNaN_of_isFinite finite) zero notBelow

/-- Settles O44: the phase stored is `WrapState`'s (`inUnit_wrapState`), the pulse as `syncStep_pulse` says. -/
theorem syncStepResult : Obligations.SyncStepResult := by
  intro Z v k dS s x p pulse
  have step : syncStep (s.voices[v]).sync[k] dS = (wrapState x, pulse) := rfl
  have range := syncStep_pulse (s.voices[v]).sync[k] dS
  rw [step] at range
  rw [exec_syncStep, syncVoice, step]
  dsimp only [returned, setVoice] at range ⊢
  exact ⟨rfl, inUnit_wrapState x, range⟩

/-! ## CAR.STEP, MOD.STEP and LFO.STEP (R165 to R168) -/

/-- Settles O45: both operators run `opStep`, with their own Config record and state. -/
theorem operatorStepResults : Obligations.OperatorStepResults := by
  intro Z v k delta pulse fmIn s sine shape op
  have sine_eq : sinShape Z = sine := rfl
  have shape_eq : wave Z = shape := by
    funext w p
    rw [wave, sine_eq]
  have op_eq (c : OpCfg) (o : OpState) (fm : Num) : opStep Z c o delta pulse fm = op c o fm := by
    rw [opStep, shape_eq]
    rfl
  rw [exec_carStep, exec_modStep, carVoice, modVoice, op_eq, op_eq]
  exact ⟨rfl, rfl⟩

/-- Settles O46: `lfoStep` stores the guarded, scaled wave and a phase that is `WrapState`'s (`inUnit_wrapState`). -/
theorem lfoStepResult : Obligations.LfoStepResult := by
  intro Z v sp lv s w lfo phase
  have step : lfoStep s.cfg s.voices[v] sp lv = ({ s.voices[v] with lfoPhase := phase, lfoOut := lfo }, lfo) := rfl
  rw [exec_lfoStep, step]
  exact ⟨rfl, inUnit_wrapState _⟩

end Sys2Proof.Machine
end

-- ==== Unit operations: the envelopes ====
section
/-! PROOFS. CFG.ENV and ENV.STEP as the rules state them, and the range and direction of an envelope's level
(42_envelope.md). -/

namespace Sys2Proof.Machine

variable {Z : Config.Params}

/-! ## What each operation writes -/

theorem exec_cfgEnv (e : EnvSel) (s : State Z) :
    Z.exec (.cfgEnv e) s =
      .next (returned { s with cfg := envCfgSet s.cfg e (envRecord Z (paramRead s) e s.cfg.fs) } []) := rfl

theorem exec_envStep (e : EnvSel) (v : Fin Z.NV) (gate : Bool) (s : State Z) :
    Z.exec (.envStep e v gate) s =
      .next (returned (setVoice s v (envVoice s.cfg s.voices[v] e gate).1) [(envVoice s.cfg s.voices[v] e gate).2]) := rfl

/-- ENV.STEP chooses by the gate and the flag (R192). -/
theorem envStepUnder_attack (law : Config.AttackLaw) (c : EnvCfg) {o : EnvState} (h : o.decaying = false) :
    envStepUnder law c o true = envAttack law c o := by simp [envStepUnder, h]

theorem envStepUnder_decay (law : Config.AttackLaw) (c : EnvCfg) {o : EnvState} (h : o.decaying = true) :
    envStepUnder law c o true = envDecay c o := by simp [envStepUnder, h]

theorem envStepUnder_release (law : Config.AttackLaw) (c : EnvCfg) (o : EnvState) :
    envStepUnder law c o false = envRelease c o := rfl

/-! ## CFG.ENV (R190) -/

/-- Settles O30: the four registers are read by their rows of R37 (`paramRow_env`), the same in the three groups. -/
theorem cfgEnvResult : Obligations.CfgEnvResult := by
  intro Z s rate env
  have record (e : EnvSel) : envRecord Z (paramRead s) e s.cfg.fs = env (envGroup e) := by
    obtain ⟨attack, decay, sustain, release⟩ := paramRow_env (Z := Z) e
    rw [envRecord, paramInt, paramInt, paramInt, paramNum_of_row _ attack, paramNum_of_row _ decay,
      paramNum_of_row _ sustain, paramNum_of_row _ release]
    rfl
  rw [exec_cfgEnv, exec_cfgEnv, exec_cfgEnv, record, record, record]
  exact ⟨rfl, rfl, rfl⟩

/-! ## ENV.STEP (R192 to R195) -/

/-- Settles O47: the three phases are `envAttack`, `envDecay` and `envRelease`, of the selected envelope. -/
theorem envStepResult : Obligations.EnvStepResult := by
  intro Z e v gate s c o thr up down off r
  have cfg_eq : envCfgGet s.cfg e = c := by cases e <;> rfl
  have state_eq : envGet s.voices[v] e = o := by cases e <;> rfl
  have step : envStep Z c o gate = r := by
    rw [envStep]
    cases gate
    case false => exact envStepUnder_release _ c o
    case true =>
      cases flag : o.decaying
      case false =>
        have attacks : r = _ := if_pos ⟨rfl, flag⟩
        rw [envStepUnder_attack _ c flag, envAttack, flag, attacks]
        rfl
      case true =>
        have decays : r = _ := (if_neg (by simp [flag])).trans (if_pos rfl)
        rw [envStepUnder_decay _ c flag, envDecay, flag, decays]
        rfl
  rw [exec_envStep, envVoice, cfg_eq, state_eq, step]
  cases e <;> rfl

/-! ## A step towards a target -/

theorem units_of_within {x lo hi : Num} (h : within x lo hi = true) : units lo ≤ units x ∧ units x ≤ units hi := by
  obtain ⟨low, high⟩ := within_iff.mp h
  exact ⟨(fle_iff.mp low).2.2, (fle_iff.mp high).2.2⟩

theorem units_n0 : units n0 = 0 := by decide +kernel

theorem units_n1 : units n1 = (unitsPerOne : Int) := by decide +kernel

/-- A level in `[0, 1]` in units of the format's smallest positive value. -/
theorem units_of_inClosedUnit {x : Num} (h : inClosedUnit x = true) : 0 ≤ units x ∧ units x ≤ (unitsPerOne : Int) := by
  have range := units_of_within (inClosedUnit_iff.mp h)
  rwa [units_n0, units_n1] at range

/-- A rate in `[0, 1]` scales a distance below 0 to one that is no longer. -/
theorem fmul_within_nonpos {a b lo : Num} (ha : within a lo n0 = true) (hb : inClosedUnit b = true)
    (hlo : isFinite lo = true) : within (fmul a b) lo n0 = true := by
  obtain ⟨lo_le, le_zero⟩ := units_of_within ha
  obtain ⟨zero_le, le_one⟩ := units_of_inClosedUnit hb
  rw [units_n0] at le_zero
  refine within_iff.mpr (fmul_between (isFinite_of_within ha hlo (by decide +kernel)) (isFinite_of_inClosedUnit hb)
    (isNaN_of_isFinite hlo) (by decide +kernel) ?_ ?_)
  · calc units lo * (unitsPerOne : Int) ≤ units a * (unitsPerOne : Int) :=
          mul_le_mul_of_nonneg_right lo_le (Int.natCast_nonneg _)
      _ ≤ units a * units b := mul_le_mul_of_nonpos_left le_one le_zero
  · rw [units_n0, zero_mul]
    exact mul_nonpos_of_nonpos_of_nonneg le_zero zero_le

/-- A level in `[0, 1]` does not fall by an increment that is not negative. -/
theorem fadd_within_rise {x d : Num} (hx : inClosedUnit x = true) (hd : within d n0 n2 = true) :
    within (fadd x d) x (decimal 3 1) = true := by
  have fx := isFinite_of_inClosedUnit hx
  have below : units n1 + units n2 ≤ units (decimal 3 1) := by decide +kernel
  have level := units_of_inClosedUnit hx
  have step := units_of_within hd
  rw [units_n0] at step
  rw [units_n1] at below
  exact within_iff.mpr (fadd_between fx (isFinite_of_within hd (by decide +kernel) (by decide +kernel))
    (isNaN_of_isFinite fx) (by decide +kernel) (by omega) (by omega))

/-- A level in `[0, 1]` does not rise by an increment that is not positive. -/
theorem fadd_within_fall {x d : Num} (hx : inClosedUnit x = true) (hd : within d (negDecimal 2 1) n0 = true) :
    within (fadd x d) (negDecimal 2 1) x = true := by
  have fx := isFinite_of_inClosedUnit hx
  have level := units_of_inClosedUnit hx
  have step := units_of_within hd
  rw [units_n0] at step
  exact within_iff.mpr (fadd_between fx (isFinite_of_within hd (by decide +kernel) (by decide +kernel))
    (by decide +kernel) (isNaN_of_isFinite fx) (by omega) (by omega))

/-- A step towards a target at or below the level does not rise (R194, R195). -/
theorem stepTowards_fall {x t r : Num} (hx : inClosedUnit x = true) (ht : within t nNeg1 x = true)
    (hr : inClosedUnit r = true) : within (fadd x (fmul (fsub t x) r)) (negDecimal 2 1) x = true := by
  have fx := isFinite_of_inClosedUnit hx
  have low : units (negDecimal 2 1) = units nNeg1 - units n1 := by decide +kernel
  have level := units_of_inClosedUnit hx
  have target := units_of_within ht
  rw [units_n1] at low
  have distance : within (fsub t x) (negDecimal 2 1) n0 = true :=
    within_iff.mpr (fsub_between (isFinite_of_within ht (by decide +kernel) fx) fx (by decide +kernel) (by decide +kernel)
      (by omega) (by rw [units_n0]; omega))
  exact fadd_within_fall hx (fmul_within_nonpos distance hr (by decide +kernel))

/-- A step towards the attack's target, 1.001, does not fall (R193). -/
theorem stepTowards_rise {x r : Num} (hx : inClosedUnit x = true) (hr : inClosedUnit r = true) :
    within (fadd x (fmul (fsub (fadd n1 expThreshold) x) r)) x (decimal 3 1) = true := by
  have low : units n1 ≤ units (fadd n1 expThreshold) := by decide +kernel
  have high : units (fadd n1 expThreshold) ≤ units n2 := by decide +kernel
  have level := units_of_inClosedUnit hx
  rw [units_n1] at low
  have distance : within (fsub (fadd n1 expThreshold) x) n0 n2 = true :=
    within_iff.mpr (fsub_between (by decide +kernel) (isFinite_of_inClosedUnit hx) (by decide +kernel) (by decide +kernel)
      (by rw [units_n0]; omega) (by omega))
  have scaled : within (fmul (fsub (fadd n1 expThreshold) x) r) n0 n2 = true :=
    fmul_within distance (inClosedUnit_iff.mp hr) (by decide +kernel) (by decide +kernel) (by decide +kernel)
      (by decide +kernel)
  exact fadd_within_rise hx scaled

/-! ## The three phases -/

/-- What an attack computes is a number at or above the level, under either law (R193, R198). -/
theorem le_attackLevel (law : Config.AttackLaw) {c : EnvCfg} {x : Num} (hx : inClosedUnit x = true)
    (hr : inClosedUnit c.attackDelta = true) : fle x (attackLevel law c x) = true := by
  cases law
  case expReverse => exact (within_iff.mp (stepTowards_rise hx hr)).1
  case linear =>
    have increment : within c.attackDelta n0 n2 = true :=
      within_mono (inClosedUnit_iff.mp hr) (by decide +kernel) (by decide +kernel)
    exact (within_iff.mp (fadd_within_rise hx increment)).1

/-- What has not reached the attack's end is a number at most 1 (R193). -/
theorem le_one_of_not_attackDone {x : Num} (h : ¬ attackDone x = true) : fle x n1 = true := by
  simp only [attackDone, Bool.or_eq_true, not_or, Bool.not_eq_true] at h
  obtain ⟨notOne, isNumber⟩ := h
  exact fle_of_not_flt (by decide +kernel) isNumber
    (Bool.eq_false_iff.mpr fun above => by simp [fle_of_flt above] at notOne)

/-- Attack: the level does not fall and does not pass 1, which it is when the flag is set (R193). -/
theorem envAttack_level (law : Config.AttackLaw) {c : EnvCfg} {o : EnvState} (ho : inClosedUnit o.level = true)
    (hr : inClosedUnit c.attackDelta = true) (flag : o.decaying = false) :
    within (envAttack law c o).level o.level n1 = true ∧
      ((envAttack law c o).decaying = true → (envAttack law c o).level = n1) := by
  have rise := le_attackLevel law ho hr
  unfold envAttack
  dsimp only
  split
  case isTrue => exact ⟨within_iff.mpr ⟨(within_iff.mp (inClosedUnit_iff.mp ho)).2, by decide +kernel⟩, fun _ => rfl⟩
  case isFalse going =>
    exact ⟨within_iff.mpr ⟨rise, le_one_of_not_attackDone going⟩, fun done => by simp [flag] at done⟩

/-- Decay from the sustain level or above stays between the two (R194). -/
theorem envDecay_level {c : EnvCfg} {o : EnvState} (ho : inClosedUnit o.level = true)
    (hs : inClosedUnit c.sustain = true) (hr : inClosedUnit c.decayRate = true) (h : fle c.sustain o.level = true) :
    within (envDecay c o).level c.sustain o.level = true := by
  have atSustain : within c.sustain c.sustain o.level = true := within_iff.mpr ⟨fle_refl (fle_iff.mp h).1, h⟩
  have low : units nNeg1 ≤ units n0 - units expThreshold := by decide +kernel
  have positive : 0 ≤ units expThreshold := by decide +kernel
  have sustain := units_of_inClosedUnit hs
  have fs := isFinite_of_inClosedUnit hs
  rw [units_n0] at low
  have target : within (fsub c.sustain expThreshold) nNeg1 c.sustain = true :=
    within_iff.mpr (fsub_between fs (by decide +kernel) (by decide +kernel) (isNaN_of_isFinite fs) (by omega) (by omega))
  have fall := stepTowards_fall ho (within_mono target (by decide +kernel) h) hr
  unfold envDecay
  dsimp only
  split
  case isFalse => exact atSustain
  case isTrue =>
    split
    case isTrue above => exact within_iff.mpr ⟨fle_of_flt above, (within_iff.mp fall).2⟩
    case isFalse => exact atSustain

/-- Decay from below the sustain level is the sustain level (R194). -/
theorem envDecay_of_below {c : EnvCfg} {o : EnvState} (h : fle c.sustain o.level = false) :
    (envDecay c o).level = c.sustain := by
  have notAbove : ¬ flt c.sustain o.level = true := fun above => by simp [fle_of_flt above] at h
  rw [envDecay, if_neg notAbove]

/-- Release: the level does not rise and does not pass 0 (R195). -/
theorem envRelease_level {c : EnvCfg} {o : EnvState} (ho : inClosedUnit o.level = true)
    (hr : inClosedUnit c.releaseRate = true) : within (envRelease c o).level n0 o.level = true := by
  obtain ⟨nonneg, -⟩ := within_iff.mp (inClosedUnit_iff.mp ho)
  have target : within (fneg expThreshold) nNeg1 o.level = true :=
    within_mono (lo := nNeg1) (hi := n0) (by decide +kernel) (by decide +kernel) nonneg
  have fall := stepTowards_fall ho target hr
  unfold envRelease
  dsimp only
  split
  case isTrue above => exact within_iff.mpr ⟨fle_of_flt above, (within_iff.mp fall).2⟩
  case isFalse => exact within_iff.mpr ⟨by decide +kernel, nonneg⟩

/-! ## The level of an envelope (R197) -/

theorem inClosedUnit_of_within {x lo hi : Num} (h : within x lo hi = true) (hlo : inClosedUnit lo = true)
    (hhi : inClosedUnit hi = true) : inClosedUnit x = true :=
  within_mono h (within_iff.mp hlo).1 (within_iff.mp hhi).2

/-- Settles O48, phase by phase: `envAttack_level`, `envDecay_level` (below the sustain level, `envDecay_of_below`) and
`envRelease_level`. -/
theorem envelopeLevels : Obligations.EnvelopeLevels := by
  intro law c o gate attack decay release sustain level
  have zero : inClosedUnit n0 = true := by decide +kernel
  have one : inClosedUnit n1 = true := by decide +kernel
  cases gate
  case false =>
    rw [envStepUnder_release]
    have fall := envRelease_level level release
    exact ⟨inClosedUnit_of_within fall zero level, nofun, nofun, fun _ => ⟨(within_iff.mp fall).2, rfl⟩⟩
  case true =>
    cases flag : o.decaying
    case false =>
      rw [envStepUnder_attack law c flag]
      obtain ⟨rise, ends⟩ := envAttack_level law level attack flag
      exact ⟨inClosedUnit_of_within rise level one, fun _ _ => ⟨(within_iff.mp rise).1, ends⟩, nofun, nofun⟩
    case true =>
      rw [envStepUnder_decay law c flag]
      have fall := envDecay_level level sustain decay
      refine ⟨?_, nofun, fun _ _ above => (within_iff.mp (fall above)).symm, nofun⟩
      cases above : fle c.sustain o.level
      case true => exact inClosedUnit_of_within (fall above) sustain level
      case false => exact (envDecay_of_below above).symm ▸ sustain

end Sys2Proof.Machine
end

-- ==== Unit operations: the filters ====
section
/-! PROOFS. CFG.LP1, CFG.SVF, LP1.STEP, HP1.STEP, SVF.STEP and SVF.RETUNE as the rules state them (43_filters.md). -/

namespace Sys2Proof.Machine

variable {Z : Config.Params}

/-! ## What each operation writes -/

theorem exec_cfgLp1 (f : OnePole) (cutoff : Num) (s : State Z) :
    Z.exec (.cfgLp1 f cutoff) s =
      .next (returned { s with cfg := onePoleSet s.cfg f (onePoleAlpha cutoff s.cfg.fs) }
        [onePoleAlpha cutoff s.cfg.fs]) := rfl

theorem exec_cfgSvf (s : State Z) :
    Z.exec .cfgSvf s = .next (returned { s with cfg := cfgSvfOf Z (paramRead s) s.cfg } []) := rfl

theorem exec_lp1Step (c : Chan) (alpha x : Num) (s : State Z) :
    Z.exec (.lp1Step c alpha x) s =
      .next (returned
        { s with dly := chanSet s.dly c { chanGet s.dly c with lp := (lp1Step alpha (chanGet s.dly c).lp x).1 } }
        [(lp1Step alpha (chanGet s.dly c).lp x).2]) := rfl

theorem exec_hp1Step (c : Chan) (alpha x : Num) (s : State Z) :
    Z.exec (.hp1Step c alpha x) s =
      .next (returned
        { s with dly := chanSet s.dly c { chanGet s.dly c with hp := (hp1Step alpha (chanGet s.dly c).hp x).1 } }
        [(hp1Step alpha (chanGet s.dly c).hp x).2]) := rfl

theorem exec_svfStep (v : Fin Z.NV) (c : Chan) (alpha damping x : Num) (s : State Z) :
    Z.exec (.svfStep v c alpha damping x) s =
      .next (returned (setVoice s v (svfVoice s.voices[v] c alpha damping x).1)
        [(svfVoice s.voices[v] c alpha damping x).2]) := rfl

theorem exec_svfRetune (co rs mx : Num) (s : State Z) :
    Z.exec (.svfRetune co rs mx) s =
      .next (returned s [(svfRetune s.cfg co rs mx).alpha, (svfRetune s.cfg co rs mx).damping,
        (svfRetune s.cfg co rs mx).mix]) := rfl

/-! ## CFG.LP1 and CFG.SVF (R210, R213) -/

/-- The three registers of the resonant filter (10_state.md R38). -/
theorem paramRow_svf :
    paramRow Z 0x0600 = some ⟨n0, decimal 160 1, decimal 128 1⟩ ∧ paramRow Z 0x0601 = some ⟨n0, n1, n0⟩ ∧
      paramRow Z 0x0602 = some ⟨n0, n1, n0⟩ := ⟨rfl, rfl, rfl⟩

/-- Settles O31: CFG.LP1 writes `onePoleAlpha` to the field that `onePoleSet` selects, and CFG.SVF reads its registers
by their rows (`paramRow_svf`). -/
theorem cfgFilterResults : Obligations.CfgFilterResults := by
  intro Z cut s
  constructor
  · intro f rc dt a alpha
    have coefficient : onePoleAlpha cut s.cfg.fs = alpha := rfl
    rw [exec_cfgLp1, exec_cfgLp1, coefficient]
    exact ⟨rfl, rfl⟩
  · intro mix
    obtain ⟨cutoffRow, resRow, mixRow⟩ := paramRow_svf (Z := Z)
    rw [exec_cfgSvf, cfgSvfOf, paramNum_of_row _ cutoffRow, paramNum_of_row _ resRow, paramNum_of_row _ mixRow]
    rfl

/-! ## LP1.STEP, HP1.STEP, SVF.STEP and SVF.RETUNE (R211, R212, R214, R215) -/

theorem cutMin_eq_n0 : cutMin = n0 := by decide +kernel

/-- Settles O49: the two one-pole filters share `smooth`, SVF.STEP runs `svfStep` on the channel's state in the voice,
and SVF.RETUNE's lower cutoff bound `CutMin` is +0 (`cutMin_eq_n0`). -/
theorem filterStepResults : Obligations.FilterStepResults := by
  intro Z v c alpha damping x co rs mx s lp hp f low band
  have lowPass : lp1Step alpha (chanGet s.dly c).lp x = (lp, lp) := rfl
  have highPass : hp1Step alpha (chanGet s.dly c).hp x = (hp, fsub x hp) := rfl
  have resonant : svfStep alpha damping (chanGet (s.voices[v]).flt c) x = (⟨low, band⟩, low) := rfl
  refine ⟨?_, ?_, ?_, ?_⟩
  · rw [exec_lp1Step, lowPass, returned]
  · rw [exec_hp1Step, highPass, returned]
  · rw [exec_svfStep, svfVoice, resonant, returned, setVoice]
  · rw [exec_svfRetune, svfRetune, cutMin_eq_n0, cutMax, resMax]
    dsimp only [returned]

end Sys2Proof.Machine
end

-- ==== Unit operations: the modulation engine ====
section
/-! PROOFS. CFG.MODDEST, MOD.ADD, MOD.MULBIAS and MOD.PITCH as the rules state them (44_modulation.md). -/

namespace Sys2Proof.Machine

variable {Z : Config.Params}

/-! ## What each operation writes -/

theorem exec_cfgModdest (s : State Z) :
    Z.exec .cfgModdest s = .next (returned { s with cfg := cfgModdestOf Z (paramRead s) s.cfg } []) := rfl

theorem exec_modAdd (d : Dest) (p : PerSource) (s : State Z) :
    Z.exec (.modAdd d p) s = .next (returned s [modAdd (destGet s.cfg.depth d) p]) := rfl

theorem exec_modMulbias (d : Dest) (p : PerSource) (s : State Z) :
    Z.exec (.modMulbias d p) s = .next (returned s [modMulbias Z (destGet s.cfg.depth d) p]) := rfl

theorem exec_modPitch (d : Dest) (p : PerSource) (s : State Z) :
    Z.exec (.modPitch d p) s = .next (returned s [modPitch (destGet s.cfg.depth d) p]) := rfl

/-! ## CFG.MODDEST (R238) -/

/-- The largest depth of a destination (10_state.md R42). -/
def depthLimit (d : Dest) : Num := if d = .cutoff then decimal 128 1 else n1

theorem fneg_n1 : fneg n1 = nNeg1 := by decide +kernel

theorem fneg_cutoffDepth : fneg (decimal 128 1) = negDecimal 128 1 := by decide +kernel

/-- A depth's range is symmetric about its default 0 (10_state.md R42). -/
theorem depthRow_eq_depthLimit (d : Dest) : depthRow d = ⟨fneg (depthLimit d), depthLimit d, n0⟩ := by
  unfold depthRow depthLimit
  split
  case isTrue => rw [fneg_cutoffDepth]
  case isFalse => rw [fneg_n1]

/-- A depth register is seen sanitized in its destination's range (49_processor.md R354). -/
theorem paramNum_depth (snap : Nat → Num) (d : Dest) {k : Nat} (hk : k < 5) :
    paramNum Z snap ((0x10 + destNumber d) * 256 + k) =
      sanitize (snap ((0x10 + destNumber d) * 256 + k)) (fneg (depthLimit d)) (depthLimit d) n0 := by
  rw [paramNum_of_row snap (paramRow_depth d hk), depthRow_eq_depthLimit]

/-- A destination is inactive when its five depths are zeros of either sign (R238). -/
theorem destActive_eq_not_all_zero (p : PerSource) :
    destActive p = !(feq p.lfo n0 && feq p.env n0 && feq p.wheel n0 && feq p.vel n0 && feq p.press n0) := by
  simp only [destActive, Bool.not_and]

/-- The four registers of the LFO (10_state.md R40). -/
theorem paramRow_lfo :
    paramRow Z 0x0800 = some ⟨n0, decimal 100 1, n2⟩ ∧ paramRow Z 0x0801 = some ⟨nNeg1, n1, n0⟩ ∧
      paramRow Z 0x0802 = some ⟨nNeg1, n1, nNeg1⟩ ∧ paramRow Z 0x0803 = some ⟨n0, n1, n1⟩ := ⟨rfl, rfl, rfl, rfl⟩

/-- Settles O32: the depths of every destination are read as `paramNum_depth` says and its flag follows from them
(`destActive_eq_not_all_zero`); the LFO's registers are read by their rows (`paramRow_lfo`), its waveshaper being the
`waveCfg` that CFG.WAVE would write. -/
theorem cfgModdestResult : Obligations.CfgModdestResult := by
  intro Z s dep act semi
  have depths (d : Dest) : depthOf Z (paramRead s) d = dep (destNumber d) (depthLimit d) := by
    have first := paramNum_depth (Z := Z) (paramRead s) d (k := 0) (by decide)
    rw [Nat.add_zero] at first
    rw [depthOf, first, paramNum_depth _ _ (by decide), paramNum_depth _ _ (by decide), paramNum_depth _ _ (by decide),
      paramNum_depth _ _ (by decide)]
    dsimp only [dep, Nat.add_zero]
  have active (d : Dest) : destActive (depthOf Z (paramRead s) d) = act (dep (destNumber d) (depthLimit d)) := by
    rw [depths, destActive_eq_not_all_zero]
  obtain ⟨speed, shapeX, shapeY, level⟩ := paramRow_lfo (Z := Z)
  rw [exec_cfgModdest, issue_cfgWave, cfgModdestOf, funext active, funext depths, paramNum_of_row _ speed,
    paramNum_of_row _ shapeX, paramNum_of_row _ shapeY, paramNum_of_row _ level]
  rfl

/-! ## MOD.ADD, MOD.MULBIAS and MOD.PITCH (R233 to R235) -/

/-- The bases 1 and the offsets 0 of the reference instance (R231). -/
theorem reference_modBase : Config.params.modBase = ⟨n1, n1, n1, n1, n1⟩ := by rw [n1_bits]; rfl

theorem reference_modOffset : Config.params.modOffset = ⟨n0, n0, n0, n0, n0⟩ := rfl

/-- Settles O50: each law folds its step over the five sources from `lfo` to `press`, starting from the law's neutral
value, and stores nothing but what it returns. -/
theorem modulationLaws : Obligations.ModulationLaws := by
  intro Z d p s q add mul b o m1 m2 m3 m4 pit five
  have sum : modAdd q p = five add n0 := rfl
  have product : modMulbias Z q p = mul m4 b.press o.press p.press q.press := rfl
  have pitch : modPitch q p = five pit n1 := rfl
  refine ⟨?_, ?_, ?_, reference_modBase, reference_modOffset⟩
  · rw [exec_modAdd, sum, returned]
  · rw [exec_modMulbias, product, returned]
  · rw [exec_modPitch, pitch, returned]

end Sys2Proof.Machine
end

-- ==== Unit operations: the tuning calculator ====
section
/-! PROOFS. CFG.TUNE as the rules state it, and the default table (45_tuning.md). -/

namespace Sys2Proof.Machine

variable {Z : Config.Params}

/-! ## What the operation writes -/

theorem exec_cfgTune (ch : Fin Z.NCH) (s : State Z) : Z.exec (.cfgTune ch) s =
    .next (returned { s with table := s.table.set ch (tuneTable Z (paramRead s) ch.val) } []) := rfl

/-! ## Integers as numbers, and rounding to them -/

theorem isFinite_n0 : isFinite n0 = true := rfl

theorem unitsPerOne_pos : (0 : Int) < unitsPerOne := by
  unfold unitsPerOne
  positivity

/-- Rounding leaves a representable magnitude as it is. -/
theorem roundMag_exact {f num den : Nat} (hd : 0 < den) (h : num = magOf f * den) : roundMag 53 num den = f :=
  le_antisymm (roundMag_le hd h.le) (le_roundMag hd h.ge)

/-- A natural number below `2^53` is representable, and finite. -/
theorem exists_magOf_eq {n : Nat} (h : n < 2 ^ 53) : ∃ f < infFields, magOf f = n * unitsPerOne := by
  rcases Nat.eq_zero_or_pos n with rfl | hn
  case inl => exact ⟨0, by decide, by simp [magOf]⟩
  case inr =>
    have low : 2 ^ Nat.log2 n ≤ n := Nat.log2_self_le hn.ne'
    have high : n < 2 ^ (Nat.log2 n + 1) := Nat.lt_log2_self
    have log : Nat.log2 n ≤ 52 := Nat.lt_succ_iff.mp ((Nat.pow_lt_pow_iff_right (by norm_num)).mp (low.trans_lt h))
    obtain ⟨c, hc⟩ := Nat.exists_eq_add_of_le log
    have ge : 2 ^ 52 ≤ n * 2 ^ c := by
      rw [hc, pow_add]
      exact Nat.mul_le_mul_right _ low
    have lt : n * 2 ^ c < 2 ^ 53 := by
      have bound : 2 ^ 53 = 2 ^ (Nat.log2 n + 1) * 2 ^ c := by rw [← pow_add]; congr 1; omega
      rw [bound]
      exact Nat.mul_lt_mul_of_pos_right high (by positivity)
    refine ⟨(1074 - c) * 2 ^ 52 + n * 2 ^ c, by unfold infFields; omega, ?_⟩
    rw [magOf_shift lt.le (.inr ge), mul_assoc, ← pow_add, unitsPerOne]
    congr 2
    omega

/-- What a small integer is as a number: the exact value, with its own sign. -/
theorem ofInt_exact {i : Int} (h : i.natAbs < 2 ^ 53) : isFinite (ofInt i) = true ∧
    signBit (ofInt i) = decide (i < 0) ∧ magUnits (ofInt i) = i.natAbs * unitsPerOne := by
  obtain ⟨f, finite, hf⟩ := exists_magOf_eq h
  have packed : ofInt i = packNum (decide (i < 0)) f := by
    rw [ofInt, roundNum, roundMag_exact one_pos (by rw [hf, mul_one])]
  rw [packed, isFinite_packNum, signBit_packNum, magUnits_eq, fieldsOf_packNum, Nat.min_eq_left finite.le, hf]
  exact ⟨decide_eq_true finite, rfl, rfl⟩

theorem units_ofInt {i : Int} (h : i.natAbs < 2 ^ 53) : units (ofInt i) = i * (unitsPerOne : Int) := by
  obtain ⟨-, sign, mag⟩ := ofInt_exact h
  rw [units, sign, mag]
  generalize unitsPerOne = u
  simp only [decide_eq_true_eq]
  split_ifs with neg
  · rw [Nat.cast_mul, Int.ofNat_natAbs_of_nonpos neg.le, neg_mul, neg_neg]
  · rw [Nat.cast_mul, Int.natAbs_of_nonneg (not_lt.mp neg)]

theorem ofInt_zero : ofInt 0 = n0 := by
  rw [ofInt, roundNum, roundMag_exact (f := 0) one_pos (by simp [magOf])]
  rfl

theorem decimal_eq_ofInt (n : Nat) : decimal n 1 = ofInt n := by
  simp [decimal, ofInt, (Int.natCast_nonneg n).not_gt]

/-- The order of small integers is the order of their numbers. -/
theorem fle_ofInt {i j : Int} (hi : i.natAbs < 2 ^ 53) (hj : j.natAbs < 2 ^ 53) (h : i ≤ j) :
    fle (ofInt i) (ofInt j) = true := by
  obtain ⟨fi, -⟩ := ofInt_exact hi
  obtain ⟨fj, -⟩ := ofInt_exact hj
  refine fle_iff.mpr ⟨isNaN_of_isFinite fi, isNaN_of_isFinite fj, ?_⟩
  rw [units_ofInt hi, units_ofInt hj]
  exact mul_le_mul_of_nonneg_right h unitsPerOne_pos.le

/-- The sum of small integers is their sum, rounded once. -/
theorem fadd_ofInt {i j : Int} (hi : i.natAbs < 2 ^ 53) (hj : j.natAbs < 2 ^ 53) :
    fadd (ofInt i) (ofInt j) = ofInt (i + j) := by
  obtain ⟨fi, si, -⟩ := ofInt_exact hi
  obtain ⟨fj, sj, -⟩ := ofInt_exact hj
  unfold fadd
  simp only [isNaN_of_isFinite fi, isNaN_of_isFinite fj, isInf_of_isFinite fi, isInf_of_isFinite fj, Bool.or_self,
    Bool.false_eq_true, if_false, si, sj, units_ofInt hi, units_ofInt hj, ← add_mul, mul_eq_zero,
    unitsPerOne_pos.ne', or_false]
  split_ifs with zero
  · have signs : (decide (i < 0) && decide (j < 0)) = false := by
      simp only [Bool.and_eq_false_iff, decide_eq_false_iff_not]
      omega
    rw [signs, zero, ofInt_zero]
    rfl
  · have sign : (i + j) * (unitsPerOne : Int) < 0 ↔ i + j < 0 := by
      simpa only [zero_mul] using mul_lt_mul_iff_of_pos_right (b := i + j) (c := 0) unitsPerOne_pos
    simp only [ofInt, sign, Int.natAbs_mul, Int.natAbs_natCast]

/-- The product of a positive and another integer is exact where it is small. -/
theorem fmul_ofInt {i j : Int} (pos : 0 < i) (hi : i.natAbs < 2 ^ 53) (hj : j.natAbs < 2 ^ 53)
    (hij : (i * j).natAbs < 2 ^ 53) : fmul (ofInt i) (ofInt j) = ofInt (i * j) := by
  obtain ⟨fi, si, mi⟩ := ofInt_exact hi
  obtain ⟨fj, sj, mj⟩ := ofInt_exact hj
  obtain ⟨f, -, hf⟩ := exists_magOf_eq hij
  have sign : i * j < 0 ↔ j < 0 := by
    simpa only [mul_zero] using mul_lt_mul_iff_of_pos_left (b := j) (c := 0) pos
  have product : roundMag 53 (i.natAbs * unitsPerOne * (j.natAbs * unitsPerOne)) unitsPerOne = f :=
    roundMag_exact (by exact_mod_cast unitsPerOne_pos) (by rw [hf, Int.natAbs_mul]; ring)
  have integer : roundMag 53 ((i * j).natAbs * unitsPerOne) 1 = f := roundMag_exact one_pos (by rw [hf, mul_one])
  unfold fmul
  simp only [isNaN_of_isFinite fi, isNaN_of_isFinite fj, isInf_of_isFinite fi, isInf_of_isFinite fj, Bool.or_self,
    Bool.false_eq_true, if_false, si, sj, mi, mj, pos.not_gt, decide_false, Bool.false_bne]
  rw [ofInt, roundNum, roundNum, product, integer, decide_eq_decide.mpr sign]

/-- A number between two small integers rounds to no integer below the first, and to the second's successor at most. -/
theorem roundInt_between {x : Num} {m n : Int} (h : within x (ofInt m) (ofInt n) = true) (hm : m.natAbs < 2 ^ 53)
    (hn : n.natAbs + 1 < 2 ^ 53) : m ≤ roundInt x ∧ roundInt x ≤ n + 1 := by
  have half : isFinite nHalf = true ∧ 0 ≤ units nHalf ∧ units nHalf ≤ unitsPerOne := by decide +kernel
  obtain ⟨hf, h0, h1⟩ := half
  have hn' : (n + 1).natAbs < 2 ^ 53 := by omega
  obtain ⟨fm, -⟩ := ofInt_exact hm
  obtain ⟨fn, -⟩ := ofInt_exact (i := n) (by omega)
  obtain ⟨fn', -⟩ := ofInt_exact hn'
  obtain ⟨low, high⟩ := units_of_within h
  rw [units_ofInt hm] at low
  rw [units_ofInt (by omega)] at high
  obtain ⟨low', high'⟩ := units_of_within (within_iff.mpr (fadd_between (isFinite_of_within h fm fn) hf
    (isNaN_of_isFinite fm) (isNaN_of_isFinite fn') (by rw [units_ofInt hm]; linarith)
    (by rw [units_ofInt hn']; linarith)))
  rw [units_ofInt hm] at low'
  rw [units_ofInt hn'] at high'
  exact floorInt_between low' (by linarith [unitsPerOne_pos])

/-- A number in an interval is not clamped (00_scope.md R15). -/
theorem clamp_of_within {x lo hi : Num} (h : within x lo hi = true) : clamp x lo hi = x := by
  obtain ⟨low, high⟩ := units_of_within h
  have notBelow : ¬ flt x lo = true := fun below => (flt_iff.mp below).2.2.not_ge low
  have notAbove : ¬ flt hi x = true := fun above => (flt_iff.mp above).2.2.not_ge high
  rw [clamp, if_neg notBelow, if_neg notAbove]

/-! ## The fifteen registers of a channel (10_state.md R43) -/

theorem fneg_tuneBound : fneg (decimal 1000000000 1) = negDecimal 1000000000 1 := by decide +kernel

/-- The rows of R43 are a channel's, wherever the channel lies. -/
theorem paramRow_tune (ch : Fin Z.NCH) {k : Nat} {r : ParamRow} (hr : tuneRows[k]? = some r) :
    paramRow Z (0x2000 + 256 * ch.val + k) = some r := by
  obtain ⟨hk : k < 15, -⟩ := List.getElem?_eq_some_iff.mp hr
  have group : (0x2000 + 256 * ch.val + k) / 256 = 0x20 + ch.val := by omega
  have index : (0x2000 + 256 * ch.val + k) % 256 = k := by omega
  have rows : groupRows Z (0x20 + ch.val) = tuneRows := by
    have := ch.isLt
    simp only [groupRows]
    iterate 9 rw [if_neg (by omega)]
    rw [if_pos (by omega)]
  rw [paramRow, group, index, rows, hr]

theorem paramNum_tune (snap : Nat → Num) (ch : Fin Z.NCH) {k : Nat} {r : ParamRow} (hr : tuneRows[k]? = some r) :
    paramNum Z snap (0x2000 + 256 * ch.val + k) = sanitize (snap (0x2000 + 256 * ch.val + k)) r.lo r.hi r.dflt :=
  paramNum_of_row snap (paramRow_tune ch hr)

/-- Every default lies in its register's range (10_state.md R43). -/
theorem within_of_mem_tuneRows : ∀ r ∈ tuneRows, within r.dflt r.lo r.hi = true := by decide +kernel

theorem paramNum_tune_within (snap : Nat → Num) (ch : Fin Z.NCH) {k : Nat} {r : ParamRow} (hr : tuneRows[k]? = some r) :
    within (paramNum Z snap (0x2000 + 256 * ch.val + k)) r.lo r.hi = true :=
  paramNum_within snap (paramRow_tune ch hr) (within_of_mem_tuneRows r (List.mem_of_getElem? hr))

theorem paramInt_keyPeriod (snap : Nat → Num) (ch : Fin Z.NCH) : 1 ≤ paramInt Z snap (0x2000 + 256 * ch.val + 12) := by
  have range := paramNum_tune_within snap ch (k := 12) rfl
  rw [n1, decimal_eq_ofInt, decimal_eq_ofInt] at range
  exact (roundInt_between range (by decide) (by decide)).1

/-- The root is a small integer. -/
theorem paramInt_root (snap : Nat → Num) (ch : Fin Z.NCH) :
    0 ≤ paramInt Z snap (0x2000 + 256 * ch.val + 14) ∧ paramInt Z snap (0x2000 + 256 * ch.val + 14) ≤ 128 := by
  have range := paramNum_tune_within snap ch (k := 14) rfl
  rw [← ofInt_zero, decimal_eq_ofInt] at range
  exact roundInt_between range (by decide) (by decide)

/-- The interval whose four registers begin at `a` (R250). -/
def intervalAt (Z : Config.Params) (snap : Nat → Num) (a : Nat) : Num :=
  tuneValue (paramNum Z snap a) (paramNum Z snap (a + 1)) (paramNum Z snap (a + 2)) (paramNum Z snap (a + 3))

theorem intervalAt_add {snap : Nat → Num} {g k : Nat} {n d pn pd : Num} (hn : paramNum Z snap (g + k) = n)
    (hd : paramNum Z snap (g + (k + 1)) = d) (hpn : paramNum Z snap (g + (k + 2)) = pn)
    (hpd : paramNum Z snap (g + (k + 3)) = pd) : intervalAt Z snap (g + k) = tuneValue n d pn pd := by
  rw [← hn, ← hd, ← hpn, ← hpd]
  rfl

/-- A table entry from its channel's registers (R254). -/
theorem tuneTable_getElem (snap : Nat → Num) (ch : Nat) (key : Fin Config.KEYS) :
    let g := 0x2000 + 256 * ch
    (tuneTable Z snap ch)[key] = keyPitch (intervalAt Z snap (g + 4))
      (sortNums (periodPitches (intervalAt Z snap g) (intervalAt Z snap (g + 4)) (intervalAt Z snap (g + 8))
        (paramInt Z snap (g + 12)).toNat (paramInt Z snap (g + 13)) (paramInt Z snap (g + 14))))
      (paramInt Z snap (g + 12)).toNat (paramInt Z snap (g + 14)) key := by
  intro g
  have group : (0x20 + ch) * 256 = g := by omega
  simp only [tuneTable, group, Fin.getElem_fin, Vector.getElem_ofFn]
  rfl

/-! ## One period's pitches (R250, R251) -/

theorem tuneValue_eq (n d pn pd : Num) : tuneValue n d pn pd =
    if flt n0 n && flt n0 d && !feq pd n0 then
      let v := fdiv (fmul (fmul (log2Num (fdiv n d)) (decimal 12 1)) pn) pd
      if isFinite v then v else n0
    else n0 := by
  unfold tuneValue
  cases flt n0 n && flt n0 d && !feq pd n0 <;> rfl

theorem isFinite_tuneValue (n d pn pd : Num) : isFinite (tuneValue n d pn pd) = true := by
  unfold tuneValue
  dsimp only
  split_ifs with invalid finite
  · exact isFinite_n0
  · exact finite
  · exact isFinite_n0

theorem wrapTarget_eq (gen per : Num) (i off : Int) :
    let t := fmul gen (ofInt (i - off))
    let t' := fsub t (fmul per (ffloor (fdiv t per)))
    wrapTarget gen per i off = if flt n0 per && fle n0 t' && flt t' per then t' else n0 := by
  intro t t'
  unfold wrapTarget
  cases flt n0 per <;> rfl

/-- A wrapped target lies between 0 and a finite period, or is 0. -/
theorem isFinite_wrapTarget {per : Num} (gen : Num) (i off : Int) (hper : isFinite per = true) :
    isFinite (wrapTarget gen per i off) = true := by
  rw [wrapTarget_eq]
  split_ifs with inPeriod
  · simp only [Bool.and_eq_true] at inPeriod
    obtain ⟨⟨-, low⟩, high⟩ := inPeriod
    exact isFinite_of_between low (fle_of_flt high) isFinite_n0 hper
  · exact isFinite_n0

/-- No pitch of a period is a NaN where the period and the ratio are finite and the root is small. -/
theorem isNaN_of_mem_periodPitches {gen per ratio x : Num} {kp : Nat} {off root : Int} (hper : isFinite per = true)
    (hratio : isFinite ratio = true) (hroot : root.natAbs < 2 ^ 53)
    (hx : x ∈ periodPitches gen per ratio kp off root) : isNaN x = false := by
  obtain ⟨i, -, rfl⟩ := List.mem_map.mp hx
  obtain ⟨froot, -⟩ := ofInt_exact hroot
  exact isNaN_fadd (isFinite_wrapTarget gen i off hper) (isNaN_fadd froot (isNaN_of_isFinite hratio))

/-! ## The sort (R252) -/

theorem insertSorted_eq (x : Num) (l : List Num) : insertSorted x l = l.orderedInsert (fle · · = true) x := by
  induction l with
  | nil => rfl
  | cons y ys ih => rw [insertSorted, List.orderedInsert, ih]

theorem sortNums_eq (l : List Num) : sortNums l = l.insertionSort (fle · · = true) := by
  induction l with
  | nil => rfl
  | cons x xs ih => rw [sortNums, List.insertionSort_cons, insertSorted_eq, ih]

theorem sortNums_perm (l : List Num) : (sortNums l).Perm l := by
  rw [sortNums_eq]
  exact List.perm_insertionSort _ l

/-- On numbers that are not NaN `fle` is the order of their values, so the sort leaves them in order. -/
theorem sortNums_pairwise {l : List Num} (h : ∀ x ∈ l, isNaN x = false) :
    (sortNums l).Pairwise fun x y => fle x y = true := by
  have le_iff : ∀ x ∈ l, ∀ y ∈ l, fle x y = true ↔ (units ⁻¹'o (· ≤ ·)) (id x) (id y) := fun x hx y hy => by
    simp [fle_iff, h x hx, h y hy, Order.Preimage]
  have byValue := List.map_insertionSort (fle · · = true) (units ⁻¹'o (· ≤ ·)) id l le_iff
  rw [List.map_id, List.map_id, ← sortNums_eq] at byValue
  have sorted : (sortNums l).Pairwise (units ⁻¹'o (· ≤ ·)) := byValue ▸ List.pairwise_insertionSort _ l
  refine sorted.imp_of_mem fun {x y} hx hy le => ?_
  rw [(sortNums_perm l).mem_iff] at hx hy
  exact (le_iff x hx y hy).mpr le

/-! ## The key map (R253, R254) -/

/-- A key whose sum is a number has that sum, clamped (R253). -/
theorem keyPitch_eq_clamp {per : Num} {sorted : List Num} {kp root : Int} {key : Nat} (hkp : 1 ≤ kp) :
    let sum := fadd (fmul per (ofInt (Int.fdiv ((key : Int) - root) kp)))
      (sorted.getD (Int.fmod ((key : Int) - root) kp).toNat n0)
    isNaN sum = false → keyPitch per sorted kp.toNat root key = clamp sum n0 (decimal 128 1) := by
  intro sum number
  have toNat : (kp.toNat : Int) = kp := Int.toNat_of_nonneg (by omega)
  rw [keyPitch, toNat, ← Int.fdiv_eq_ediv_of_nonneg _ (by omega), ← Int.fmod_eq_emod_of_nonneg _ (by omega), boundPitch,
    if_neg (Bool.eq_false_iff.mp number), pitchMax]

/-- Settles O34: the registers are read by their rows (`paramNum_tune`), so the intervals, the integers and the pitches
are the statement's; the sort orders the pitches since none is a NaN (`sortNums_pairwise`); and with a period of at
least one key (`paramInt_keyPeriod`) the two integer divisions are the model's. -/
theorem cfgTuneResult : Obligations.CfgTuneResult := by
  intro Z ch s g big v interval gen per ratio int kp off root target
  have reg {k : Nat} {d : Num} (row : tuneRows[k]? = some (tuneRow d)) : paramNum Z (paramRead s) (g + k) = v d k := by
    rw [paramNum_tune _ _ row]
    dsimp only [tuneRow, v, big]
    rw [fneg_tuneBound]
  have integer {k : Nat} {lo hi d : Num} (row : tuneRows[k]? = some ⟨lo, hi, d⟩) :
      paramInt Z (paramRead s) (g + k) = int lo hi d k := by
    rw [paramInt, roundInt, paramNum_tune _ _ row]
  have hgen : intervalAt Z (paramRead s) g = gen :=
    (intervalAt_add (k := 0) (reg rfl) (reg rfl) (reg rfl) (reg rfl)).trans (tuneValue_eq _ _ _ _)
  have hper : intervalAt Z (paramRead s) (g + 4) = per :=
    (intervalAt_add (reg rfl) (reg rfl) (reg rfl) (reg rfl)).trans (tuneValue_eq _ _ _ _)
  have hratio : intervalAt Z (paramRead s) (g + 8) = ratio :=
    (intervalAt_add (reg rfl) (reg rfl) (reg rfl) (reg rfl)).trans (tuneValue_eq _ _ _ _)
  have hkp : paramInt Z (paramRead s) (g + 12) = kp := integer rfl
  have hoff : paramInt Z (paramRead s) (g + 13) = off := integer rfl
  have hroot : paramInt Z (paramRead s) (g + 14) = root := integer rfl
  have kp_pos : 1 ≤ kp := hkp ▸ paramInt_keyPeriod (paramRead s) ch
  have root_range : 0 ≤ root ∧ root ≤ 128 := hroot ▸ paramInt_root (paramRead s) ch
  have entry (key : Fin Config.KEYS) : (tuneTable Z (paramRead s) ch.val)[key] =
      keyPitch per (sortNums (periodPitches gen per ratio kp.toNat off root)) kp.toNat root key := by
    rw [← hgen, ← hper, ← hratio, ← hkp, ← hoff, ← hroot]
    exact tuneTable_getElem _ _ key
  have pitches : periodPitches gen per ratio kp.toNat off root = (List.range kp.toNat).map fun i : Nat => target i := by
    simp only [periodPitches, wrapTarget_eq]
    rfl
  have noNaN : ∀ x ∈ periodPitches gen per ratio kp.toNat off root, isNaN x = false := fun x hx =>
    isNaN_of_mem_periodPitches (hper ▸ isFinite_tuneValue _ _ _ _) (hratio ▸ isFinite_tuneValue _ _ _ _)
      (by omega) hx
  refine ⟨_, sortNums (periodPitches gen per ratio kp.toNat off root), exec_cfgTune ch s, rfl, rfl,
    pitches ▸ sortNums_perm _, sortNums_pairwise noNaN, fun key => ?_, fun c hc => ?_⟩
  · have same : (s.table.set ch (tuneTable Z (paramRead s) ch.val))[ch] = tuneTable Z (paramRead s) ch.val := by simp
    intro sum
    dsimp only [returned]
    rw [same]
    exact ⟨fun number => (entry key).trans (keyPitch_eq_clamp kp_pos number), tuneTable_within _ _ key⟩
  · have other : ch.val ≠ c.val := fun h => hc (Fin.ext h.symm)
    simp [returned, other]

/-! ## The default table (R256) -/

/-- The pitches of one default period: the twelve keys from the root 69 on. -/
def defaultPitches : List Num := (List.range 12).map fun i : Nat => ofInt (69 + i)

/-- R251's twelve pitches under the defaults come out exact and in order, so the sort leaves them. -/
theorem sortNums_default :
    sortNums (periodPitches n1 (decimal 12 1) n0 12 0 69) = defaultPitches := by
  have pitches : periodPitches n1 (decimal 12 1) n0 12 0 69 = defaultPitches := by decide +kernel
  have ordered : defaultPitches.Pairwise (fle · · = true) := by decide +kernel
  rw [pitches, sortNums_eq, ordered.insertionSort_eq]

/-- A pitch that is a key's number is bounded by nothing (R253). -/
theorem boundPitch_ofInt {base step : Num} {i : Int} (h : fadd base step = ofInt i) (h0 : 0 ≤ i) (h1 : i ≤ 128) :
    boundPitch base step = ofInt i := by
  obtain ⟨finite, -⟩ := ofInt_exact (i := i) (by omega)
  have inRange : within (ofInt i) n0 (decimal 128 1) = true := by
    rw [← ofInt_zero, decimal_eq_ofInt]
    exact within_iff.mpr ⟨fle_ofInt (by decide) (by omega) h0, fle_ofInt (by omega) (by decide) h1⟩
  rw [boundPitch, h, if_neg (Bool.eq_false_iff.mp (isNaN_of_isFinite finite)), pitchMax, clamp_of_within inRange]

/-- `12 * q + (69 + r)` is the key whose quotient and remainder they are. -/
theorem keyPitch_default {key : Nat} (h : key < 128) :
    keyPitch (decimal 12 1) defaultPitches 12 69 key = ofInt key := by
  have r0 : 0 ≤ ((key : Int) - 69) % 12 := Int.emod_nonneg _ (by decide)
  have r1 : ((key : Int) - 69) % 12 < 12 := Int.emod_lt_of_pos _ (by decide)
  have whole := Int.mul_ediv_add_emod ((key : Int) - 69) 12
  have pitch : defaultPitches.getD (((key : Int) - 69) % 12).toNat n0 = ofInt (69 + ((key : Int) - 69) % 12) := by
    rw [defaultPitches, List.getD_eq_getElem _ _ (by rw [List.length_map, List.length_range]; omega),
      List.getElem_map, List.getElem_range, Int.toNat_of_nonneg r0]
  have period : decimal 12 1 = ofInt 12 := decimal_eq_ofInt 12
  refine boundPitch_ofInt ?_ (by omega) (by omega)
  rw [Nat.cast_ofNat, pitch, period, fmul_ofInt (by omega) (by omega) (by omega) (by omega),
    fadd_ofInt (by omega) (by omega)]
  congr 1
  omega

/-- A tuning register that holds its default is read as it (10_state.md R43). -/
theorem paramNum_tune_default {snap : Nat → Num} {ch : Fin Z.NCH} {k : Nat} {r : ParamRow}
    (h : snap (0x2000 + 256 * ch.val + k) = paramDefault Z (0x2000 + 256 * ch.val + k)) (hr : tuneRows[k]? = some r) :
    paramNum Z snap (0x2000 + 256 * ch.val + k) = r.dflt := by
  have row := paramRow_tune ch hr
  have inRange := within_of_mem_tuneRows r (List.mem_of_getElem? hr)
  have number : ¬ isNaN r.dflt = true := Bool.eq_false_iff.mp (fle_iff.mp (within_iff.mp inRange).2).1
  rw [paramNum_of_row snap row, h, paramDefault, row]
  dsimp only
  rw [sanitize, if_neg number, clamp_of_within inRange]

/-- Settles O35: the default registers give the intervals 1, 12 and 0 (R147 d) and the integers 12, 0 and 69, so one
period is `defaultPitches`, and every key's pitch is exact (`keyPitch_default`). -/
theorem defaultTuningIsIdentity : Obligations.DefaultTuningIsIdentity := by
  intro Z ch s defaults
  refine ⟨_, exec_cfgTune ch s, fun key => ?_⟩
  let g := 0x2000 + 256 * ch.val
  have reg {k : Nat} {r : ParamRow} (hr : tuneRows[k]? = some r) : paramNum Z (paramRead s) (g + k) = r.dflt :=
    paramNum_tune_default (defaults k (List.getElem?_eq_some_iff.mp hr).1) hr
  have integer {k : Nat} {r : ParamRow} (hr : tuneRows[k]? = some r) :
      paramInt Z (paramRead s) (g + k) = roundInt r.dflt := by
    rw [paramInt, reg hr]
  have gen : intervalAt Z (paramRead s) g = n1 :=
    (intervalAt_add (k := 0) (reg rfl) (reg rfl) (reg rfl) (reg rfl)).trans (by decide +kernel)
  have per : intervalAt Z (paramRead s) (g + 4) = decimal 12 1 :=
    (intervalAt_add (reg rfl) (reg rfl) (reg rfl) (reg rfl)).trans (by decide +kernel)
  have ratio : intervalAt Z (paramRead s) (g + 8) = n0 :=
    (intervalAt_add (reg rfl) (reg rfl) (reg rfl) (reg rfl)).trans (by decide +kernel)
  have kp : paramInt Z (paramRead s) (g + 12) = (12 : Nat) := (integer rfl).trans (by decide +kernel)
  have off : paramInt Z (paramRead s) (g + 13) = 0 := (integer rfl).trans (by decide +kernel)
  have root : paramInt Z (paramRead s) (g + 14) = 69 := (integer rfl).trans (by decide +kernel)
  have same : (s.table.set ch (tuneTable Z (paramRead s) ch.val))[ch] = tuneTable Z (paramRead s) ch.val := by simp
  dsimp only [returned]
  rw [same, tuneTable_getElem, gen, per, ratio, kp, off, root, Int.toNat_natCast, sortNums_default]
  exact keyPitch_default key.isLt

end Sys2Proof.Machine
end

-- ==== Scheduler: storing a reservation ====
section
/-! PROOFS. Where a reservation goes, and what RESERVE and RESERVEP do (46_scheduler.md R270 to R272, R278). -/

namespace Sys2Proof.Machine

variable {Z : Config.Params}

/-! ## Scans for the largest, the first among equals

R272 and R275 scan with a strict comparison, as Mathlib's `List.argmax` does. -/

/-- What a scan in ascending order finds is the largest, and larger than all before it. -/
theorem argmax_first {ι β : Type*} [LinearOrder ι] [LinearOrder β] {f : ι → β} {l : List ι} {m : ι}
    (sorted : l.Pairwise (· < ·)) (h : m ∈ l.argmax f) :
    m ∈ l ∧ (∀ k ∈ l, f k ≤ f m) ∧ ∀ k ∈ l, k < m → f k < f m := by
  obtain ⟨mem, largest, first⟩ := List.mem_argmax_iff.mp h
  refine ⟨mem, largest, fun k hk before => not_le.mp fun le => ?_⟩
  have rises := (sorted.imp le_of_lt).rel_get_of_le (a := ⟨_, List.idxOf_lt_length_iff.mpr mem⟩)
    (b := ⟨_, List.idxOf_lt_length_iff.mpr hk⟩) (first k hk le)
  simp only [List.get_eq_getElem, List.getElem_idxOf] at rises
  exact absurd before (not_lt.mpr rises)

/-- A scan that starts at the first element of its list. -/
theorem argmax_eq_foldl {ι β : Type*} [LinearOrder β] (f : ι → β) {l : List ι} {i : ι} (h : l.head? = some i) :
    l.argmax f = some (l.foldl (fun p k => if f p < f k then k else p) i) := by
  cases l with
  | nil => simp at h
  | cons j l =>
    obtain rfl : j = i := by simpa using h
    rw [List.foldl_cons, if_neg (lt_irrefl _)]
    exact List.foldl_hom some fun p k => by simp only [List.argAux]; split <;> rfl

/-! ## The slot of a new entry (R272) -/

/-- R272 gives slot `j` to a new entry: the first free one; in a full ring the first with the largest offset. -/
def TakesSlot {n : Nat} (offset : Fin n → Int) (j : Fin n) : Prop :=
  ((∃ k, offset k < 0) → offset j < 0 ∧ ∀ k, k < j → 0 ≤ offset k) ∧
    ((∀ k, 0 ≤ offset k) → (∀ k, offset k ≤ offset j) ∧ ∀ k, k < j → offset k < offset j)

theorem largestSlot_eq_foldl (f : Nat → Int) (n j best : Nat) :
    largestSlot ((List.range' j n).map f) j best (f best) =
      (List.range' j n).foldl (fun p k => if f p < f k then k else p) best := by
  induction n generalizing j best with
  | zero => rfl
  | succ n ih =>
    rw [List.range'_succ, List.map_cons, List.foldl_cons, largestSlot]
    split
    · exact ih _ _
    · exact ih _ _

/-- In a full ring the scan goes over every slot. -/
theorem largestSlot_ofFn {n : Nat} (offset : Fin (n + 1) → Int) :
    ∃ j : Fin (n + 1), j.val = largestSlot (List.ofFn offset).tail 1 0 ((List.ofFn offset).headD 0) ∧
      (∀ k, offset k ≤ offset j) ∧ ∀ k, k < j → offset k < offset j := by
  let f (k : Nat) : Int := if h : k < n + 1 then offset ⟨k, h⟩ else 0
  have atSlot (k : Fin (n + 1)) : f k.val = offset k := dif_pos k.isLt
  have offsets : List.ofFn offset = (List.range' 0 (n + 1)).map f := by
    refine List.ext_getElem (by simp) fun i h _ => ?_
    simp only [List.getElem_ofFn, List.getElem_map, List.getElem_range', zero_add, one_mul]
    exact (atSlot ⟨i, by simpa using h⟩).symm
  have scan := argmax_eq_foldl f (l := List.range' 0 (n + 1)) (i := 0) rfl
  have slot : largestSlot (List.ofFn offset).tail 1 0 ((List.ofFn offset).headD 0) =
      (List.range' 0 (n + 1)).foldl (fun p k => if f p < f k then k else p) 0 := by
    rw [offsets, List.range'_succ, List.foldl_cons, if_neg (lt_irrefl _)]
    exact largestSlot_eq_foldl f n 1 0
  obtain ⟨inRange, largest, first⟩ := argmax_first List.pairwise_lt_range' scan
  have below {k : Nat} (h : k < n + 1) : k ∈ List.range' 0 (n + 1) := by simpa using h
  rw [← slot] at inRange largest first
  refine ⟨⟨_, by simpa using inRange⟩, rfl, fun k => ?_, fun k before => ?_⟩
  · rw [← atSlot, ← atSlot]
    exact largest _ (below k.isLt)
  · rw [← atSlot, ← atSlot]
    exact first _ (below k.isLt) before

/-- The slot `Store` picks is R272's. -/
theorem storeSlot_takesSlot {n : Nat} (offset : Fin (n + 1) → Int) :
    ∃ j : Fin (n + 1), j.val = storeSlot (List.ofFn offset) ∧ TakesSlot offset j := by
  unfold storeSlot
  split
  case h_1 j found =>
    obtain ⟨lt, free, first⟩ := List.findIdx?_eq_some_iff_getElem.mp found
    simp only [List.getElem_ofFn, slotFree, decide_eq_true_eq, not_lt] at free first
    exact ⟨⟨j, by simpa using lt⟩, rfl, fun _ => ⟨free, fun k before => first k before⟩,
      fun full => absurd (full _) (not_le.mpr free)⟩
  case h_2 none =>
    have full (k : Fin (n + 1)) : 0 ≤ offset k := by
      simpa [slotFree] using List.findIdx?_eq_none_iff.mp none (offset k) (List.mem_ofFn.mpr ⟨k, rfl⟩)
    obtain ⟨j, slot, largest⟩ := largestSlot_ofFn offset
    exact ⟨j, slot, fun ⟨k, free⟩ => absurd (full k) (not_le.mpr free), fun _ => largest⟩

/-- `Store` on a ring of any entries: one slot is replaced, R272's. -/
theorem store_takesSlot {α : Type} {n : Nat} (hn : 0 < n) (ring : Vector α n) (offset : α → Int) (e : α) :
    ∃ j : Fin n, j.val = storeSlot (ring.toList.map offset) ∧
      ring.setIfInBounds (storeSlot (ring.toList.map offset)) e = ring.set j e ∧
      TakesSlot (fun k => offset ring[k]) j := by
  obtain ⟨n, rfl⟩ := Nat.exists_eq_succ_of_ne_zero hn.ne'
  have offsets : ring.toList.map offset = List.ofFn fun k : Fin (n + 1) => offset ring[k] :=
    List.ext_getElem (by simp) fun i _ _ => by
      simp only [List.getElem_map, Vector.getElem_toList, List.getElem_ofFn, Fin.getElem_fin]
  obtain ⟨j, slot, takes⟩ := storeSlot_takesSlot fun k : Fin (n + 1) => offset ring[k]
  refine ⟨j, slot.trans (by rw [offsets]), ?_, takes⟩
  rw [offsets, ← slot]
  ext i hi
  simp [Vector.getElem_setIfInBounds, Vector.getElem_set]

/-- Settles O38: both rings are written by `Store` (`store_takesSlot`). -/
theorem storeTakesTheSlot : Obligations.StoreTakesTheSlot := by
  intro Z
  constructor
  · intro ring e
    obtain ⟨j, -, stored, takes⟩ := store_takesSlot Z.rn_pos ring NoteRes.offset e
    exact ⟨j, stored, takes⟩
  · intro ring e
    obtain ⟨j, -, stored, takes⟩ := store_takesSlot Z.rp_pos ring PressRes.offset e
    exact ⟨j, stored, takes⟩

/-! ## RESERVE and RESERVEP on a Ready core (R270, R271, R278) -/

/-- `Apply(ev)` is APPLY.NOTEON or APPLY.NOTEOFF issued on its own, but for the latch of what it returned (R278). -/
theorem issue_applyInstr (ev : MidiNote Z) (s : State Z) :
    issue (applyInstr ev) s = returned (applyNote ev s) [] := by
  unfold applyInstr applyNote isNoteOn
  split <;> rfl

theorem noteOperand_of_good {ch : BitVec 8} {pitch val : Num} (hc : ch.toNat < Z.NCH) (hp : isFinite pitch = true)
    (hv : isFinite val = true) (velocity : Num) (id : Word) :
    noteOperand ch pitch val velocity id = some (⟨⟨ch.toNat, hc⟩, pitch, velocity, id⟩ : MidiNote Z) := by
  simp [noteOperand, hc, hp, hv]

theorem ready_of {s : State Z} (ha : s.status.active = true) (hc : s.status.cfgValid = true) : ready s = true := by
  simp [ready, ha, hc]

theorem exec_reserve_of_good {ch : BitVec 8} {pitch vel : Num} {s : State Z} (hc : ch.toNat < Z.NCH)
    (hr : ready s = true) (hp : isFinite pitch = true) (hv : isFinite vel = true) (id off : Word) :
    Z.exec (.reserve ch pitch vel id off) s =
      if off.toInt ≤ 0 then .next (applyNote ⟨⟨ch.toNat, hc⟩, pitch, vel, id⟩ s)
      else .next { s with nres := storeNote s.nres ⟨⟨⟨ch.toNat, hc⟩, pitch, vel, id⟩, off.toInt⟩ } := by
  rw [Config.Params.exec, execReserve, if_pos hr, noteOperand_of_good hc hp hv]
  rfl

theorem exec_reservep_of_good {ch : BitVec 8} {pitch p : Num} {s : State Z} (hc : ch.toNat < Z.NCH)
    (hr : ready s = true) (hp : isFinite pitch = true) (hv : isFinite p = true) (id off : Word) :
    Z.exec (.reservep ch pitch p id off) s =
      if off.toInt ≤ 0 then .next (applyPressure ⟨⟨ch.toNat, hc⟩, pitch, n0, id⟩ p s)
      else .next { s with pres := storePress s.pres ⟨⟨⟨ch.toNat, hc⟩, pitch, n0, id⟩, p, off.toInt⟩ } := by
  rw [Config.Params.exec, execReservep, if_pos hr, noteOperand_of_good hc hp hv]
  rfl

/-- Settles O36: the sign of the offset chooses, and `Store` takes R272's slot (`store_takesSlot`). -/
theorem reserveAppliesOrStores : Obligations.ReserveAppliesOrStores := by
  intro Z ch pitch vel id off s hc active valid hp hv ev
  rw [exec_reserve_of_good hc (ready_of active valid) hp hv]
  refine ⟨fun now => ?_, fun later => ⟨if_neg (not_le.mpr later), ?_⟩⟩
  · rw [if_pos now, issue_applyInstr]
    rfl
  · exact store_takesSlot Z.rn_pos s.nres NoteRes.offset ⟨ev, off.toInt⟩

/-- Settles O37, as O36 for the pressure ring. -/
theorem reservepAppliesOrStores : Obligations.ReservepAppliesOrStores := by
  intro Z ch pitch p id off s hc active valid hp hv ev
  rw [exec_reservep_of_good hc (ready_of active valid) hp hv]
  refine ⟨fun now => ?_, fun later => ⟨if_neg (not_le.mpr later), ?_⟩⟩
  · rw [if_pos now, issue_applyPressure]
    rfl
  · exact store_takesSlot Z.rp_pos s.pres PressRes.offset ⟨ev, p, off.toInt⟩

end Sys2Proof.Machine
end

-- ==== Scheduler: the tick ====
section
/-! PROOFS. TICK as its three steps, and how a reservation counts down (46_scheduler.md R274, R278, R280). -/

namespace Sys2Proof.Machine

variable {Z : Config.Params}

/-! ## TICK as its three steps (R274) -/

theorem aged_eq (v : Voice Z) : aged v = if live v then { v with length := satInc v.length } else v := by
  unfold aged live
  split <;> rename_i state <;> rw [state] <;> rfl

theorem tickAges_eq (vs : Vector (Voice Z) Z.NV) : tickAges vs = vs.map aged := by
  rw [tickAges, funext aged_eq]

/-- A reservation of the note ring that is due in this TICK: its slot is freed and the event applied. -/
theorem tickNoteSlot_of_due {s : State Z} {j : Fin Z.RN} (due : (s.nres[j]).offset = 0) :
    tickNoteSlot s j = applyNote (s.nres[j]).note
      { s with nres := s.nres.set j { s.nres[j] with offset := (s.nres[j]).offset - 1 } } := by
  unfold tickNoteSlot slotLive
  rw [if_pos (decide_eq_true due.ge), if_pos (by omega)]

/-- One that is due later: it counts down. -/
theorem tickNoteSlot_of_pos {s : State Z} {j : Fin Z.RN} (later : 0 < (s.nres[j]).offset) :
    tickNoteSlot s j =
      { s with nres := s.nres.set j { s.nres[j] with offset := (s.nres[j]).offset - 1 } } := by
  unfold tickNoteSlot slotLive
  rw [if_pos (decide_eq_true later.le), if_neg (by omega)]

/-- A free slot stays. -/
theorem tickNoteSlot_of_free {s : State Z} {j : Fin Z.RN} (free : (s.nres[j]).offset < 0) :
    tickNoteSlot s j = s := by
  unfold tickNoteSlot slotLive
  rw [if_neg (by simpa using free)]

/-- One slot of the note ring as its operations: the same state, but for the latch of what was returned. -/
theorem issueNoteSlot_returned (s : State Z) (xs : List Num) (j : Fin Z.RN) :
    ∃ ys, issueNoteSlot (returned s xs) j = returned (tickNoteSlot s j) ys := by
  unfold issueNoteSlot
  rcases lt_trichotomy (s.nres[j]).offset 0 with free | due | later
  · exact ⟨xs, by rw [tickNoteSlot_of_free free]; exact if_neg (not_le.mpr free)⟩
  · refine ⟨[], ?_⟩
    rw [tickNoteSlot_of_due due]
    exact (if_pos due.ge).trans ((if_pos due).trans (issue_applyInstr ..))
  · refine ⟨xs, ?_⟩
    rw [tickNoteSlot_of_pos later]
    exact (if_pos later.le).trans (if_neg later.ne')

/-- A reservation of the pressure ring that is due in this TICK: its slot is freed and the event applied. -/
theorem tickPressSlot_of_due {s : State Z} {j : Fin Z.RP} (due : (s.pres[j]).offset = 0) :
    tickPressSlot s j = applyPressure (s.pres[j]).note (s.pres[j]).pressure
      { s with pres := s.pres.set j { s.pres[j] with offset := (s.pres[j]).offset - 1 } } := by
  unfold tickPressSlot slotLive
  rw [if_pos (decide_eq_true due.ge), if_pos (by omega)]

/-- One that is due later: it counts down. -/
theorem tickPressSlot_of_pos {s : State Z} {j : Fin Z.RP} (later : 0 < (s.pres[j]).offset) :
    tickPressSlot s j =
      { s with pres := s.pres.set j { s.pres[j] with offset := (s.pres[j]).offset - 1 } } := by
  unfold tickPressSlot slotLive
  rw [if_pos (decide_eq_true later.le), if_neg (by omega)]

/-- A free slot stays. -/
theorem tickPressSlot_of_free {s : State Z} {j : Fin Z.RP} (free : (s.pres[j]).offset < 0) :
    tickPressSlot s j = s := by
  unfold tickPressSlot slotLive
  rw [if_neg (by simpa using free)]

/-- One slot of the pressure ring as its operation: the same state, but for the latch of what was returned. -/
theorem issuePressSlot_returned (s : State Z) (xs : List Num) (j : Fin Z.RP) :
    ∃ ys, issuePressSlot (returned s xs) j = returned (tickPressSlot s j) ys := by
  unfold issuePressSlot
  rcases lt_trichotomy (s.pres[j]).offset 0 with free | due | later
  · exact ⟨xs, by rw [tickPressSlot_of_free free]; exact if_neg (not_le.mpr free)⟩
  · refine ⟨[], ?_⟩
    rw [tickPressSlot_of_due due]
    exact (if_pos due.ge).trans ((if_pos due).trans (issue_applyPressure ..))
  · refine ⟨xs, ?_⟩
    rw [tickPressSlot_of_pos later]
    exact (if_pos later.le).trans (if_neg later.ne')

/-- Slots taken in the same order agree where each does, the latch of what was returned aside. -/
theorem foldl_returned {ι : Type} {issued run : State Z → ι → State Z} (js : List ι)
    (slot : ∀ s xs j, ∃ ys, issued (returned s xs) j = returned (run s j) ys) (s : State Z) (xs : List Num) :
    ∃ ys, js.foldl issued (returned s xs) = returned (js.foldl run s) ys := by
  induction js generalizing s xs with
  | nil => exact ⟨xs, rfl⟩
  | cons j js ih =>
    obtain ⟨ys, first⟩ := slot s xs j
    rw [List.foldl_cons, List.foldl_cons, first]
    exact ih (run s j) ys

/-- Settles O39: the ages are the same, and then each ring slot by slot. -/
theorem tickIsItsSteps : Obligations.TickIsItsSteps := by
  intro Z s
  obtain ⟨ys, notes⟩ := foldl_returned (List.finRange Z.RN) issueNoteSlot_returned
    { s with voices := s.voices.map aged } s.ret
  obtain ⟨zs, pressures⟩ := foldl_returned (List.finRange Z.RP) issuePressSlot_returned
    ((List.finRange Z.RN).foldl tickNoteSlot { s with voices := s.voices.map aged }) ys
  have steps : issueTick s = returned (tick s) [] := by
    rw [tick, tickAges_eq]
    have rings := (congrArg ((List.finRange Z.RP).foldl issuePressSlot) notes).trans pressures
    exact (congrArg (returned · []) rings).trans (returned_returned _ zs [])
  exact congrArg Host.Outcome.next steps.symm

/-! ## What TICK leaves in the rings (R274, R281) -/

/-- A reservation's offset after one TICK. -/
def countedOffset (o : Int) : Int := if 0 ≤ o then o - 1 else o

/-- A note reservation after one TICK. -/
def NoteRes.counted (e : NoteRes Z) : NoteRes Z := { e with offset := countedOffset e.offset }

/-- A pressure reservation after one TICK. -/
def PressRes.counted (e : PressRes Z) : PressRes Z := { e with offset := countedOffset e.offset }

theorem tickNoteSlot_nres (s : State Z) (j : Fin Z.RN) :
    (tickNoteSlot s j).nres = s.nres.set j (s.nres[j]).counted := by
  unfold tickNoteSlot slotLive NoteRes.counted countedOffset
  simp only [decide_eq_true_eq]
  split_ifs
  · rfl
  · rfl
  · exact (Vector.set_getElem_self j.isLt).symm

theorem tickPressSlot_pres (s : State Z) (j : Fin Z.RP) :
    (tickPressSlot s j).pres = s.pres.set j (s.pres[j]).counted := by
  unfold tickPressSlot slotLive PressRes.counted countedOffset
  simp only [decide_eq_true_eq]
  split_ifs
  · rfl
  · rfl
  · exact (Vector.set_getElem_self j.isLt).symm

/-- Replacing the elements of some slots, each once. -/
theorem getElem_foldl_set {α : Type} {n : Nat} (g : α → α) (js : List (Fin n)) (nodup : js.Nodup) (r : Vector α n)
    (k : Fin n) : (js.foldl (fun r j => r.set j (g r[j])) r)[k] = if k ∈ js then g r[k] else r[k] := by
  induction js generalizing r with
  | nil => simp
  | cons j js ih =>
    obtain ⟨fresh, rest⟩ := List.nodup_cons.mp nodup
    rw [List.foldl_cons, ih rest]
    by_cases same : k = j
    · subst same
      simp [fresh]
    · have : j.val ≠ k.val := fun e => same (Fin.ext e.symm)
      simp [same, this]

/-- Replacing every element in slot order. -/
theorem foldl_set_finRange {α : Type} {n : Nat} (g : α → α) (r : Vector α n) :
    (List.finRange n).foldl (fun r j => r.set j (g r[j])) r = r.map g := by
  ext k hk
  have := getElem_foldl_set g (List.finRange n) (List.nodup_finRange n) r ⟨k, hk⟩
  simpa using this

theorem foldl_tickNoteSlot_nres (s : State Z) :
    ((indices Z.RN).foldl tickNoteSlot s).nres = s.nres.map NoteRes.counted := by
  rw [← foldl_set_finRange]
  exact (List.foldl_hom State.nres fun s j => (tickNoteSlot_nres s j).symm).symm

theorem foldl_tickPressSlot_pres (s : State Z) :
    ((indices Z.RP).foldl tickPressSlot s).pres = s.pres.map PressRes.counted := by
  rw [← foldl_set_finRange]
  exact (List.foldl_hom State.pres fun s j => (tickPressSlot_pres s j).symm).symm

/-- TICK counts every note reservation down once. -/
theorem tick_nres (s : State Z) : (tick s).nres = s.nres.map NoteRes.counted := by
  obtain ⟨vs, r, pressures⟩ := foldl_tickPressSlot_eq (indices Z.RP)
    ((indices Z.RN).foldl tickNoteSlot { s with voices := tickAges s.voices })
  rw [tick, pressures]
  exact foldl_tickNoteSlot_nres _

/-- TICK counts every pressure reservation down once. -/
theorem tick_pres (s : State Z) : (tick s).pres = s.pres.map PressRes.counted := by
  obtain ⟨vs, r, notes⟩ := foldl_tickNoteSlot_eq (indices Z.RN) { s with voices := tickAges s.voices }
  rw [tick, foldl_tickPressSlot_pres, notes]

/-! ## After several TICKs -/

theorem issueAll_tick_succ (n : Nat) (s : State Z) :
    issueAll (List.replicate (n + 1) .tick) s = returned (tick (issueAll (List.replicate n .tick) s)) [] := by
  simp [issueAll, List.replicate_succ']

/-- The offset after `n` TICKs of one that starts at `k`. -/
theorem countedOffset_step (n k : Nat) :
    countedOffset (if n ≤ k then (k : Int) - n else -1) = if n + 1 ≤ k then (k : Int) - (n + 1 : Nat) else -1 := by
  unfold countedOffset
  split_ifs <;> omega

/-- Settles O40, by induction on the number of TICKs: each counts every reservation down once (`tick_nres`,
`tick_pres`). -/
theorem reservationCountsDown : Obligations.ReservationCountsDown := by
  intro Z s n k t
  induction n with
  | zero => 
    exact ⟨fun j start => ⟨rfl, by simpa [t, issueAll] using start⟩,
      fun j start => ⟨rfl, rfl, by simpa [t, issueAll] using start⟩⟩
  | succ n ih =>
    obtain ⟨notes, pressures⟩ := ih
    have last : t = returned (tick (issueAll (List.replicate n .tick) s)) [] := issueAll_tick_succ n s
    rw [last]
    refine ⟨fun j start => ?_, fun j start => ?_⟩
    · obtain ⟨note, offset⟩ := notes j start
      have entry : (tick (issueAll (List.replicate n .tick) s)).nres[j] =
          ((issueAll (List.replicate n .tick) s).nres[j]).counted := by simp [tick_nres]
      rw [returned_nres, entry, ← countedOffset_step, ← offset]
      exact ⟨note, rfl⟩
    · obtain ⟨note, pressure, offset⟩ := pressures j start
      have entry : (tick (issueAll (List.replicate n .tick) s)).pres[j] =
          ((issueAll (List.replicate n .tick) s).pres[j]).counted := by simp [tick_pres]
      rw [returned_pres, entry, ← countedOffset_step, ← offset]
      exact ⟨note, pressure, rfl⟩

end Sys2Proof.Machine
end

-- ==== Scheduler: allocation and matching ====
section
/-! PROOFS. Which voice a note-on takes and what it makes of it, and which voices a note-off and a pressure change
(46_scheduler.md R273, R275 to R277; 47_stacked_voice.md R301 to R303). -/

namespace Sys2Proof.Machine

variable {Z : Config.Params}

/-! ## The voice a note-on takes (R275) -/

/-- R275 gives voice `p` to a note: the oldest Inactive one, else the oldest of all, the first among equals. -/
def TakesVoice (vs : Vector (Voice Z) Z.NV) (p : Fin Z.NV) : Prop :=
  ((∃ i : Fin Z.NV, (vs[i]).state = .inactive) →
    (vs[p]).state = .inactive ∧ (∀ i : Fin Z.NV, (vs[i]).state = .inactive → (vs[i]).length ≤ (vs[p]).length) ∧
      ∀ i, i < p → (vs[i]).state = .inactive → (vs[i]).length < (vs[p]).length) ∧
    ((∀ i : Fin Z.NV, (vs[i]).state ≠ .inactive) →
      (∀ i : Fin Z.NV, (vs[i]).length ≤ (vs[p]).length) ∧ ∀ i, i < p → (vs[i]).length < (vs[p]).length)

/-- The scan of the Inactive voices is the scan of the pool that skips the others. -/
theorem pickInactive_eq_argmax (vs : Vector (Voice Z) Z.NV) :
    pickInactive vs =
      ((indices Z.NV).filter fun i => (vs[i]).state = .inactive).argmax fun i => (vs[i]).length.toNat := by
  unfold pickInactive List.argmax
  rw [List.foldl_filter]
  congr 1
  funext pick i
  unfold scanInactive List.argAux
  simp only [decide_eq_true_eq, BitVec.lt_def]
  cases pick <;> rfl

theorem pickOldest_mem_argmax (vs : Vector (Voice Z) Z.NV) :
    pickOldest vs ∈ (indices Z.NV).argmax fun i => (vs[i]).length.toNat := by
  have first : (indices Z.NV).head? = some ⟨0, Z.nv_pos⟩ := by
    simp [indices, List.head?_eq_getElem?, Z.nv_pos]
  rw [argmax_eq_foldl _ first]
  rfl

/-- The voice a note-on takes is R275's, started where it was Inactive and restarted where it is stolen. -/
theorem allocate_takesVoice (vs : Vector (Voice Z) Z.NV) :
    ∃ p, TakesVoice vs p ∧
      allocate vs = (p, if (vs[p]).state = .inactive then voiceStart vs[p] else voiceRestart vs[p]) := by
  have sorted : (indices Z.NV).Pairwise (· < ·) := List.pairwise_lt_finRange _
  have member (i : Fin Z.NV) : i ∈ indices Z.NV := List.mem_finRange i
  cases pick : pickInactive vs with
  | some p =>
    rw [pickInactive_eq_argmax] at pick
    obtain ⟨mem, oldest, first⟩ := argmax_first (sorted.sublist List.filter_sublist) pick
    simp only [List.mem_filter, member, true_and, decide_eq_true_eq] at mem oldest first
    refine ⟨p, ⟨fun _ => ⟨mem, oldest, fun i before idle => first i idle before⟩, fun none => absurd mem (none p)⟩, ?_⟩
    rw [allocate, pickInactive_eq_argmax, pick, if_pos mem]
  | none =>
    have busy (i : Fin Z.NV) : (vs[i]).state ≠ .inactive := by
      rw [pickInactive_eq_argmax, List.argmax_eq_none, List.filter_eq_nil_iff] at pick
      simpa using pick i (member i)
    obtain ⟨-, oldest, first⟩ := argmax_first sorted (pickOldest_mem_argmax vs)
    refine ⟨pickOldest vs, ⟨fun ⟨i, idle⟩ => absurd idle (busy i), fun _ => ⟨fun i => oldest i (member i),
      fun i before => first i (member i) before⟩⟩, ?_⟩
    rw [allocate, pick, if_neg (busy _)]

/-! ## What the note-on makes of it (R275, R301 to R303) -/

theorem exec_applyNoteon (ev : MidiNote Z) (s : State Z) :
    Z.exec (.applyNoteon ev) s = .next (returned { s with voices := noteOn s.cfg s.table s.voices ev } []) := rfl

theorem exec_applyNoteoff (ev : MidiNote Z) (s : State Z) :
    Z.exec (.applyNoteoff ev) s = .next (returned { s with voices := noteOff s.voices ev } []) := rfl

theorem exec_applyPressure (ev : MidiNote Z) (p : Num) (s : State Z) :
    Z.exec (.applyPressure ev p) s = .next (returned { s with voices := applyPress s.voices ev p } []) := rfl

/-- The voice a note-on starts or restarts, as the unit operation leaves it. -/
theorem issue_start_or_restart (p : Fin Z.NV) (s : State Z) :
    (issue (if (s.voices[p]).state = .inactive then .voiceStart p else .voiceRestart p) s).voices[p] =
      if (s.voices[p]).state = .inactive then voiceStart s.voices[p] else voiceRestart s.voices[p] := by
  split <;> simp

/-- Every copy's frequency in Hz (R303). -/
theorem copyFreq_eq (c : Cfg) (t : Num) (k : Fin Z.NS) :
    copyFreq Z c t k =
      match c.stkMode with
      | .unison =>
        fmul (pitchToFreq (fadd t
          (fmul (fsub (ofInt k.val) (fdiv (ofInt ((c.stackSize : Int) - 1)) n2)) c.detune))) n1
      | .harmonic =>
        fmul (pitchToFreq (fadd t n0)) (if k.val + 1 = Z.NS then decimal 8 1 else ofInt ((k.val : Int) + 1)) := by
  have last : k.val = Z.NS - 1 ↔ k.val + 1 = Z.NS := by omega
  unfold copyFreq
  cases c.stkMode with
  | unison => rfl
  | harmonic => simp only [last]

/-- Settles O41: the voice is R275's (`allocate_takesVoice`), and LATCH fixes its frequencies (`copyFreq_eq`). -/
theorem noteOnTakesAVoice : Obligations.NoteOnTakesAVoice := by
  intro Z ev s
  obtain ⟨p, ⟨idle, stolen⟩, allocated⟩ := allocate_takesVoice s.voices
  refine ⟨p, _, exec_applyNoteon ev s, rfl, rfl, fun i other => ?_, idle, stolen, ?_⟩
  · have : p.val ≠ i.val := fun e => other (Fin.ext e.symm)
    simp [noteOn, allocated, this]
  · rw [issue_start_or_restart]
    simp only [returned_voices, noteOn, allocated, Fin.getElem_fin, Vector.getElem_set_self, latch, copyFreq_eq]
    rfl

/-! ## The voices a note-off and a pressure change (R273, R276, R277) -/

/-- Two notes are the same (R273). -/
theorem isSame_iff (a b : MidiNote Z) :
    isSame a b = true ↔
      a.ch = b.ch ∧ if a.id ≠ globalId ∧ b.id ≠ globalId then a.id = b.id else feq a.pitch b.pitch = true := by
  unfold isSame
  by_cases channel : a.ch = b.ch
  · by_cases named : a.id ≠ globalId ∧ b.id ≠ globalId
    · rw [if_neg (not_not.mpr channel), if_pos named, if_pos named, decide_eq_true_eq, and_iff_right channel]
    · rw [if_neg (not_not.mpr channel), if_neg named, if_neg named, and_iff_right channel]
  · simp [channel]

theorem live_iff (v : Voice Z) : live v = true ↔ v.state ≠ .inactive := by simp [live]

/-- Settles O42: both operations go over the pool voice by voice, with the condition of R276 or R277. -/
theorem noteOffAndPressureMatch : Obligations.NoteOffAndPressureMatch := by
  intro Z ev x s same
  refine ⟨⟨_, exec_applyNoteoff ev s, rfl, rfl, fun i => ?_⟩, ⟨_, exec_applyPressure ev x s, rfl, rfl, fun i => ?_⟩⟩
  · have voice : (noteOff s.voices ev)[i] =
        if (s.voices[i]).state = .active ∧ same s.voices[i] then { s.voices[i] with state := .release }
        else s.voices[i] := by
      simp only [noteOff, isSame_iff, Fin.getElem_fin, Vector.getElem_map]
      rfl
    exact ⟨fun h => voice.trans (if_pos h), fun h => voice.trans (if_neg h)⟩
  · have voice : (applyPress s.voices ev x)[i] =
        if (s.voices[i]).state ≠ .inactive ∧ same s.voices[i] then { s.voices[i] with pressure := clamp x n0 n1 }
        else s.voices[i] := by
      simp only [applyPress, live_iff, isSame_iff, Fin.getElem_fin, Vector.getElem_map]
      rfl
    exact ⟨fun h => voice.trans (if_pos h), fun h => voice.trans (if_neg h)⟩

end Sys2Proof.Machine
end

-- ==== State: the invariant ====
section
/-! PROOFS. What keeps a voice, the pool, a ring and the delay in form (10_state.md R59; 46_scheduler.md R281). -/

namespace Sys2Proof.Machine

variable {Z : Config.Params}

/-! ## The elements of a vector -/

/-- What holds of every element holds of every element after one is replaced by one it holds of. -/
theorem forall_getElem_set {α : Type} {n : Nat} {p : α → Prop} {r : Vector α n} (h : ∀ k : Fin n, p r[k]) (j : Fin n)
    {x : α} (hx : p x) (k : Fin n) : p (r.set j x)[k] := by
  simp only [Fin.getElem_fin, Vector.getElem_set]
  split
  · exact hx
  · exact h k

/-- And after every one is replaced by one it holds of. -/
theorem forall_getElem_map {α : Type} {n : Nat} {p : α → Prop} {r : Vector α n} (h : ∀ k : Fin n, p r[k]) {f : α → α}
    (hf : ∀ x, p x → p (f x)) (k : Fin n) : p (r.map f)[k] := by
  simp only [Fin.getElem_fin, Vector.getElem_map]
  exact hf _ (h k)

/-! ## What a configured core's CFG says of envelopes -/

theorem cfgForm.env {c : Cfg} (h : cfgForm c) (e : EnvSel) : envCfgForm (envCfgGet c e) := by
  obtain ⟨-, -, -, amp, fm, modEnv⟩ := h
  cases e
  · exact amp
  · exact fm
  · exact modEnv

theorem inClosedUnit_of_isRate {x : Num} (h : isRate x = true) : inClosedUnit x = true := by
  simp only [isRate, inClosedUnit, Bool.and_eq_true] at h ⊢
  exact ⟨fle_of_flt h.1, h.2⟩

/-- ENV.STEP keeps a level in `[0, 1]` (42_envelope.md R197). -/
theorem inClosedUnit_envStep {c : EnvCfg} (hc : envCfgForm c) {o : EnvState} (ho : inClosedUnit o.level = true)
    (gate : Bool) : inClosedUnit (envStep Z c o gate).level = true := by
  obtain ⟨attack, decay, release, sustain⟩ := hc
  exact (envelopeLevels Z.attackLaw c o gate (inClosedUnit_of_isRate attack) (inClosedUnit_of_isRate decay)
    (inClosedUnit_of_isRate release) sustain ho).1

/-! ## A voice in form -/

/-- VOICE.START leaves phases and levels at +0 (47_stacked_voice.md R301). -/
theorem voiceForm_voiceStart {v : Voice Z} (h : voiceForm v) : voiceForm (voiceStart v) := by
  obtain ⟨least, most, -⟩ := h
  have level : inClosedUnit n0 = true := by decide +kernel
  refine ⟨least, most, inUnit_n0, fun k => ?_, fun k => ?_, fun k => ?_, level, level, level⟩ <;>
    simpa [voiceStart] using inUnit_n0

/-- VOICE.RESTART keeps every level (R302). -/
theorem voiceForm_voiceRestart {v : Voice Z} (h : voiceForm v) : voiceForm (voiceRestart v) := h

/-- LATCH takes a stack size that is in range (R303). -/
theorem voiceForm_latch {c : Cfg} (hs : 1 ≤ c.stackSize ∧ c.stackSize ≤ Z.NS) (t : PitchTables Z) {v : Voice Z}
    (h : voiceForm v) : voiceForm (latch c t v) := by
  obtain ⟨-, -, rest⟩ := h
  exact ⟨hs.1, hs.2, rest⟩

theorem voiceForm_envVoice {c : Cfg} (hc : cfgForm c) {v : Voice Z} (h : voiceForm v) (e : EnvSel) (gate : Bool) :
    voiceForm (envVoice c v e gate).1 := by
  obtain ⟨least, most, lfo, sync, car, mod, amp, fm, modEnv⟩ := h
  cases e
  case amp => exact ⟨least, most, lfo, sync, car, mod, inClosedUnit_envStep (hc.env .amp) amp gate, fm, modEnv⟩
  case fm => exact ⟨least, most, lfo, sync, car, mod, amp, inClosedUnit_envStep (hc.env .fm) fm gate, modEnv⟩
  case modEnv => exact ⟨least, most, lfo, sync, car, mod, amp, fm, inClosedUnit_envStep (hc.env .modEnv) modEnv gate⟩

theorem voiceForm_lfoStep (c : Cfg) {v : Voice Z} (h : voiceForm v) (sp lv : Num) :
    voiceForm (lfoStep c v sp lv).1 := by
  obtain ⟨least, most, -, rest⟩ := h
  exact ⟨least, most, inUnit_wrapState _, rest⟩

theorem voiceForm_syncVoice {v : Voice Z} (h : voiceForm v) (k : Fin Z.NS) (dS : Num) :
    voiceForm (syncVoice v k dS).1 := by
  obtain ⟨least, most, lfo, sync, rest⟩ := h
  exact ⟨least, most, lfo, forall_getElem_set (p := fun x => inUnit x = true) sync k (inUnit_wrapState _), rest⟩

theorem voiceForm_carVoice (c : Cfg) {v : Voice Z} (h : voiceForm v) (k : Fin Z.NS) (delta pulse fmIn : Num) :
    voiceForm (carVoice c v k delta pulse fmIn).1 := by
  obtain ⟨least, most, lfo, sync, car, rest⟩ := h
  exact ⟨least, most, lfo, sync,
    forall_getElem_set (p := fun o : OpState => inUnit o.phase = true) car k (inUnit_wrapState _), rest⟩

theorem voiceForm_modVoice (c : Cfg) {v : Voice Z} (h : voiceForm v) (k : Fin Z.NS) (delta pulse : Num) :
    voiceForm (modVoice c v k delta pulse).1 := by
  obtain ⟨least, most, lfo, sync, car, mod, rest⟩ := h
  exact ⟨least, most, lfo, sync, car,
    forall_getElem_set (p := fun o : OpState => inUnit o.phase = true) mod k (inUnit_wrapState _), rest⟩

theorem voiceForm_stackCopy (c : Cfg) (pm f gl gr : Num) {a : Voice Z × Num × Num} (h : voiceForm a.1) (k : Fin Z.NS) :
    voiceForm (stackCopy c pm f gl gr a k).1 :=
  voiceForm_carVoice c (voiceForm_modVoice c (voiceForm_syncVoice h k _) k _ _) k _ _ _

theorem voiceForm_stackRender (c : Cfg) {v : Voice Z} (h : voiceForm v) (pm pn f : Num) :
    voiceForm (stackRender c v pm pn f).1 :=
  List.foldlRecOn (motive := fun a : Voice Z × Num × Num => voiceForm a.1) _ _ h
    fun _ ha k _ => voiceForm_stackCopy c pm f _ _ ha k

theorem voiceForm_modEngine {c : Cfg} (hc : cfgForm c) {v : Voice Z} (h : voiceForm v) (gate : Bool) :
    voiceForm (modEngine c v gate).1 :=
  voiceForm_lfoStep c (voiceForm_envVoice hc h .modEnv gate) _ _

/-- The filters hold no part of a voice's form. -/
theorem voiceForm_filterStage (c : Cfg) {v : Voice Z} (h : voiceForm v) (xl xr co rs mx : Num) :
    voiceForm (filterStage c v xl xr co rs mx).1 := by
  unfold filterStage
  split <;> exact h

theorem voiceForm_lifecycle {v : Voice Z} (h : voiceForm v) : voiceForm (lifecycle v) := by
  unfold lifecycle
  split <;> exact h

/-- VOICE.RENDER keeps a voice in form, stage by stage (R304). -/
theorem voiceForm_voiceRender {c : Cfg} (hc : cfgForm c) {v : Voice Z} (h : voiceForm v) :
    voiceForm (voiceRender c v).1 :=
  voiceForm_lifecycle (voiceForm_filterStage c (voiceForm_stackRender c (voiceForm_envVoice hc
    (voiceForm_envVoice hc (voiceForm_modEngine hc h _) .amp _) .fm _) _ _ _) _ _ _ _ _)

/-! ## The pool in form -/

/-- Every voice of a pool is in form. -/
def poolForm (vs : Vector (Voice Z) Z.NV) : Prop := ∀ i : Fin Z.NV, voiceForm vs[i]

theorem voiceForm_allocate {vs : Vector (Voice Z) Z.NV} (h : poolForm vs) : voiceForm (allocate vs).2 := by
  obtain ⟨p, -, allocated⟩ := allocate_takesVoice vs
  rw [allocated]
  dsimp only
  split
  · exact voiceForm_voiceStart (h p)
  · exact voiceForm_voiceRestart (h p)

theorem poolForm_noteOn {c : Cfg} (hs : 1 ≤ c.stackSize ∧ c.stackSize ≤ Z.NS) (t : PitchTables Z)
    {vs : Vector (Voice Z) Z.NV} (h : poolForm vs) (ev : MidiNote Z) : poolForm (noteOn c t vs ev) :=
  forall_getElem_set h _ (voiceForm_latch hs t (voiceForm_allocate h))

theorem poolForm_noteOff {vs : Vector (Voice Z) Z.NV} (h : poolForm vs) (ev : MidiNote Z) :
    poolForm (noteOff vs ev) :=
  forall_getElem_map h fun v hv => by split <;> exact hv

theorem poolForm_applyPress {vs : Vector (Voice Z) Z.NV} (h : poolForm vs) (ev : MidiNote Z) (p : Num) :
    poolForm (applyPress vs ev p) :=
  forall_getElem_map h fun v hv => by split <;> exact hv

theorem poolForm_tickAges {vs : Vector (Voice Z) Z.NV} (h : poolForm vs) : poolForm (tickAges vs) :=
  forall_getElem_map h fun v hv => by split <;> exact hv

theorem poolForm_mixVoices {c : Cfg} (hc : cfgForm c) {vs : Vector (Voice Z) Z.NV} (h : poolForm vs)
    (sel : List (Fin Z.NV)) : poolForm (mixVoices c vs sel).1 :=
  List.foldlRecOn (motive := fun a : Vector (Voice Z) Z.NV × Num × Num => poolForm a.1) _ _ h
    fun _ ha i _ => forall_getElem_set ha i (voiceForm_voiceRender hc (ha i))

theorem poolForm_reset : poolForm (Vector.replicate Z.NV Voice.reset) := fun i => by
  simpa using voiceForm_reset (Z := Z)

/-! ## Offsets of reservations -/

/-- The range of a reservation's offset (46_scheduler.md R281 d). -/
def offsetForm (o : Int) : Prop := -1 ≤ o ∧ o < 2 ^ 31

theorem offsetForm_pred {o : Int} (h : offsetForm o) (live : 0 ≤ o) : offsetForm (o - 1) := by
  obtain ⟨-, most⟩ := h
  exact ⟨by omega, by omega⟩

/-- A positive `I32` operand is in range. -/
theorem offsetForm_toInt {w : Word} (h : 0 < w.toInt) : offsetForm w.toInt :=
  ⟨by omega, BitVec.toInt_lt⟩

/-! ## A delay channel in form -/

/-- DELAY.STEP keeps a channel's RAM in form under the capacity, its feedback gated and its cursor below the length
(48_delay.md R331 to R334). -/
theorem delayChannel_form {c : Cfg} {dcap : Nat} {d : DelayChan} (wf : Memory.wf ramDefault d.ram = true)
    (h : delayForm dcap d) (hl : 1 ≤ c.dLen) (tag : Nat) (x fbIn : Num) :
    Memory.wf ramDefault (delayChannel c dcap tag d x fbIn).1.ram = true ∧
      delayForm dcap (delayChannel c dcap tag d x fbIn).1 ∧ (delayChannel c dcap tag d x fbIn).1.w < c.dLen := by
  obtain ⟨listed, -⟩ := h
  obtain ⟨wf', written, -⟩ := delayWrite_spec (dcap := dcap) (fadd x fbIn) wf
  exact ⟨wf', ⟨fun e he => (written e he).elim id (listed e), feedbackOk_fbGate _⟩, nextCursor_lt hl⟩

/-! ## CFG after a RECALC -/

/-- The ranges RECALC leaves CFG in have the form of a configured core's. -/
theorem CfgRanges.form {dcap : Nat} {c : Cfg} (h : CfgRanges Z dcap c) : cfgForm c := by
  have env {e : EnvCfg} (he : e ∈ [c.amp, c.fmEnv, c.modEnv]) (hs : e.sustain ∈ unitNums c) : envCfgForm e :=
    ⟨h.rate e he _ (by simp), h.rate e he _ (by simp), h.rate e he _ (by simp), h.unit _ hs⟩
  exact ⟨h.finite, h.unit _ (by simp [unitNums]), h.unit _ (by simp [unitNums]), env (by simp) (by simp [unitNums]),
    env (by simp) (by simp [unitNums]), env (by simp) (by simp [unitNums])⟩

end Sys2Proof.Machine
end

-- ==== State: the invariant, kept ====
section
/-! PROOFS. Every step of a core that hosts drive keeps the invariant: one rule per part of the state that an operation
writes, then the tick, a sample, the seven commands and the step (10_state.md R59). -/

namespace Sys2Proof.Machine

variable {Z : Config.Params} {s : State Z}

/-! ## Writing one part of the state -/

theorem HostInv.setVoices (h : HostInv s) {vs : Vector (Voice Z) Z.NV} (hv : poolForm vs) :
    HostInv { s with voices := vs } := by
  obtain ⟨units, memory, status, rings, -, delay⟩ := h
  exact ⟨units, memory, status, rings, hv, delay⟩

theorem HostInv.setNote (h : HostInv s) (j : Fin Z.RN) {e : NoteRes Z} (he : offsetForm e.offset) :
    HostInv { s with nres := s.nres.set j e } := by
  obtain ⟨units, memory, status, ⟨notes, pressures⟩, rest⟩ := h
  exact ⟨units, memory, status,
    ⟨forall_getElem_set (p := fun e : NoteRes Z => offsetForm e.offset) notes j he, pressures⟩, rest⟩

theorem HostInv.setPress (h : HostInv s) (j : Fin Z.RP) {e : PressRes Z} (he : offsetForm e.offset) :
    HostInv { s with pres := s.pres.set j e } := by
  obtain ⟨units, memory, status, ⟨notes, pressures⟩, rest⟩ := h
  exact ⟨units, memory, status,
    ⟨notes, forall_getElem_set (p := fun e : PressRes Z => offsetForm e.offset) pressures j he⟩, rest⟩

theorem HostInv.raise (h : HostInv s) (c : Cause) : HostInv (raise c s) := by
  unfold Machine.raise
  split <;> exact h

theorem HostInv.pwriteTo (h : HostInv s) (addr : BitVec 16) (v : Num) : HostInv (pwriteTo addr v s) := by
  unfold Machine.pwriteTo
  split
  case isTrue known =>
    obtain ⟨units, ⟨param, left, right, listed⟩, rest⟩ := h
    refine ⟨units, ⟨wf_memWrite param _ _, left, right, fun e he => ?_⟩, rest⟩
    rcases mem_memWrite he with here | before
    · exact here ▸ known
    · exact listed e before
  case isFalse => exact h.raise _

/-! ## Ticks and samples of a configured core -/

/-- The invariant of a core that is configured: what every operation of a PROCESS keeps. -/
def Configured (s : State Z) : Prop := HostInv s ∧ s.status.cfgValid = true

/-- What the invariant says of the configuration. -/
theorem Configured.cfg (h : Configured s) :
    (1 ≤ s.cfg.stackSize ∧ s.cfg.stackSize ≤ Z.NS) ∧ 1 ≤ s.cfg.dLen ∧ s.cfg.dLen ≤ s.dcap ∧
      s.dly.left.w < s.cfg.dLen ∧ s.dly.right.w < s.cfg.dLen ∧ cfgForm s.cfg := by
  obtain ⟨⟨-, -, ⟨-, -, configured⟩, -⟩, valid⟩ := h
  obtain ⟨least, most, short, long, left, right, form, -⟩ := configured valid
  exact ⟨⟨least, most⟩, short, long, left, right, form⟩

theorem Configured.pool (h : Configured s) : poolForm s.voices := by
  obtain ⟨⟨-, -, -, -, pool, -⟩, -⟩ := h
  exact pool

theorem Configured.setVoices (h : Configured s) {vs : Vector (Voice Z) Z.NV} (hv : poolForm vs) :
    Configured { s with voices := vs } := ⟨h.1.setVoices hv, h.2⟩

theorem Configured.applyNote (h : Configured s) (ev : MidiNote Z) : Configured (applyNote ev s) := by
  refine h.setVoices ?_
  split
  · exact poolForm_noteOn h.cfg.1 _ h.pool ev
  · exact poolForm_noteOff h.pool ev

theorem Configured.applyPressure (h : Configured s) (ev : MidiNote Z) (p : Num) : Configured (applyPressure ev p s) :=
  h.setVoices (poolForm_applyPress h.pool ev p)

theorem Configured.offsets (h : Configured s) :
    (∀ j : Fin Z.RN, offsetForm (s.nres[j]).offset) ∧ ∀ j : Fin Z.RP, offsetForm (s.pres[j]).offset := by
  obtain ⟨⟨-, -, -, rings, -⟩, -⟩ := h
  exact rings

theorem Configured.tickNoteSlot (h : Configured s) (j : Fin Z.RN) : Configured (tickNoteSlot s j) := by
  have counted (live : 0 ≤ (s.nres[j]).offset) :
      Configured { s with nres := s.nres.set j { s.nres[j] with offset := (s.nres[j]).offset - 1 } } :=
    ⟨h.1.setNote j (offsetForm_pred (h.offsets.1 j) live), h.2⟩
  rcases lt_trichotomy (s.nres[j]).offset 0 with free | due | later
  · rwa [tickNoteSlot_of_free free]
  · rw [tickNoteSlot_of_due due]
    exact (counted due.ge).applyNote _
  · rw [tickNoteSlot_of_pos later]
    exact counted later.le

theorem Configured.tickPressSlot (h : Configured s) (j : Fin Z.RP) : Configured (tickPressSlot s j) := by
  have counted (live : 0 ≤ (s.pres[j]).offset) :
      Configured { s with pres := s.pres.set j { s.pres[j] with offset := (s.pres[j]).offset - 1 } } :=
    ⟨h.1.setPress j (offsetForm_pred (h.offsets.2 j) live), h.2⟩
  rcases lt_trichotomy (s.pres[j]).offset 0 with free | due | later
  · rwa [tickPressSlot_of_free free]
  · rw [tickPressSlot_of_due due]
    exact (counted due.ge).applyPressure _ _
  · rw [tickPressSlot_of_pos later]
    exact counted later.le

theorem Configured.tick (h : Configured s) : Configured (tick s) :=
  List.foldlRecOn _ _
    (List.foldlRecOn _ _ (h.setVoices (poolForm_tickAges h.pool)) fun _ ht j _ => ht.tickNoteSlot j)
    fun _ ht j _ => ht.tickPressSlot j

/-- A configured core's cursors stand at elements its delay RAM has (48_delay.md R332). -/
theorem Configured.delayBacked (h : Configured s) : delayBacked s = true := by
  obtain ⟨-, short, long, left, right, -⟩ := h.cfg
  simp only [Machine.delayBacked, Bool.and_eq_true, decide_eq_true_eq]
  omega

theorem Configured.delayRun (h : Configured s) (xl xr : Num) : Configured (delayRun xl xr s).1 := by
  rw [delayRun_of_backed h.delayBacked]
  obtain ⟨stack, short, long, -, -, cfg⟩ := h.cfg
  obtain ⟨⟨units, ⟨param, wfLeft, wfRight, listed⟩, ⟨off, on, configured⟩, rings, pool, left, right⟩, valid⟩ := h
  obtain ⟨wfLeft', left', cursorLeft⟩ := delayChannel_form wfLeft left short (2 * s.free) xl
    (if s.cfg.dCross then s.dly.right.fb else s.dly.left.fb)
  obtain ⟨wfRight', right', cursorRight⟩ := delayChannel_form wfRight right short (2 * s.free + 1) xr
    (if s.cfg.dCross then s.dly.left.fb else s.dly.right.fb)
  obtain ⟨-, -, -, -, -, -, -, table⟩ := configured valid
  exact ⟨⟨units, ⟨param, wfLeft', wfRight', listed⟩,
    ⟨off, on, fun _ => ⟨stack.1, stack.2, short, long, cursorLeft, cursorRight, cfg, table⟩⟩, rings, pool, left',
    right'⟩, valid⟩

/-- One sample: TICK, MIX, DELAY.STEP, OUT, which writes the output port alone (49_processor.md R364). -/
theorem Configured.sample (h : Configured s) : Configured (sample s) := by
  have ticked := h.tick
  obtain ⟨-, -, -, -, -, cfg⟩ := ticked.cfg
  exact (ticked.setVoices (poolForm_mixVoices cfg ticked.pool _)).delayRun _ _

theorem Configured.samples (h : Configured s) (n : Nat) : Configured (samples n s) := by
  induction n generalizing s with
  | zero => exact h
  | succ n ih => exact ih h.sample

/-! ## The commands -/

/-- The next state is there, and keeps the invariant. -/
def KeepsInv (o : Host.Outcome (State Z) Fault Refusal) : Prop := ∃ t, o = .next t ∧ HostInv t

theorem keepsInv_next (h : HostInv s) : KeepsInv (.next s) := ⟨s, rfl, h⟩

/-- The audio state ACTIVATE and DEACTIVATE leave, with a STATUS that says the core is not configured (49_processor.md
R351, R352). -/
theorem HostInv.clearAudio (h : HostInv s) {dcap : Nat} {active : Bool} (off : active = false → dcap = 0)
    (on : active = true → 1 ≤ dcap ∧ dcap ≤ Z.DCAP_MAX) :
    HostInv { clearAudio s with dcap := dcap, status := ⟨active, false⟩ } := by
  obtain ⟨units, ⟨param, -, -, listed⟩, -⟩ := h
  obtain ⟨-, -, -, rings, -⟩ := hostInv_reset (Z := Z)
  exact ⟨units, ⟨param, rfl, rfl, listed⟩, ⟨fun h => ⟨rfl, off h⟩, on, nofun⟩, rings, poolForm_reset, delayForm_reset _,
    delayForm_reset _⟩

theorem keepsInv_activate (h : HostInv s) (fs : Num) : KeepsInv (execActivate fs s) := by
  have capacity : 1 ≤ delayCapacity Z fs ∧ delayCapacity Z fs ≤ Z.DCAP_MAX :=
    ⟨le_max_left _ _, max_le Z.dcap_max_pos (min_le_left _ _)⟩
  unfold execActivate
  split
  · exact keepsInv_next (h.raise _)
  · exact keepsInv_next (h.clearAudio nofun fun _ => capacity)

theorem keepsInv_deactivate (h : HostInv s) : KeepsInv (execDeactivate s) := by
  unfold execDeactivate
  split
  · exact keepsInv_next (h.clearAudio (fun _ => rfl) nofun)
  · exact keepsInv_next (h.raise _)

theorem HostInv.controlFrame (h : HostInv s) (ws : List Word) : HostInv (controlFrame s ws) := by
  unfold Machine.controlFrame
  split
  · exact h.pwriteTo _ _
  · exact h.raise _

/-- The frames that overlap a RECALC keep the invariant (20_memory.md R88). -/
theorem HostInv.afterOverlap (h : HostInv s) : HostInv (afterOverlap s) := by
  have frames : HostInv ((overlapping s).foldl Machine.controlFrame s) :=
    List.foldlRecOn _ _ h fun _ ht ws _ => ht.controlFrame ws
  unfold Machine.afterOverlap
  split
  · exact h
  · exact frames

/-- A RECALC configures an active core, whatever its snapshot (49_processor.md R353). -/
theorem HostInv.recalcWith (h : HostInv s) (active : s.status.active = true) (snap : Nat → Num) (fs : Num) :
    HostInv (recalcWith snap fs s) := by
  obtain ⟨units, ⟨param, wfLeft, wfRight, listed⟩, ⟨off, on, -⟩, rings, pool, left, right⟩ := h
  have ranges := rebuildCfg_ranges (Z := Z) snap fs s.cfg (on active).1
  have clipped (d : DelayChan) (len : Nat) : (clipCursor len d).ram = d.ram ∧ (clipCursor len d).fb = d.fb := by
    unfold clipCursor
    split <;> exact ⟨rfl, rfl⟩
  have delay {d : DelayChan} (hd : delayForm s.dcap d) (len : Nat) : delayForm s.dcap (clipCursor len d) := by
    obtain ⟨ram, fb⟩ := clipped d len
    rwa [delayForm, ram, fb]
  refine ⟨units, ⟨param, (clipped _ _).1.symm ▸ wfLeft, (clipped _ _).1.symm ▸ wfRight, listed⟩,
    ⟨fun inactive => absurd (active.symm.trans inactive) nofun, on, fun _ => ?_⟩, rings, pool, delay left _,
    delay right _⟩
  exact ⟨ranges.stackSize.1, ranges.stackSize.2, ranges.dLen.1, ranges.dLen.2, clipCursor_lt _ ranges.dLen.1,
    clipCursor_lt _ ranges.dLen.1, ranges.form, rebuildTables_form _⟩

theorem keepsInv_recalc (h : HostInv s) (fs : Num) : KeepsInv (execRecalc fs s) := by
  unfold execRecalc
  split
  case isTrue active =>
    obtain ⟨p, f, ws, n, overlapped⟩ := afterOverlap_eq s
    have status : (afterOverlap s).status = s.status := congrArg (·.status) overlapped
    exact keepsInv_next (h.afterOverlap.recalcWith (status ▸ active) _ _)
  case isFalse => exact keepsInv_next (h.raise _)

theorem configured_of_ready (h : HostInv s) (ready : ready s = true) : Configured s :=
  ⟨h, (Bool.and_eq_true_iff.mp ready).2⟩

/-- `Store` puts an offset in range into a slot of the note ring (46_scheduler.md R272). -/
theorem HostInv.storeNote (h : HostInv s) {e : NoteRes Z} (he : offsetForm e.offset) :
    HostInv { s with nres := storeNote s.nres e } := by
  obtain ⟨j, -, stored, -⟩ := store_takesSlot Z.rn_pos s.nres NoteRes.offset e
  rw [Machine.storeNote, stored]
  exact h.setNote j he

/-- And into a slot of the pressure ring. -/
theorem HostInv.storePress (h : HostInv s) {e : PressRes Z} (he : offsetForm e.offset) :
    HostInv { s with pres := storePress s.pres e } := by
  obtain ⟨j, -, stored, -⟩ := store_takesSlot Z.rp_pos s.pres PressRes.offset e
  rw [Machine.storePress, stored]
  exact h.setPress j he

theorem keepsInv_reserve (h : HostInv s) (ch : BitVec 8) (pitch velocity : Num) (id offset : Word) :
    KeepsInv (execReserve ch pitch velocity id offset s) := by
  unfold execReserve
  split
  case isTrue ready =>
    split
    · exact keepsInv_next (h.raise _)
    · split
      · exact keepsInv_next ((configured_of_ready h ready).applyNote _).1
      · exact keepsInv_next (h.storeNote (offsetForm_toInt (not_le.mp ‹_›)))
  case isFalse => exact keepsInv_next (h.raise _)

theorem keepsInv_reservep (h : HostInv s) (ch : BitVec 8) (pitch pressure : Num) (id offset : Word) :
    KeepsInv (execReservep ch pitch pressure id offset s) := by
  unfold execReservep
  split
  case isTrue ready =>
    split
    · exact keepsInv_next (h.raise _)
    · split
      · exact keepsInv_next ((configured_of_ready h ready).applyPressure _ _).1
      · exact keepsInv_next (h.storePress (offsetForm_toInt (not_le.mp ‹_›)))
  case isFalse => exact keepsInv_next (h.raise _)

theorem keepsInv_process (h : HostInv s) (fs : Num) (count : Word) : KeepsInv (execProcess fs count s) := by
  unfold execProcess
  split
  case isTrue ready =>
    split
    · exact keepsInv_next (h.raise _)
    · exact keepsInv_next ((configured_of_ready h ready).samples _).1
  case isFalse => exact keepsInv_next (h.raise _)

/-- Every host command has a next state, and it keeps the invariant. -/
theorem keepsInv_exec (h : HostInv s) {i : Instr Z} (hp : portOf i = .command) : KeepsInv (Z.exec i s) := by
  cases i
  case activate fs => exact keepsInv_activate h fs
  case deactivate => exact keepsInv_deactivate h
  case recalc fs => exact keepsInv_recalc h fs
  case reserve ch pitch velocity id offset => exact keepsInv_reserve h ch pitch velocity id offset
  case reservep ch pitch pressure id offset => exact keepsInv_reservep h ch pitch pressure id offset
  case process fs count => exact keepsInv_process h fs count
  case pwrite addr v => exact keepsInv_next (h.pwriteTo addr v)
  all_goals cases hp

/-! ## One step -/

/-- What a host port's frame decodes to is a host command (30_encoding.md R110, R117). -/
theorem portOf_of_decode {p : Port} (host : p ≠ .unitOp) {ws : List Word} {i : Instr Z} (h : decode Z p ws = .ok i) :
    portOf i = .command := by
  cases ws with
  | nil => cases h
  | cons w ops =>
    cases p with
    | command => exact (decodeCommand_eq_ok.mp h).1
    | control => exact (decodeCommand_eq_ok.mp (decodeControl_eq_ok.mp h).2).1
    | unitOp => exact absurd rfl host

/-- The port that a step takes a frame from is a host port. -/
theorem nextPort_ne_unitOp {p : Port} (h : nextPort s = some p) : p ≠ .unitOp := by
  unfold nextPort at h
  split_ifs at h <;> cases h <;> nofun

theorem HostInv.arbitrated (h : HostInv s) : HostInv (arbitrated s) := by
  unfold Machine.arbitrated
  split <;> exact h

theorem HostInv.consumeFrame (h : HostInv s) {p : Port} (host : p ≠ .unitOp) : HostInv (consumeFrame p s) := by
  cases p with
  | command => exact h
  | control => exact h
  | unitOp => exact absurd rfl host

theorem keepsInv_runFrame (h : HostInv s) {p : Port} (host : p ≠ .unitOp) : KeepsInv (runFrame Z.exec p s) := by
  unfold runFrame
  split
  case h_1 i decoded => exact keepsInv_exec (h.consumeFrame host) (portOf_of_decode host decoded)
  case h_2 => exact keepsInv_next ((h.consumeFrame host).raise _)

/-- Nothing waits on the unit port, so a step takes a frame of a host port or none. -/
theorem keepsInv_advance (h : HostInv s) : KeepsInv (advance Z.exec s) := by
  have quiet : ¬ frameReady .unitOp s.uops = true := by
    obtain ⟨empty, -⟩ := h
    rw [empty]
    exact Bool.false_ne_true
  rw [advance, if_neg quiet]
  split
  case h_1 => exact keepsInv_next h
  case h_2 p next => exact keepsInv_runFrame h.arbitrated (nextPort_ne_unitOp next)

/-- Hardware reset establishes the invariant, whatever the state was. -/
theorem hostInv_hardReset (s : State Z) : HostInv (hardReset s) := hostInv_reset

/-- Settles O10: a reset establishes the invariant (`hostInv_hardReset`), and what the ports hold, run for one step,
keeps it (`keepsInv_advance`). -/
theorem hostInvariantKept : Obligations.HostInvariantKept := by
  intro Z s h
  change KeepsInv (takeStep Z.exec s)
  unfold takeStep
  split
  case isTrue => exact keepsInv_next (hostInv_hardReset s)
  case isFalse =>
    split
    case h_1 => exact keepsInv_advance h
    case h_2 n _ =>
      obtain ⟨t, next, -⟩ := keepsInv_advance (s := { s with resetAfter := none }) h
      rw [next]
      exact keepsInv_next (hostInv_hardReset _)

end Sys2Proof.Machine
end

-- ==== Unit operations: the stack's, the delay's and the global Config ====
section
/-! PROOFS. CFG.STACK, CFG.DELAY and CFG.GLOBAL as the rules state them (47_stacked_voice.md R300, 48_delay.md R330,
49_processor.md R355). -/

namespace Sys2Proof.Machine

variable {Z : Config.Params}

/-! ## What each operation writes -/

theorem exec_cfgStack (s : State Z) :
    Z.exec .cfgStack s = .next (returned { s with cfg := cfgStackOf Z (paramRead s) s.cfg } []) := rfl

theorem exec_cfgDelay (s : State Z) :
    Z.exec .cfgDelay s = .next (returned { s with cfg := cfgDelayOf Z (paramRead s) s.dcap s.cfg } []) := rfl

theorem exec_cfgGlobal (fs : Num) (s : State Z) :
    Z.exec (.cfgGlobal fs) s = .next (returned { s with cfg := cfgGlobalOf Z (paramRead s) fs s.cfg } []) := rfl

/-! ## The registers and the clamps -/

/-- The three registers of the stack (10_state.md R41). -/
theorem paramRow_stack :
    paramRow Z 0x0900 = some ⟨n0, n1, n0⟩ ∧ paramRow Z 0x0901 = some ⟨n1, ofInt Z.NS, n1⟩ ∧
      paramRow Z 0x0902 = some ⟨n0, decimal 100 1, decimal 10 1⟩ := ⟨rfl, rfl, rfl⟩

/-- The six registers of the delay (10_state.md R39). -/
theorem paramRow_delay :
    paramRow Z 0x0700 = some ⟨n0, nHalf, decimal 1 4⟩ ∧ paramRow Z 0x0701 = some ⟨n0, n1, decimal 3 10⟩ ∧
      paramRow Z 0x0702 = some ⟨n0, n1, n0⟩ ∧ paramRow Z 0x0703 = some ⟨n0, decimal 160 1, n0⟩ ∧
      paramRow Z 0x0704 = some ⟨n0, decimal 160 1, decimal 160 1⟩ ∧ paramRow Z 0x0705 = some ⟨n0, n1, n0⟩ :=
  ⟨rfl, rfl, rfl, rfl, rfl, rfl⟩

/-- The five global registers, and the carrier's pan (10_state.md R34, R35). -/
theorem paramRow_global :
    paramRow Z 0x0000 = some ⟨n0, n1, nHalf⟩ ∧ paramRow Z 0x0001 = some ⟨negDecimal 48 1, decimal 48 1, n0⟩ ∧
      paramRow Z 0x0002 = some ⟨n0, n1, n0⟩ ∧ paramRow Z 0x0003 = some ⟨n0, n1, n0⟩ ∧
      paramRow Z 0x0004 = some ⟨n0, n1, n0⟩ ∧ paramRow Z 0x0105 = some ⟨nNeg1, n1, n0⟩ :=
  ⟨rfl, rfl, rfl, rfl, rfl, rfl⟩

/-- A clamp to `1..m` as the choice of the two ends and the number between them (R300, R330). -/
theorem clampInt_toNat (x : Int) (m : Nat) :
    (clampInt x 1 m).toNat = if x < 1 then 1 else if (m : Int) < x then m else x.toNat := by
  unfold clampInt
  split_ifs <;> simp

theorem cfgLp1Of_lowPass (cutoff : Num) (c : Cfg) :
    cfgLp1Of .lowPass cutoff c = { c with dLpAlpha := onePoleAlpha cutoff c.fs } := rfl

theorem cfgLp1Of_highPass (cutoff : Num) (c : Cfg) :
    cfgLp1Of .highPass cutoff c = { c with dHpAlpha := onePoleAlpha cutoff c.fs } := rfl

/-! ## The three operations -/

/-- Settles O33: every register is read by its row (`paramRow_stack`, `paramRow_delay`, `paramRow_global`), and the stack
size and the delay length are clamped as `clampInt_toNat` says. -/
theorem cfgStackDelayGlobalResults : Obligations.CfgStackDelayGlobalResults := by
  intro Z fs s v
  have reg {a : Nat} {lo hi d : Num} (row : paramRow Z a = some ⟨lo, hi, d⟩) :
      paramNum Z (paramRead s) a = v lo hi d a := by
    rw [paramNum_of_row _ row]
  refine ⟨?_, ?_, ?_⟩
  · intro n
    obtain ⟨mode, count, detune⟩ := paramRow_stack (Z := Z)
    have size : roundInt (v n1 (ofInt Z.NS) n1 0x0901) = n := rfl
    rw [exec_cfgStack, cfgStackOf, paramInt, paramBool, reg mode, reg count, reg detune, size, clampInt_toNat, toBool,
      returned]
  · intro len
    obtain ⟨time, feedback, cross, lowCut, highCut, mix⟩ := paramRow_delay (Z := Z)
    have length : roundInt (fmul (v n0 nHalf (decimal 1 4) 0x0700) s.cfg.fs) = len := rfl
    rw [exec_cfgDelay, cfgDelayOf, cfgLp1Of_lowPass, cfgLp1Of_highPass, paramBool, reg time, reg feedback, reg cross,
      reg lowCut, reg highCut, reg mix, length, clampInt_toNat, toBool, returned]
  · intro rate
    obtain ⟨master, bend, wheel, after, mono, pan⟩ := paramRow_global (Z := Z)
    have clamped : safeRate fs = rate := rfl
    rw [fneg_semitones, exec_cfgGlobal, cfgGlobalOf, clamped, paramBool, reg master, reg bend, reg wheel, reg after,
      reg mono, reg pan, toBool, returned]

end Sys2Proof.Machine
end

-- ==== Voices: starting and rendering ====
section
/-! PROOFS. VOICE.START and VOICE.RESTART, STACK.RENDER and VOICE.RENDER as schedules of unit operations, and the lifecycle
of a rendered voice (47_stacked_voice.md R301, R302, R304 to R312; 46_scheduler.md R279). -/

namespace Sys2Proof.Machine

variable {Z : Config.Params}

/-! ## What each operation writes -/

theorem exec_voiceStart (v : Fin Z.NV) (s : State Z) :
    Z.exec (.voiceStart v) s = .next (returned (setVoice s v (voiceStart s.voices[v])) []) := rfl

theorem exec_voiceRestart (v : Fin Z.NV) (s : State Z) :
    Z.exec (.voiceRestart v) s = .next (returned (setVoice s v (voiceRestart s.voices[v])) []) := rfl

theorem exec_stackRender (v : Fin Z.NV) (pm pn f : Num) (s : State Z) :
    Z.exec (.stackRender v pm pn f) s = .next (returned (setVoice s v (stackRender s.cfg s.voices[v] pm pn f).1)
      [(stackRender s.cfg s.voices[v] pm pn f).2.1, (stackRender s.cfg s.voices[v] pm pn f).2.2]) := rfl

theorem exec_voiceRender (v : Fin Z.NV) (s : State Z) :
    Z.exec (.voiceRender v) s = .next (returned (setVoice s v (voiceRender s.cfg s.voices[v]).1)
      [(voiceRender s.cfg s.voices[v]).2.1, (voiceRender s.cfg s.voices[v]).2.2]) := rfl

/-! ## VOICE.START and VOICE.RESTART (R301, R302) -/

/-- Settles O43: each operation replaces one voice, VOICE.START by one whose copies are `Vector.replicate`'s. -/
theorem voiceStartAndRestart : Obligations.VoiceStartAndRestart := by
  intro Z v s
  refine ⟨⟨_, exec_voiceStart v s, rfl, rfl, fun i other => getElem_setVoice_other s _ other, ?_⟩,
    exec_voiceRestart v s⟩
  rw [returned_voices, getElem_setVoice_same]
  exact ⟨fun k => by simp [voiceStart], rfl, rfl, rfl, rfl, rfl, rfl, rfl, rfl, rfl, rfl, rfl, rfl⟩

/-! ## Unit operations on one voice, one after the other -/

/-- What unit operations on voice `v` can leave of `s`: the voice is `w` and the last one returned `xs`. -/
def atVoice (s : State Z) (v : Fin Z.NV) (w : Voice Z) (xs : List Num) : State Z := returned (setVoice s v w) xs

theorem atVoice_self (s : State Z) (v : Fin Z.NV) : atVoice s v s.voices[v] s.ret = s := by
  rw [atVoice, setVoice_self, returned]

@[simp] theorem atVoice_cfg (s : State Z) (v : Fin Z.NV) (w : Voice Z) (xs : List Num) :
    (atVoice s v w xs).cfg = s.cfg := rfl

theorem getElem_atVoice (s : State Z) (v : Fin Z.NV) (w : Voice Z) (xs : List Num) :
    (atVoice s v w xs).voices[v] = w := getElem_setVoice_same s v w

@[simp] theorem result_atVoice (s : State Z) (v : Fin Z.NV) (w : Voice Z) (xs : List Num) (n : Nat) :
    result (atVoice s v w xs) n = xs.getD n n0 := rfl

/-- One more replacement of the voice, and one more result. -/
@[simp] theorem returned_setVoice_atVoice (s : State Z) (v : Fin Z.NV) (w w' : Voice Z) (xs ys : List Num) :
    returned (setVoice (atVoice s v w xs) v w') ys = atVoice s v w' ys := by
  rw [atVoice, setVoice_returned, setVoice_setVoice, returned_returned, atVoice]

/-- A schedule of unit operations on voice `v` that ends in the voice and the two values of an instruction's meaning is
that instruction, and leaves every other voice and the rest of the state. -/
theorem schedule_of_meaning {i : Instr Z} {s : State Z} {v : Fin Z.NV} {a : Voice Z × Num × Num}
    (meaning : Z.exec i s = .next (returned (setVoice s v a.1) [a.2.1, a.2.2])) {r : State Z × Num × Num}
    (schedule : ∃ xs, r = (atVoice s v a.1 xs, a.2)) :
    Z.exec i s = .next { r.1 with ret := [r.2.1, r.2.2] } ∧
      { r.1 with voices := s.voices, ret := s.ret } = s ∧ ∀ j, j ≠ v → r.1.voices[j] = s.voices[j] := by
  obtain ⟨xs, rfl⟩ := schedule
  exact ⟨meaning, rfl, fun j other => getElem_setVoice_other s a.1 other⟩

/-! ## STACK.RENDER (R309) -/

/-- SYNC.STEP, MOD.STEP and CAR.STEP of one copy are that copy's part of STACK.RENDER. -/
theorem issueCopy_atVoice (s : State Z) (v : Fin Z.NV) (pm f gl gr : Num) (xs : List Num) (a : Voice Z × Num × Num)
    (k : Fin Z.NS) :
    ∃ ys, issueCopy v pm f gl gr (atVoice s v a.1 xs, a.2) k =
      (atVoice s v (stackCopy s.cfg pm f gl gr a k).1 ys, (stackCopy s.cfg pm f gl gr a k).2) := by
  simp only [issueCopy, issue_syncStep, issue_modStep, issue_carStep, returned_setVoice_atVoice, getElem_atVoice,
    atVoice_cfg, result_atVoice]
  exact ⟨_, rfl⟩

theorem foldl_issueCopy_atVoice (s : State Z) (v : Fin Z.NV) (pm f gl gr : Num) (ks : List (Fin Z.NS)) (xs : List Num)
    (a : Voice Z × Num × Num) :
    ∃ ys, ks.foldl (issueCopy v pm f gl gr) (atVoice s v a.1 xs, a.2) =
      (atVoice s v (ks.foldl (stackCopy s.cfg pm f gl gr) a).1 ys, (ks.foldl (stackCopy s.cfg pm f gl gr) a).2) := by
  induction ks generalizing xs a with
  | nil => exact ⟨xs, rfl⟩
  | cons k ks ih =>
    obtain ⟨ys, first⟩ := issueCopy_atVoice s v pm f gl gr xs a k
    rw [List.foldl_cons, List.foldl_cons, first]
    exact ih ys _

/-- Settles O51: copy by copy (`foldl_issueCopy_atVoice`), with the gains of `panLaw`. -/
theorem stackRenderIsItsCopies : Obligations.StackRenderIsItsCopies := by
  intro Z v pm pn f s theta r
  have gains : panLaw (clamp (fadd s.cfg.pan pn) nNeg1 n1) = (fmul sqrt2 (cosNum theta), fmul sqrt2 (sinNum theta)) :=
    rfl
  have copies := foldl_issueCopy_atVoice s v pm f (fmul sqrt2 (cosNum theta)) (fmul sqrt2 (sinNum theta))
    ((List.finRange Z.NS).take (s.voices[v]).stackSize) s.ret (s.voices[v], n0, n0)
  rw [atVoice_self] at copies
  refine schedule_of_meaning (exec_stackRender v pm pn f s) ?_
  rw [stackRender, gains]
  dsimp only [indices]
  exact copies

/-! ## VOICE.RENDER (R304) -/

/-- An active destination's combiner computes its law, an inactive one gives the neutral value (44_modulation.md R236). -/
theorem combine_modAdd (active : Bool) (d : Dest) (p : PerSource) (neutral : Num) (s : State Z) :
    combine active (.modAdd d p) neutral s = if active then modAdd (destGet s.cfg.depth d) p else neutral := by
  rw [combine, issue_modAdd, result_returned, List.getD_cons_zero]

theorem combine_modMulbias (active : Bool) (d : Dest) (p : PerSource) (neutral : Num) (s : State Z) :
    combine active (.modMulbias d p) neutral s = if active then modMulbias Z (destGet s.cfg.depth d) p else neutral := by
  rw [combine, issue_modMulbias, result_returned, List.getD_cons_zero]

theorem combine_modPitch (active : Bool) (d : Dest) (p : PerSource) (neutral : Num) (s : State Z) :
    combine active (.modPitch d p) neutral s = if active then modPitch (destGet s.cfg.depth d) p else neutral := by
  rw [combine, issue_modPitch, result_returned, List.getD_cons_zero]

theorem sourceVector_atVoice (s : State Z) (v : Fin Z.NV) (w : Voice Z) (xs : List Num) (lfo e : Num) :
    sourceVector (atVoice s v w xs) v lfo e = sources s.cfg w lfo e := by
  rw [sourceVector, getElem_atVoice]
  rfl

/-- Stages 1 and 2: the modulation engine (44_modulation.md R236). -/
theorem issueEngine_atVoice (s : State Z) (v : Fin Z.NV) (w : Voice Z) (xs : List Num) (gate : Bool) :
    ∃ ys, issueEngine v gate (atVoice s v w xs) =
      (atVoice s v (modEngine s.cfg w gate).1 ys, (modEngine s.cfg w gate).2) := by
  simp only [issueEngine, combine_modAdd, combine_modMulbias, combine_modPitch, issue_envStep, issue_lfoStep,
    returned_setVoice_atVoice, sourceVector_atVoice, getElem_atVoice, atVoice_cfg, result_atVoice]
  exact ⟨_, rfl⟩

/-- Stage 7: the filter stage (R311). -/
theorem issueFilter_atVoice (s : State Z) (v : Fin Z.NV) (w : Voice Z) (m : ModOut) (xl xr : Num) (xs : List Num) :
    ∃ ys, issueFilter v m xl xr (atVoice s v w xs) =
      (atVoice s v (filterStage s.cfg w xl xr m.co m.rs m.mx).1 ys, (filterStage s.cfg w xl xr m.co m.rs m.mx).2) := by
  rw [issueFilter, filterStage, atVoice_cfg]
  split
  case isTrue =>
    simp only [issue_svfRetune, issue_svfStep, returned_setVoice_atVoice, getElem_atVoice, atVoice_cfg, result_returned]
    exact ⟨_, rfl⟩
  case isFalse => exact ⟨xs, rfl⟩

theorem releaseDone_iff (w : Voice Z) : releaseDone w = true ↔ w.state = .release ∧ feq w.amp.level n0 = true := by
  simp [releaseDone]

/-- Stage 8: the lifecycle check (R312). -/
theorem issueLifecycle_atVoice (s : State Z) (v : Fin Z.NV) (w : Voice Z) (xs : List Num) :
    issueLifecycle v (atVoice s v w xs) = atVoice s v (lifecycle w) xs := by
  simp only [issueLifecycle, lifecycle, releaseDone_iff, getElem_atVoice]
  split
  case isTrue => exact returned_setVoice_atVoice s v w _ xs _
  case isFalse => rfl

/-- VOICE.RENDER's stages in their order. -/
theorem issueVoice_atVoice (s : State Z) (v : Fin Z.NV) (w : Voice Z) (xs : List Num) :
    ∃ ys, issueVoice v (atVoice s v w xs) = (atVoice s v (voiceRender s.cfg w).1 ys, (voiceRender s.cfg w).2) := by
  have gate : decide (w.state = .active) = gateOf w := rfl
  obtain ⟨ms, engine⟩ := issueEngine_atVoice s v w xs (gateOf w)
  simp only [issueVoice, getElem_atVoice, gate, engine, issue_envStep, issue_stackRender, returned_setVoice_atVoice,
    atVoice_cfg, result_atVoice]
  obtain ⟨fs, filters⟩ := issueFilter_atVoice s v _ _ _ _ _
  rw [filters, issueLifecycle_atVoice]
  exact ⟨fs, rfl⟩

/-- Settles O52: stage by stage (`issueVoice_atVoice`). -/
theorem voiceRenderIsItsStages : Obligations.VoiceRenderIsItsStages := by
  intro Z v s r
  have stages := issueVoice_atVoice s v s.voices[v] s.ret
  rw [atVoice_self] at stages
  exact schedule_of_meaning (exec_voiceRender v s) stages

/-! ## The lifecycle of a rendered voice (R279, R312) -/

/-- VOICE.START zeroes a voice's DSP state and keeps the rest, so two voices that it makes equal differ in DSP state
alone. -/
theorem voiceStart_eq_iff {w v : Voice Z} : voiceStart w = voiceStart v ↔
    w.state = v.state ∧ w.note = v.note ∧ w.length = v.length ∧ w.pressure = v.pressure ∧ w.stackSize = v.stackSize ∧
      w.base = v.base := by
  simp [voiceStart]

theorem voiceStart_envVoice (c : Cfg) (v : Voice Z) (e : EnvSel) (gate : Bool) :
    voiceStart (envVoice c v e gate).1 = voiceStart v := by
  cases e <;> rfl

theorem voiceStart_modEngine (c : Cfg) (v : Voice Z) (gate : Bool) : voiceStart (modEngine c v gate).1 = voiceStart v :=
  rfl

theorem voiceStart_stackCopy (c : Cfg) (pm f gl gr : Num) (a : Voice Z × Num × Num) (k : Fin Z.NS) :
    voiceStart (stackCopy c pm f gl gr a k).1 = voiceStart a.1 := rfl

theorem voiceStart_stackRender (c : Cfg) (v : Voice Z) (pm pn f : Num) :
    voiceStart (stackRender c v pm pn f).1 = voiceStart v :=
  List.foldlRecOn (motive := fun a : Voice Z × Num × Num => voiceStart a.1 = voiceStart v) _ _ rfl
    fun a kept k _ => (voiceStart_stackCopy c pm f _ _ a k).trans kept

theorem voiceStart_filterStage (c : Cfg) (v : Voice Z) (xl xr co rs mx : Num) :
    voiceStart (filterStage c v xl xr co rs mx).1 = voiceStart v := by
  unfold filterStage
  split <;> rfl

/-- VOICE.RENDER changes DSP state alone, and then comes the lifecycle check. -/
theorem voiceRender_eq_lifecycle (c : Cfg) (v : Voice Z) :
    ∃ w, (voiceRender c v).1 = lifecycle w ∧ voiceStart w = voiceStart v :=
  ⟨_, rfl, by rw [voiceStart_filterStage, voiceStart_stackRender, voiceStart_envVoice, voiceStart_envVoice,
    voiceStart_modEngine]⟩

/-- The lifecycle check writes the state alone. -/
theorem lifecycle_eq (w : Voice Z) :
    lifecycle w =
      { w with state := if w.state = .release ∧ feq w.amp.level n0 = true then .inactive else w.state } := by
  simp only [lifecycle, releaseDone_iff]
  split <;> rfl

/-- Settles O53: what VOICE.RENDER keeps is what VOICE.START keeps (`voiceRender_eq_lifecycle`), but for the state that the
lifecycle check writes (`lifecycle_eq`). -/
theorem voiceLifecycle : Obligations.VoiceLifecycle := by
  intro Z v s
  obtain ⟨w, rendered, kept⟩ := voiceRender_eq_lifecycle s.cfg s.voices[v]
  obtain ⟨state, note, length, pressure, stackSize, base⟩ := voiceStart_eq_iff.mp kept
  refine ⟨_, exec_voiceRender v s, ?_⟩
  rw [returned_voices, getElem_setVoice_same, rendered, lifecycle_eq, ← state]
  refine ⟨fun active => ?_, fun inactive => ?_, fun release => ?_, note, length, pressure, stackSize, base⟩
  · simp [active]
  · simp [inactive]
  · simp [release]

end Sys2Proof.Machine
end

-- ==== Unit operations: the delay ====
section
/-! PROOFS. DELAY.STEP as the rules state it, and the delay line it makes (48_delay.md R331 to R335,
20_memory.md R84). -/

namespace Sys2Proof.Machine

variable {Z : Config.Params}

/-! ## One step of one channel (R331 to R335) -/

theorem exec_delayStep (xl xr : Num) (s : State Z) :
    Z.exec (.delayStep xl xr) s =
      .next (returned (delayRun xl xr s).1 [(delayRun xl xr s).2.1, (delayRun xl xr s).2.2]) := rfl

/-- The feedback gate, with its threshold written out (R334). -/
theorem fbGate_eq (v : Num) :
    fbGate v = if isFinite v = false ∨ flt (fabs v) (decimal 1 1000000) = true then n0 else v := by
  simp [fbGate, fbThreshold]

/-- The write puts the input with the feedback that enters it at the cursor, and nowhere else (R332). -/
theorem ramRead_delayChannel {c : Cfg} {dcap : Nat} {d : DelayChan} (wf : Memory.wf ramDefault d.ram = true)
    (tag : Nat) (x fbIn : Num) (a : Nat) :
    ramRead (delayChannel c dcap tag d x fbIn).1.ram a =
      if a = d.w ∧ d.w < dcap then fadd x fbIn else ramRead d.ram a := by
  obtain ⟨-, -, read⟩ := delayWrite_spec (dcap := dcap) (fadd x fbIn) wf
  exact read a

theorem delayChannel_wf {c : Cfg} {dcap : Nat} {d : DelayChan} (wf : Memory.wf ramDefault d.ram = true)
    (tag : Nat) (x fbIn : Num) : Memory.wf ramDefault (delayChannel c dcap tag d x fbIn).1.ram = true :=
  (delayWrite_spec _ wf).1

theorem delayChannel_cursor {c : Cfg} (pos : 0 < c.dLen) (dcap tag : Nat) (d : DelayChan) (x fbIn : Num) :
    (delayChannel c dcap tag d x fbIn).1.w = (d.w + 1) % c.dLen := nextCursor_of_pos pos

theorem delayBacked_iff {s : State Z} :
    delayBacked s = true ↔ s.dly.left.w < s.dcap ∧ s.dly.right.w < s.dcap ∧ 0 < s.cfg.dLen := by
  simp [delayBacked, and_assoc]

/-- Where the delay is backed by its RAM the free-value counter stands. -/
theorem delayRun_free_of_backed (xl xr : Num) {s : State Z} (h : delayBacked s = true) :
    (delayRun xl xr s).1.free = s.free := by
  rw [delayRun_of_backed h]

/-- Settles O54: both channels are `delayChannel`, whose element, cursor and gate are those of `ramRead_delayChannel`,
`delayChannel_cursor` and `fbGate_eq`. -/
theorem delayStepEffect : Obligations.DelayStepEffect := by
  intro Z xl xr s form
  obtain ⟨-, wfLeft, wfRight, -⟩ := form
  refine ⟨_, exec_delayStep xl xr s, rfl,
    fun left right pos => delayRun_free_of_backed xl xr (delayBacked_iff.mpr ⟨left, right, pos⟩), ?_⟩
  intro chan
  have stepped {d : DelayChan} (wf : Memory.wf ramDefault d.ram = true) (tag : Nat) (x fbIn : Num) :
      chan d (delayChannel s.cfg s.dcap tag d x fbIn).1 (fadd x fbIn) (delayChannel s.cfg s.dcap tag d x fbIn).2 :=
    ⟨delayRead s.dcap tag d, delayRead_of_lt, ramRead_delayChannel wf tag x fbIn,
      fun pos => delayChannel_cursor pos s.dcap tag d x fbIn, rfl, rfl, rfl, fbGate_eq _⟩
  exact ⟨_, _, rfl, stepped wfLeft (2 * s.free) xl _, stepped wfRight (2 * s.free + 1) xr _⟩

/-! ## A line in use: cursors below the length, and the length within the RAM -/

/-- The delay line is in use: each RAM is in canonical form, each cursor stands below the length, and the RAM has an
element for every place of the line. -/
structure LineReady (s : State Z) : Prop where
  wf : ∀ c, Memory.wf ramDefault (chanGet s.dly c).ram = true
  cursor : ∀ c, (chanGet s.dly c).w < s.cfg.dLen
  short : s.cfg.dLen ≤ s.dcap

/-- What DELAY.STEP writes to a channel's line: its dry input and the feedback of the previous sample, the other
channel's when crossing (R331). -/
def lineInput (s : State Z) (x : Num × Num) : Chan → Num
  | .left => fadd x.1 (if s.cfg.dCross then s.dly.right.fb else s.dly.left.fb)
  | .right => fadd x.2 (if s.cfg.dCross then s.dly.left.fb else s.dly.right.fb)

theorem issue_delayStep_cfg (xl xr : Num) (s : State Z) : (issue (.delayStep xl xr) s).cfg = s.cfg := rfl

/-- After DELAY.STEP a channel is what `delayChannel` makes of it and its `lineInput`. -/
theorem chanGet_issue_delayStep (x : Num × Num) (s : State Z) (c : Chan) :
    ∃ tag y fbIn, fadd y fbIn = lineInput s x c ∧
      chanGet (issue (.delayStep x.1 x.2) s).dly c = (delayChannel s.cfg s.dcap tag (chanGet s.dly c) y fbIn).1 := by
  cases c with
  | left => exact ⟨_, _, _, rfl, rfl⟩
  | right => exact ⟨_, _, _, rfl, rfl⟩

namespace LineReady

variable {s : State Z}

theorem pos (h : LineReady s) : 0 < s.cfg.dLen := Nat.zero_lt_of_lt (h.cursor .left)

/-- One DELAY.STEP counts each cursor on (R332). -/
theorem cursor_issue (h : LineReady s) (x : Num × Num) (c : Chan) :
    (chanGet (issue (.delayStep x.1 x.2) s).dly c).w = ((chanGet s.dly c).w + 1) % s.cfg.dLen := by
  obtain ⟨tag, y, fbIn, -, chan⟩ := chanGet_issue_delayStep x s c
  rw [chan, delayChannel_cursor h.pos]

/-- One DELAY.STEP writes a channel's input at its cursor and leaves the rest of the line (R332). -/
theorem ramRead_issue (h : LineReady s) (x : Num × Num) (c : Chan) (a : Nat) :
    ramRead (chanGet (issue (.delayStep x.1 x.2) s).dly c).ram a =
      if a = (chanGet s.dly c).w then lineInput s x c else ramRead (chanGet s.dly c).ram a := by
  obtain ⟨tag, y, fbIn, input, chan⟩ := chanGet_issue_delayStep x s c
  have backed : (chanGet s.dly c).w < s.dcap := (h.cursor c).trans_le h.short
  simp only [chan, ramRead_delayChannel (h.wf c), input, and_iff_left backed]

/-- DELAY.STEP leaves a line in use. -/
theorem step (h : LineReady s) (x : Num × Num) : LineReady (issue (.delayStep x.1 x.2) s) where
  wf c := by
    obtain ⟨tag, y, fbIn, -, chan⟩ := chanGet_issue_delayStep x s c
    rw [chan]
    exact delayChannel_wf (h.wf c) tag y fbIn
  cursor c := by
    rw [h.cursor_issue, issue_delayStep_cfg]
    exact Nat.mod_lt _ h.pos
  short := h.short

end LineReady

/-! ## Many steps -/

theorem issueDelay_cons (x : Num × Num) (xs : List (Num × Num)) (s : State Z) :
    issueDelay (x :: xs) s = issueDelay xs (issue (.delayStep x.1 x.2) s) := rfl

/-- One input more is one DELAY.STEP more. -/
theorem issueDelay_take_succ {xs : List (Num × Num)} {n : Nat} (h : n < xs.length) (s : State Z) :
    issueDelay (xs.take (n + 1)) s = issue (.delayStep xs[n].1 xs[n].2) (issueDelay (xs.take n) s) := by
  rw [List.take_succ_eq_append_getElem h, issueDelay, List.foldl_append]
  rfl

theorem issueDelay_cfg (xs : List (Num × Num)) (s : State Z) : (issueDelay xs s).cfg = s.cfg :=
  List.foldlRecOn (motive := fun t : State Z => t.cfg = s.cfg) xs _ rfl
    fun t kept x _ => (issue_delayStep_cfg x.1 x.2 t).trans kept

/-- Two places of the line fewer than its length apart are different. -/
theorem add_mod_ne {w n k len : Nat} (hn : n < k) (hk : k < len) : (w + n) % len ≠ (w + k) % len := fun same =>
  hn.ne (Nat.ModEq.eq_of_lt_of_lt (Nat.ModEq.add_left_cancel' w same) (hn.trans hk) hk)

namespace LineReady

variable {s : State Z}

theorem steps (h : LineReady s) (xs : List (Num × Num)) : LineReady (issueDelay xs s) :=
  List.foldlRecOn (motive := LineReady) xs _ h fun _ ready x _ => ready.step x

/-- The cursors count the inputs modulo the length. -/
theorem cursor_issueDelay (h : LineReady s) (xs : List (Num × Num)) (c : Chan) :
    (chanGet (issueDelay xs s).dly c).w = ((chanGet s.dly c).w + xs.length) % s.cfg.dLen := by
  induction xs generalizing s with
  | nil => exact (Nat.mod_eq_of_lt (h.cursor c)).symm
  | cons x xs ih =>
    rw [issueDelay_cons, ih (h.step x), h.cursor_issue, issue_delayStep_cfg, Nat.mod_add_mod, List.length_cons,
      Nat.add_assoc, Nat.add_comm 1]

/-- After `k` inputs, no more than the line has places, input `n` is where its step wrote it: each later step writes
elsewhere. -/
theorem ramRead_issueDelay_take (h : LineReady s) {xs : List (Num × Num)} (fits : xs.length ≤ s.cfg.dLen) (c : Chan)
    {n k : Nat} (hn : n < k) (hk : k ≤ xs.length) :
    ramRead (chanGet (issueDelay (xs.take k) s).dly c).ram (((chanGet s.dly c).w + n) % s.cfg.dLen) =
      lineInput (issueDelay (xs.take n) s) xs[n] c := by
  have at_cursor {m : Nat} (hm : m < xs.length) :
      (chanGet (issueDelay (xs.take m) s).dly c).w = ((chanGet s.dly c).w + m) % s.cfg.dLen := by
    rw [h.cursor_issueDelay, List.length_take_of_le hm.le]
  induction k, hn using Nat.le_induction with
  | base => rw [issueDelay_take_succ hk, (h.steps _).ramRead_issue, if_pos (at_cursor hk).symm]
  | succ k later ih =>
    have elsewhere := add_mod_ne (w := (chanGet s.dly c).w) later (Nat.lt_of_lt_of_le hk fits)
    rw [issueDelay_take_succ hk, (h.steps _).ramRead_issue, at_cursor hk, if_neg elsewhere, ih (Nat.le_of_lt hk)]

end LineReady

/-- Settles O55: `dLen` steps bring each cursor round once (`LineReady.cursor_issueDelay`), and no step writes over the
input of another (`LineReady.ramRead_issueDelay_take`). -/
theorem delayLineReturnsInput : Obligations.DelayLineReturnsInput := by
  intro Z xs s form left right short full t
  obtain ⟨-, wfLeft, wfRight, -⟩ := form
  have ready : LineReady s :=
    { wf := fun | .left => wfLeft | .right => wfRight
      cursor := fun | .left => left | .right => right
      short := short }
  have back (c : Chan) : (chanGet t.dly c).w = (chanGet s.dly c).w := by
    rw [ready.cursor_issueDelay, full, Nat.add_mod_right, Nat.mod_eq_of_lt (ready.cursor c)]
  refine ⟨back .left, back .right, ?_⟩
  intro n hn u
  have kept (c : Chan) :
      ramRead (chanGet t.dly c).ram (((chanGet s.dly c).w + n) % s.cfg.dLen) = lineInput u xs[n] c := by
    have last := ready.ramRead_issueDelay_take full.le c hn le_rfl
    rwa [List.take_length] at last
  have cross : u.cfg.dCross = s.cfg.dCross := congrArg Cfg.dCross (issueDelay_cfg _ s)
  rw [← cross]
  exact ⟨kept .left, kept .right⟩

end Sys2Proof.Machine
end

-- ==== State: FAULT is a record ====
section
/-! PROOFS. What FAULT holds never influences the rest of the state, every instruction has a next state, and no unit
operation raises a fault (60_exceptions.md R390, R394). -/

namespace Sys2Proof.Machine

variable {Z : Config.Params} {s t : State Z}

/-! ## States that differ in FAULT alone -/

/-- `t` is `s` with a cause of its own in FAULT. -/
def SameButFault (s t : State Z) : Prop := ∃ c, t = { s with fault := c }

/-- Both outcomes are next states, and these differ in FAULT alone. -/
def SameNext (o o' : Host.Outcome (State Z) Fault Refusal) : Prop :=
  ∃ u u', o = .next u ∧ o' = .next u' ∧ SameButFault u u'

theorem SameButFault.refl (s : State Z) : SameButFault s s := ⟨s.fault, rfl⟩

theorem SameButFault.next (h : SameButFault s t) : SameNext (.next s) (.next t) := ⟨s, t, rfl, rfl, h⟩

/-- Raising reads FAULT to write FAULT (R392). -/
theorem SameButFault.raise (h : SameButFault s t) (cause : Cause) : SameButFault (raise cause s) (raise cause t) := by
  obtain ⟨c, rfl⟩ := h
  rw [raise_eq_latched, raise_eq_latched]
  exact ⟨_, rfl⟩

/-- What keeps the relation at each element keeps it over a list. -/
theorem SameButFault.foldl {ι : Type} {f : State Z → ι → State Z}
    (step : ∀ {s t}, SameButFault s t → ∀ j, SameButFault (f s j) (f t j)) (js : List ι) (h : SameButFault s t) :
    SameButFault (js.foldl f s) (js.foldl f t) := by
  induction js generalizing s t with
  | nil => exact h
  | cons j js ih => exact ih (step h j)

/-! ## PWRITE and the frames that overlap a RECALC -/

theorem SameButFault.pwriteTo (h : SameButFault s t) (addr : BitVec 16) (v : Num) :
    SameButFault (pwriteTo addr v s) (pwriteTo addr v t) := by
  unfold Machine.pwriteTo
  split
  · obtain ⟨c, rfl⟩ := h
    exact ⟨c, rfl⟩
  · exact h.raise _

theorem SameButFault.controlFrame (h : SameButFault s t) (ws : List Word) :
    SameButFault (controlFrame s ws) (controlFrame t ws) := by
  unfold Machine.controlFrame
  split
  · exact h.pwriteTo _ _
  · exact h.raise _

theorem SameButFault.paramRead_eq (h : SameButFault s t) : paramRead t = paramRead s := by
  obtain ⟨c, rfl⟩ := h
  rfl

theorem SameButFault.valuesTaken_eq (h : SameButFault s t) (a : Nat) (fs : List (List Word)) :
    valuesTaken t a fs = valuesTaken s a fs := by
  induction fs generalizing s t with
  | nil => rw [valuesTaken, valuesTaken, h.paramRead_eq]
  | cons ws fs ih => rw [valuesTaken, valuesTaken, h.paramRead_eq, ih (h.controlFrame ws)]

theorem SameButFault.overlapping_eq (h : SameButFault s t) : overlapping t = overlapping s := by
  obtain ⟨c, rfl⟩ := h
  rfl

theorem SameButFault.snapshot_eq (h : SameButFault s t) : snapshot t = snapshot s := by
  have free : t.free = s.free := by obtain ⟨c, rfl⟩ := h; rfl
  funext a
  unfold snapshot
  simp only [h.overlapping_eq, h.valuesTaken_eq, h.paramRead_eq, free]

theorem SameButFault.afterOverlap (h : SameButFault s t) : SameButFault (afterOverlap s) (afterOverlap t) := by
  unfold Machine.afterOverlap
  rw [h.overlapping_eq]
  split
  · exact h
  · obtain ⟨c', frames⟩ := h.foldl controlFrame (overlapping s)
    obtain ⟨c, rfl⟩ := h
    exact ⟨c', by rw [frames]⟩

theorem SameButFault.recalcWith (h : SameButFault s t) (snap : Nat → Num) (fs : Num) :
    SameButFault (recalcWith snap fs s) (recalcWith snap fs t) := by
  obtain ⟨c, rfl⟩ := h
  exact ⟨c, rfl⟩

/-! ## Ticks and samples -/

theorem SameButFault.tickNoteSlot (h : SameButFault s t) (j : Fin Z.RN) :
    SameButFault (tickNoteSlot s j) (tickNoteSlot t j) := by
  obtain ⟨c, rfl⟩ := h
  unfold Machine.tickNoteSlot
  dsimp only
  split_ifs <;> exact ⟨c, rfl⟩

theorem SameButFault.tickPressSlot (h : SameButFault s t) (j : Fin Z.RP) :
    SameButFault (tickPressSlot s j) (tickPressSlot t j) := by
  obtain ⟨c, rfl⟩ := h
  unfold Machine.tickPressSlot
  dsimp only
  split_ifs <;> exact ⟨c, rfl⟩

theorem SameButFault.tick (h : SameButFault s t) : SameButFault (tick s) (tick t) := by
  have ages : SameButFault { s with voices := tickAges s.voices } { t with voices := tickAges t.voices } := by
    obtain ⟨c, rfl⟩ := h
    exact ⟨c, rfl⟩
  exact foldl tickPressSlot _ (foldl tickNoteSlot _ ages)

theorem SameButFault.sample (h : SameButFault s t) : SameButFault (sample s) (sample t) := by
  obtain ⟨c, ticked⟩ := h.tick
  unfold Machine.sample
  rw [ticked]
  exact ⟨c, rfl⟩

theorem SameButFault.samples (h : SameButFault s t) (n : Nat) : SameButFault (samples n s) (samples n t) := by
  induction n generalizing s t with
  | zero => exact h
  | succ n ih => exact ih h.sample

/-! ## Instructions -/

/-- A check that both states answer alike. -/
theorem SameNext.ite {p q : Prop} [Decidable p] [Decidable q] {o₁ o₂ o₁' o₂' : Host.Outcome (State Z) Fault Refusal}
    (same : q ↔ p) (yes : SameNext o₁ o₁') (no : SameNext o₂ o₂') :
    SameNext (if p then o₁ else o₂) (if q then o₁' else o₂') := by
  by_cases hp : p
  · rwa [if_pos hp, if_pos (same.mpr hp)]
  · rwa [if_neg hp, if_neg (mt same.mp hp)]

theorem SameButFault.ready_iff (h : SameButFault s t) : ready t = true ↔ ready s = true := by
  obtain ⟨c, rfl⟩ := h
  rfl

theorem SameButFault.active_iff (h : SameButFault s t) : t.status.active = true ↔ s.status.active = true := by
  obtain ⟨c, rfl⟩ := h
  rfl

/-- No unit operation reads FAULT. -/
theorem SameButFault.exec_unitOp (h : SameButFault s t) {i : Instr Z} (hp : portOf i = .unitOp) :
    SameNext (Z.exec i s) (Z.exec i t) := by
  cases i <;> cases hp
  case tick =>
    obtain ⟨c, ticked⟩ := h.tick
    exact ⟨_, _, rfl, rfl, c, congrArg (returned · []) ticked⟩
  all_goals
    obtain ⟨c, rfl⟩ := h
    exact ⟨_, _, rfl, rfl, c, rfl⟩

theorem SameButFault.execReserve (h : SameButFault s t) (ch : BitVec 8) (pitch velocity : Num) (id offset : Word) :
    SameNext (execReserve ch pitch velocity id offset s) (execReserve ch pitch velocity id offset t) := by
  refine .ite h.ready_iff ?_ (h.raise _).next
  cases noteOperand (Z := Z) ch pitch velocity velocity id with
  | none => exact (h.raise _).next
  | some ev =>
    obtain ⟨c, rfl⟩ := h
    exact .ite Iff.rfl ⟨_, _, rfl, rfl, c, rfl⟩ ⟨_, _, rfl, rfl, c, rfl⟩

theorem SameButFault.execReservep (h : SameButFault s t) (ch : BitVec 8) (pitch pressure : Num) (id offset : Word) :
    SameNext (execReservep ch pitch pressure id offset s) (execReservep ch pitch pressure id offset t) := by
  refine .ite h.ready_iff ?_ (h.raise _).next
  cases noteOperand (Z := Z) ch pitch pressure n0 id with
  | none => exact (h.raise _).next
  | some ev =>
    obtain ⟨c, rfl⟩ := h
    exact .ite Iff.rfl ⟨_, _, rfl, rfl, c, rfl⟩ ⟨_, _, rfl, rfl, c, rfl⟩

/-- Every instruction has a next state, and states that differ in FAULT alone lead to ones that do. -/
theorem SameButFault.exec (h : SameButFault s t) (i : Instr Z) : SameNext (Z.exec i s) (Z.exec i t) := by
  cases i
  case activate fs =>
    refine .ite h.active_iff (h.raise _).next ?_
    obtain ⟨c, rfl⟩ := h
    exact ⟨_, _, rfl, rfl, c, rfl⟩
  case deactivate =>
    refine .ite h.active_iff ?_ (h.raise _).next
    obtain ⟨c, rfl⟩ := h
    exact ⟨_, _, rfl, rfl, c, rfl⟩
  case recalc fs =>
    refine .ite h.active_iff ?_ (h.raise _).next
    rw [h.snapshot_eq]
    exact (h.afterOverlap.recalcWith _ _).next
  case reserve ch pitch velocity id offset => exact h.execReserve ch pitch velocity id offset
  case reservep ch pitch pressure id offset => exact h.execReservep ch pitch pressure id offset
  case process fs count =>
    exact .ite h.ready_iff (.ite Iff.rfl (h.raise _).next (h.samples _).next) (h.raise _).next
  case pwrite addr v => exact (h.pwriteTo addr v).next
  all_goals exact h.exec_unitOp rfl

/-- Settles O17: the relation `SameButFault` is kept by every instruction (`SameButFault.exec`). -/
theorem faultIsARecord : Obligations.FaultIsARecord := by
  intro Z i s t c h
  have related : SameButFault s { s with fault := c } := ⟨c, rfl⟩
  obtain ⟨u, u', hu, hu', c', rfl⟩ := related.exec i
  obtain rfl : t = u := Host.Outcome.next.inj (h.symm.trans hu)
  exact ⟨_, hu', rfl⟩

/-! ## Unit operations raise nothing (R390) -/

/-- Every instruction has a next state in every state. -/
theorem exec_next (i : Instr Z) (s : State Z) : ∃ t, Z.exec i s = .next t := by
  obtain ⟨t, -, ht, -⟩ := (SameButFault.refl s).exec i
  exact ⟨t, ht⟩

/-- No unit operation changes STATUS. -/
theorem exec_unitOp_status {i : Instr Z} (hp : portOf i = .unitOp) (h : Z.exec i s = .next t) :
    t.status = s.status := by
  cases i <;> cases hp
  case tick =>
    obtain ⟨vs, n, p, ticked⟩ := tick_eq s
    cases h
    rw [returned_status, ticked]
  case delayStep xl xr => cases h; rfl
  all_goals cases h; simp

/-- Settles O16: FAULT and STATUS operation by operation (`exec_unitOp_fault`, `exec_unitOp_status`). -/
theorem unitOperationsRaiseNothing : Obligations.UnitOperationsRaiseNothing := fun _ =>
  ⟨fun _ _ _ hp h => ⟨exec_unitOp_fault hp h, exec_unitOp_status hp h⟩, exec_next⟩

end Sys2Proof.Machine
end

-- ==== State: what each tier writes ====
section
/-! PROOFS. What the operations of each tier write (60_exceptions.md R398), and the canonical form of PARAM and of the
delay RAMs, which every instruction keeps (assumption 12). -/

namespace Sys2Proof.Machine

variable {Z : Config.Params} {i : Instr Z} {s t : State Z}

/-! ## What an instruction of each tier can write -/

/-- Raising a fault as an update of FAULT alone. -/
theorem raise_eq (c : Cause) (s : State Z) : ∃ f, raise c s = { s with fault := f } := ⟨_, raise_eq_latched c s⟩

/-- ACTIVATE and DEACTIVATE write neither PARAM nor a port. -/
theorem exec_init_eq (tier : tierOf i = .init) (h : Z.exec i s = .next t) :
    ∃ status fault cfg dcap table voices nres pres dly free,
      t = { s with status := status, fault := fault, cfg := cfg, dcap := dcap, table := table, voices := voices,
                   nres := nres, pres := pres, dly := dly, free := free } := by
  obtain ⟨f, raised⟩ := raise_eq .badState s
  cases i <;> cases tier
  case activate fs =>
    simp only [Config.Params.exec, execActivate, raised] at h
    split at h <;> cases h <;> exact ⟨_, _, _, _, _, _, _, _, _, _, rfl⟩
  case deactivate =>
    simp only [Config.Params.exec, execDeactivate, raised] at h
    split at h <;> cases h <;> exact ⟨_, _, _, _, _, _, _, _, _, _, rfl⟩

/-- The clip of a cursor writes the cursor alone (48_delay.md R337). -/
theorem clipCursor_eq (len : Nat) (d : DelayChan) :
    clipCursor len d = { d with w := if len ≤ d.w then 0 else d.w } := by
  unfold clipCursor
  split <;> rfl

/-- A RECALC that nothing overlaps and the CFG operations write CFG, TABLE, the cursors, `cfgValid` and FAULT. -/
theorem exec_event_eq (tier : tierOf i = .event) (quiet : frameReady .control s.ctl = false)
    (h : Z.exec i s = .next t) :
    ∃ valid fault cfg table wl wr ret,
      t = { s with status := { s.status with cfgValid := valid }, fault := fault, cfg := cfg, table := table,
                   dly := ⟨{ s.dly.left with w := wl }, { s.dly.right with w := wr }⟩, ret := ret } := by
  cases i <;> cases tier
  case recalc fs =>
    by_cases active : s.status.active = true
    · rw [Config.Params.exec, execRecalc_of_not_ready active quiet, recalcWith, clipCursor_eq, clipCursor_eq] at h
      cases h
      exact ⟨_, _, _, _, _, _, _, rfl⟩
    · obtain ⟨f, raised⟩ := raise_eq .badState s
      rw [Config.Params.exec, execRecalc, if_neg active, raised] at h
      cases h
      exact ⟨_, _, _, _, _, _, _, rfl⟩
  all_goals
    cases h
    exact ⟨_, _, _, _, _, _, _, rfl⟩

/-- An operation of the audio tier writes voices, rings, the delay and the output, FAULT, the result latch and the
free-value counter. -/
theorem exec_audio_eq (tier : tierOf i = .audio) (h : Z.exec i s = .next t) :
    ∃ fault voices nres pres dly out ret free,
      t = { s with fault := fault, voices := voices, nres := nres, pres := pres, dly := dly, out := out, ret := ret,
                   free := free } := by
  obtain ⟨f, badState⟩ := raise_eq .badState s
  obtain ⟨g, badOperand⟩ := raise_eq .badOperand s
  cases i <;> cases tier
  case reserve | reservep =>
    simp only [Config.Params.exec, execReserve, execReservep, badState, badOperand] at h
    repeat' split at h
    all_goals
      cases h
      exact ⟨_, _, _, _, _, _, _, _, rfl⟩
  case process fs count =>
    obtain ⟨vs, nr, pr, d, free, os, sampled, -⟩ := samples_eq (i32 count).toNat s
    simp only [Config.Params.exec, execProcess, badState, badOperand, sampled] at h
    repeat' split at h
    all_goals
      cases h
      exact ⟨_, _, _, _, _, _, _, _, rfl⟩
  case tick =>
    obtain ⟨vs, n, p, ticked⟩ := tick_eq s
    rw [Config.Params.exec, execTick, ticked] at h
    cases h
    exact ⟨_, _, _, _, _, _, _, _, rfl⟩
  all_goals
    cases h
    exact ⟨_, _, _, _, _, _, _, _, rfl⟩

/-- PWRITE writes PARAM and FAULT. -/
theorem exec_hostSide_eq (tier : tierOf i = .hostSide) (h : Z.exec i s = .next t) :
    ∃ param fault, t = { s with param := param, fault := fault } := by
  cases i <;> cases tier
  case pwrite addr v =>
    cases h
    exact pwriteTo_eq addr v s

/-- Settles O18: tier by tier (`exec_init_eq`, `exec_event_eq`, `exec_audio_eq`, `exec_hostSide_eq`). -/
theorem tiersWriteTheirOwn : Obligations.TiersWriteTheirOwn := by
  intro Z i s t h
  refine ⟨fun tier => ?_, fun tier quiet => ?_, fun tier => ?_, fun tier => ?_⟩
  · obtain ⟨_, _, _, _, _, _, _, _, _, _, rfl⟩ := exec_init_eq tier h
    exact ⟨rfl, rfl⟩
  · obtain ⟨_, _, _, _, _, _, _, rfl⟩ := exec_event_eq tier quiet h
    exact ⟨rfl, rfl, rfl, rfl, fun c => by cases c <;> rfl, rfl, rfl, rfl⟩
  · obtain ⟨_, _, _, _, _, _, _, _, rfl⟩ := exec_audio_eq tier h
    exact ⟨rfl, rfl, rfl, rfl, rfl⟩
  · obtain ⟨_, _, rfl⟩ := exec_hostSide_eq tier h
    rfl

/-! ## The canonical form of the element spaces -/

/-- The form is about PARAM and the two RAMs alone. -/
theorem memoryForm_of_eq (form : memoryForm s) (param : t.param = s.param) (left : t.dly.left.ram = s.dly.left.ram)
    (right : t.dly.right.ram = s.dly.right.ram) : memoryForm t := by
  rw [memoryForm, param, left, right]
  exact form

theorem memoryForm_raise (form : memoryForm s) (c : Cause) : memoryForm (raise c s) :=
  memoryForm_of_eq form (raise_param c s) (by rw [raise_dly]) (by rw [raise_dly])

/-- PWRITE keeps the form: it writes mapped registers alone (49_processor.md R350). -/
theorem memoryForm_pwriteTo (form : memoryForm s) (addr : BitVec 16) (v : Num) : memoryForm (pwriteTo addr v s) := by
  unfold pwriteTo
  split
  case isTrue known =>
    obtain ⟨param, left, right, listed⟩ := form
    refine ⟨wf_memWrite param _ _, left, right, fun e he => ?_⟩
    rcases mem_memWrite he with here | before
    · exact here ▸ known
    · exact listed e before
  case isFalse => exact memoryForm_raise form _

theorem memoryForm_controlFrame (form : memoryForm s) (ws : List Word) : memoryForm (controlFrame s ws) := by
  unfold controlFrame
  split
  · exact memoryForm_pwriteTo form _ _
  · exact memoryForm_raise form _

theorem memoryForm_afterOverlap (form : memoryForm s) : memoryForm (afterOverlap s) := by
  have frames : memoryForm ((overlapping s).foldl controlFrame s) :=
    List.foldlRecOn _ _ form fun _ kept ws _ => memoryForm_controlFrame kept ws
  unfold afterOverlap
  split
  · exact form
  · exact frames

theorem clipCursor_ram (len : Nat) (d : DelayChan) : (clipCursor len d).ram = d.ram := by rw [clipCursor_eq]

theorem memoryForm_recalcWith (form : memoryForm s) (snap : Nat → Num) (fs : Num) :
    memoryForm (recalcWith snap fs s) :=
  memoryForm_of_eq form rfl (clipCursor_ram _ _) (clipCursor_ram _ _)

/-- ACTIVATE and DEACTIVATE empty the RAMs (49_processor.md R351, R352). -/
theorem memoryForm_clearAudio (form : memoryForm s) : memoryForm (clearAudio s) := by
  obtain ⟨param, -, -, listed⟩ := form
  exact ⟨param, rfl, rfl, listed⟩

/-- DELAY.STEP keeps the form of the RAM it writes (48_delay.md R332). -/
theorem memoryForm_delayRun (form : memoryForm s) (xl xr : Num) : memoryForm (delayRun xl xr s).1 := by
  obtain ⟨param, left, right, listed⟩ := form
  exact ⟨param, delayChannel_wf left _ _ _, delayChannel_wf right _ _ _, listed⟩

theorem memoryForm_tick (form : memoryForm s) : memoryForm (tick s) := by
  obtain ⟨vs, n, p, ticked⟩ := tick_eq s
  exact memoryForm_of_eq form (by rw [ticked]) (by rw [ticked]) (by rw [ticked])

theorem memoryForm_sample (form : memoryForm s) : memoryForm (sample s) :=
  memoryForm_delayRun (memoryForm_of_eq (memoryForm_tick form) rfl rfl rfl) _ _

theorem memoryForm_samples (form : memoryForm s) (n : Nat) : memoryForm (samples n s) := by
  induction n generalizing s with
  | zero => exact form
  | succ n ih => exact ih (memoryForm_sample form)

/-- The next state is there, and its memories are in form. -/
def FormKept (o : Host.Outcome (State Z) Fault Refusal) : Prop := ∃ t, o = .next t ∧ memoryForm t

theorem formKept_next (form : memoryForm s) : FormKept (.next s) := ⟨s, rfl, form⟩

theorem FormKept.ite {p : Prop} [Decidable p] {o o' : Host.Outcome (State Z) Fault Refusal} (yes : FormKept o)
    (no : FormKept o') : FormKept (if p then o else o') := by
  split
  · exact yes
  · exact no

/-- The operations that write a memory keep its form, those that clear one leave it empty, and the others write none. -/
theorem formKept_exec (form : memoryForm s) (i : Instr Z) : FormKept (Z.exec i s) := by
  have raised (c : Cause) : FormKept (.next (raise c s)) := formKept_next (memoryForm_raise form c)
  cases i
  case activate fs => exact .ite (raised _) (formKept_next (memoryForm_of_eq (memoryForm_clearAudio form) rfl rfl rfl))
  case deactivate => exact .ite (formKept_next (memoryForm_of_eq (memoryForm_clearAudio form) rfl rfl rfl)) (raised _)
  case recalc fs => exact .ite (formKept_next (memoryForm_recalcWith (memoryForm_afterOverlap form) _ _)) (raised _)
  case reserve | reservep =>
    refine .ite ?_ (raised _)
    split
    · exact raised _
    · exact .ite (formKept_next form) (formKept_next form)
  case process fs count => exact .ite (.ite (raised _) (formKept_next (memoryForm_samples form _))) (raised _)
  case pwrite addr v => exact formKept_next (memoryForm_pwriteTo form addr v)
  case tick => exact formKept_next (memoryForm_tick form)
  case delayStep xl xr => exact formKept_next (memoryForm_delayRun form xl xr)
  case lp1Step c _ _ | hp1Step c _ _ => cases c <;> exact formKept_next form
  all_goals exact formKept_next (memoryForm_of_eq form (by simp) (by simp) (by simp))

/-- Settles O12: instruction by instruction (`formKept_exec`). -/
theorem memoryFormKept : Obligations.MemoryFormKept := by
  intro Z i s t form h
  obtain ⟨u, next, kept⟩ := formKept_exec form i
  exact Host.Outcome.next.inj (next.symm.trans h) ▸ kept

end Sys2Proof.Machine
end

-- ==== State: refused commands, PWRITE, ACTIVATE and DEACTIVATE ====
section
/-! PROOFS. Which commands the state or an operand refuses (60_exceptions.md R391 to R393), where PWRITE stores, and what
ACTIVATE and DEACTIVATE clear (49_processor.md R350 to R352, R370). -/

namespace Sys2Proof.Machine

variable {Z : Config.Params} {s : State Z}

/-! ## Refused commands (R370, R391) -/

/-- The shape of a refusal: the check of the state or of the operand fails, and the cause is latched. -/
theorem next_raise_of_not {p : Prop} [Decidable p] (fails : ¬ p) (o : Host.Outcome (State Z) Fault Refusal)
    (c : Cause) :
    (if p then o else .next (raise c s)) = .next (latched c s) := by
  rw [if_neg fails, raise_eq_latched]

/-- The same, where it is the check that refuses. -/
theorem next_raise_of {p : Prop} [Decidable p] (holds : p) (o : Host.Outcome (State Z) Fault Refusal) (c : Cause) :
    (if p then .next (raise c s) else o) = .next (latched c s) := by
  rw [if_pos holds, raise_eq_latched]

/-- Settles O14: each command's first check is of the state. -/
theorem wrongStateFaults : Obligations.WrongStateFaults := by
  intro Z s
  refine ⟨fun active fs => next_raise_of active _ _, fun inactive => ?_, fun unready => ?_⟩
  · have off : ¬ s.status.active = true := by simp [inactive]
    exact ⟨next_raise_of_not off _ _, fun fs => next_raise_of_not off _ _⟩
  · have off : ¬ ready s = true := by
      rcases unready with inactive | invalid
      · simp [ready, inactive]
      · simp [ready, invalid]
    exact ⟨fun ch pitch vel id o => next_raise_of_not off _ _, fun ch pitch p id o => next_raise_of_not off _ _,
      fun fs n => next_raise_of_not off _ _⟩

/-- A channel that the core does not have, or a value that is no finite number, makes no note (46_scheduler.md R270,
R271). -/
theorem noteOperand_of_bad {ch : BitVec 8} {pitch val : Num}
    (bad : Z.NCH ≤ ch.toNat ∨ isFinite pitch = false ∨ isFinite val = false) (velocity : Num) (id : Word) :
    noteOperand (Z := Z) ch pitch val velocity id = none := by
  unfold noteOperand
  rcases bad with channel | pitch | val
  · rw [dif_neg (not_lt.mpr channel)]
  · simp [pitch]
  · simp [val]

/-- Settles O15: an address that is not listed is not mapped (`mapped_iff_listedAddress`), and bad operands make no note
(`noteOperand_of_bad`). -/
theorem badOperandFaults : Obligations.BadOperandFaults := by
  intro Z s
  refine ⟨fun addr v unlisted => ?_, fun active valid => ⟨fun ch pitch val id off bad => ?_, fun fs n negative => ?_⟩⟩
  · have unmapped : ¬ mapped Z addr.toNat = true := mt (mapped_iff_listedAddress _).mp unlisted
    rw [Config.Params.exec, execPwrite, pwriteTo, if_neg unmapped, raise_eq_latched]
  · have on := ready_of active valid
    constructor
    · rw [Config.Params.exec, execReserve, if_pos on, noteOperand_of_bad bad, raise_eq_latched]
    · rw [Config.Params.exec, execReservep, if_pos on, noteOperand_of_bad bad, raise_eq_latched]
  · rw [Config.Params.exec, execProcess, if_pos (ready_of active valid)]
    exact next_raise_of negative _ _

/-! ## PWRITE (R350) -/

/-- Settles O19: the write is to PARAM's element space, whose laws say the rest. -/
theorem pwriteStores : Obligations.PwriteStores := by
  intro Z addr v s form listed
  obtain ⟨wf, -⟩ := form
  exact ⟨_, exec_pwrite_of_listed listed v s, paramRead_paramWrite_same wf _ _,
    fun a other => paramRead_paramWrite_other s v other, rfl⟩

/-! ## ACTIVATE and DEACTIVATE (R351, R352) -/

/-- What clearing the audio state leaves in the pool and in the rings. -/
theorem clearAudio_cleared (s : State Z) :
    (∀ i : Fin Z.NV, (clearAudio s).voices[i] = Voice.reset) ∧
      (∀ j : Fin Z.RN, (clearAudio s).nres[j] = NoteRes.reset) ∧
      (∀ j : Fin Z.RP, (clearAudio s).pres[j] = PressRes.reset) ∧
      ∀ c : Chan, chanGet (clearAudio s).dly c = DelayChan.reset :=
  ⟨fun i => by simp, fun j => by simp, fun j => by simp, fun c => by cases c <;> rfl⟩

theorem exec_activate_of_inactive (fs : Num) (inactive : s.status.active = false) :
    Z.exec (.activate fs) s = .next { clearAudio s with dcap := delayCapacity Z fs, status := ⟨true, false⟩ } :=
  if_neg (by simp [inactive])

theorem exec_deactivate_of_active (active : s.status.active = true) :
    Z.exec .deactivate s = .next { clearAudio s with dcap := 0, status := ⟨false, false⟩ } :=
  if_pos active

/-- Settles O21: `clearAudio_cleared`, with the capacity of R351. -/
theorem activateClears : Obligations.ActivateClears := by
  intro Z fs s inactive
  obtain ⟨voices, notes, pressures, delay⟩ := clearAudio_cleared s
  refine ⟨_, exec_activate_of_inactive fs inactive, rfl, rfl, voices, notes, pressures, fun c a => ?_, rfl⟩
  have cleared : chanGet (clearAudio s).dly c = DelayChan.reset := delay c
  dsimp only
  rw [cleared]
  exact ⟨rfl, rfl, rfl, rfl, rfl⟩

/-- Settles O22: `clearAudio_cleared`, with a capacity of 0. -/
theorem deactivateClears : Obligations.DeactivateClears := by
  intro Z s active
  obtain ⟨voices, notes, pressures, delay⟩ := clearAudio_cleared s
  exact ⟨_, exec_deactivate_of_active active, rfl, rfl, voices, notes, pressures, delay, rfl⟩

end Sys2Proof.Machine
end

-- ==== State: reset and contended ports ====
section
/-! PROOFS. The reset table, held and asserted during a step (70_reset_and_hazards.md R430), and the step with a whole
frame on both ports (60_exceptions.md R393). -/

namespace Sys2Proof.Machine

variable {Z : Config.Params} {s : State Z}

/-! ## Reset (R430) -/

theorem step_of_resetIn (asserted : s.resetIn = true) : Z.step s = .next (hardReset s) := if_pos asserted

/-- A step during which reset is asserted is the step without it, cut short. -/
theorem step_of_resetAfter {u : State Z} (n : Nat) (released : s.resetIn = false)
    (whole : Z.step { s with resetAfter := none } = .next u) :
    Z.step { s with resetAfter := some n } = .next (cutShort n { s with resetAfter := some n } u) := by
  rw [step_eq_advance (s := { s with resetAfter := none }) released rfl] at whole
  rw [Config.Params.step, takeStep, if_neg (by simp [released])]
  dsimp only
  rw [whole]

/-- A register that nothing has written reads as its row's default (10_state.md R33). -/
theorem paramDefault_of_row {a : Nat} {r : ParamRow} (row : paramRow Z a = some r) : paramDefault Z a = r.dflt := by
  rw [paramDefault, row]

/-- Settles O9: both steps end in `hardReset`, whose fields are those of `Params.reset`. -/
theorem hardwareResetTable : Obligations.HardwareResetTable := by
  intro Z table
  have stands (u : State Z) : table (hardReset u) := by
    refine ⟨rfl, rfl, rfl, rfl, fun a r row => paramDefault_of_row row, fun i => ?_, fun j => ?_, fun j => ?_,
      fun c => by cases c <;> rfl, rfl, rfl⟩
    · have voice : (hardReset u).voices[i] = Voice.reset := by simp [Config.Params.reset]
      rw [voice]
      refine ⟨rfl, rfl, rfl, rfl, rfl, fun k => ?_, rfl, rfl, rfl, rfl, rfl, rfl⟩
      simp [Voice.reset]
    · simp [Config.Params.reset, NoteRes.reset, MidiNote.resetNote]
    · simp [Config.Params.reset, PressRes.reset, MidiNote.resetNote]
  exact ⟨fun s asserted => ⟨_, step_of_resetIn asserted, stands s, rfl⟩,
    fun s u n released whole => ⟨_, step_of_resetAfter n released whole, stands _, rfl, rfl, rfl⟩⟩

/-! ## A whole frame on both ports (R393) -/

/-- Settles O8: the port chosen is one of the two, and its frame is consumed and run (`runFrame_of_whole`). -/
theorem contendedPortsRunOne : Obligations.ContendedPortsRunOne := by
  intro Z s h h' ops rest ops' rest' released noReset noUnit hcmd hlen hctl hlen'
  have whole : frameLength .command h = ops.length + 1 := (frameWords_eq h).trans hlen.symm
  have whole' : frameLength .control h' = ops'.length + 1 := (frameWords_eq h').trans hlen'.symm
  have both : contended s = true :=
    Bool.and_eq_true_iff.mpr
      ⟨frameReady_of_whole (p := .command) hcmd whole, frameReady_of_whole (p := .control) hctl whole'⟩
  have step : Z.step s = runFrame Z.exec (if Config.commandFirst s.free then .command else .control)
      { s with free := s.free + 1 } := by
    rw [step_eq_advance released noReset]
    simp [advance, noUnit, frameReady, nextPort, arbitrated, both]
  rw [step]
  cases Config.commandFirst s.free with
  | true => exact .inl (runFrame_of_whole (p := .command) (s := { s with free := s.free + 1 }) hcmd whole)
  | false => exact .inr (runFrame_of_whole (p := .control) (s := { s with free := s.free + 1 }) hctl whole')

end Sys2Proof.Machine
end

-- ==== State: RECALC as its schedule ====
section
/-! PROOFS. The ranges of the registers that a CFG rule sees, RECALC as its schedule of unit operations, and its
idempotency (49_processor.md R353, R354). -/

namespace Sys2Proof.Machine

variable {Z : Config.Params}

/-! ## The registers (R354) -/

/-- `ofInt` keeps the order of natural numbers of any size: a larger magnitude rounds to no smaller one. -/
theorem fle_ofInt_natCast {m n : Nat} (h : m ≤ n) : fle (ofInt m) (ofInt n) = true := by
  have natural (k : Nat) : ofInt k = packNum false (roundMag 53 (k * unitsPerOne) 1) := by
    rw [ofInt, Int.natAbs_natCast, decide_eq_false (Int.natCast_nonneg k).not_gt, roundNum]
  have rises : roundMag 53 (m * unitsPerOne) 1 ≤ roundMag 53 (n * unitsPerOne) 1 :=
    roundMag_mono one_pos (Nat.mul_le_mul_right _ h)
  rw [natural, natural, fle_iff, units_packNum, units_packNum]
  exact ⟨isNaN_packNum _ _, isNaN_packNum _ _,
    Int.ofNat_le.mpr (magOf_strictMono.monotone (min_le_min_right _ rises))⟩

/-- The default of the stack count is in range for all parameters (10_state.md R41). -/
theorem within_stackCount : within n1 n1 (ofInt Z.NS) = true := by
  have one : n1 = ofInt (1 : Nat) := decimal_eq_ofInt 1
  rw [one]
  exact within_iff.mpr ⟨fle_ofInt_natCast le_rfl, fle_ofInt_natCast Z.ns_pos⟩

/-- A depth's default is in range (10_state.md R42). -/
theorem within_of_mem_depthRows (d : Nat) : ∀ r ∈ depthRows d, within r.dflt r.lo r.hi = true := by
  intro r hr
  obtain rfl := List.eq_of_mem_replicate hr
  split <;> decide +kernel

/-- What holds of the elements of both lists holds of those of the one chosen. -/
theorem forall_mem_ite {α : Type} {p : Prop} [Decidable p] {l l' : List α} {q : α → Prop} (yes : ∀ x ∈ l, q x)
    (no : ∀ x ∈ l', q x) : ∀ x ∈ if p then l else l', q x := by
  split
  · exact yes
  · exact no

/-- The stack's rows (10_state.md R41). -/
theorem within_of_mem_stackRows :
    ∀ r ∈ [(⟨n0, n1, n0⟩ : ParamRow), ⟨n1, ofInt Z.NS, n1⟩, ⟨n0, decimal 100 1, decimal 10 1⟩],
      within r.dflt r.lo r.hi = true := by
  rw [List.forall_mem_cons, List.forall_mem_cons]
  exact ⟨by decide +kernel, within_stackCount, by decide +kernel⟩

/-- Every row of the map has its default in its own range (10_state.md R34 to R43). -/
theorem within_of_mem_groupRows (g : Nat) : ∀ r ∈ groupRows Z g, within r.dflt r.lo r.hi = true :=
  forall_mem_ite (by decide +kernel) <| forall_mem_ite (by decide +kernel) <| forall_mem_ite (by decide +kernel) <|
  forall_mem_ite (by decide +kernel) <| forall_mem_ite (by decide +kernel) <| forall_mem_ite (by decide +kernel) <|
  forall_mem_ite (by decide +kernel) <| forall_mem_ite within_of_mem_stackRows <|
  forall_mem_ite (within_of_mem_depthRows _) <| forall_mem_ite within_of_mem_tuneRows nofun

/-- Settles O26: a register is read in the range of its row (`paramNum_within`), since the row's default is in it
(`within_of_mem_groupRows`). -/
theorem sanitizedInRange : Obligations.SanitizedInRange := by
  intro Z snap a r row
  have dflt := within_of_mem_groupRows _ r (List.mem_of_getElem? row)
  obtain ⟨least, most⟩ := within_iff.mp (paramNum_within snap row dflt)
  obtain ⟨-, number, -⟩ := fle_iff.mp least
  exact ⟨number, least, most⟩

/-! ## The schedule (R353) -/

/-- What the CFG operations and CFG.TUNE write: CFG and TABLE, and the result latch. -/
def withCfg (s : State Z) (c : Cfg) (t : PitchTables Z) (xs : List Num) : State Z :=
  { s with cfg := c, table := t, ret := xs }

section
variable (s : State Z) (c : Cfg) (t : PitchTables Z) (xs : List Num)

theorem issue_cfgGlobal (fs : Num) :
    issue (.cfgGlobal fs) (withCfg s c t xs) = withCfg s (cfgGlobalOf Z (paramRead s) fs c) t [] := rfl

theorem issue_cfgOp (o : OpSel) :
    issue (.cfgOp o) (withCfg s c t xs) = withCfg s (cfgOpOf Z (paramRead s) o c) t [] := rfl

theorem issue_cfgEnv (e : EnvSel) :
    issue (.cfgEnv e) (withCfg s c t xs) = withCfg s (cfgEnvOf Z (paramRead s) e c) t [] := rfl

theorem issue_cfgModdest :
    issue .cfgModdest (withCfg s c t xs) = withCfg s (cfgModdestOf Z (paramRead s) c) t [] := rfl

theorem issue_cfgSvf : issue .cfgSvf (withCfg s c t xs) = withCfg s (cfgSvfOf Z (paramRead s) c) t [] := rfl

theorem issue_cfgStack : issue .cfgStack (withCfg s c t xs) = withCfg s (cfgStackOf Z (paramRead s) c) t [] := rfl

theorem issue_cfgDelay :
    issue .cfgDelay (withCfg s c t xs) = withCfg s (cfgDelayOf Z (paramRead s) s.dcap c) t [] := rfl

theorem issue_cfgTune (ch : Fin Z.NCH) : issue (.cfgTune ch) (withCfg s c t xs) =
    withCfg s c (t.set ch (tuneTable Z (paramRead s) ch.val)) [] := rfl

end

/-- The CFG operations of the schedule, one after the other, build CFG as RECALC does (R355 to R361). -/
theorem issueAll_cfg (fs : Num) (s : State Z) (c : Cfg) (t : PitchTables Z) (xs : List Num) :
    issueAll [.cfgGlobal fs, .cfgOp .carrier, .cfgOp .modulator, .cfgEnv .amp, .cfgEnv .fm, .cfgEnv .modEnv, .cfgModdest,
      .cfgSvf, .cfgStack, .cfgDelay] (withCfg s c t xs) = withCfg s (rebuildCfg Z (paramRead s) fs s.dcap c) t [] := by
  simp only [issueAll, List.foldl_cons, List.foldl_nil]
  rw [issue_cfgGlobal, issue_cfgOp, issue_cfgOp, issue_cfgEnv, issue_cfgEnv, issue_cfgEnv, issue_cfgModdest,
    issue_cfgSvf, issue_cfgStack, issue_cfgDelay, rebuildCfg]

/-- CFG.TUNE of some channels, one after the other, writes their tables. -/
theorem issueAll_cfgTune (chs : List (Fin Z.NCH)) (s : State Z) (c : Cfg) (t : PitchTables Z) :
    issueAll (chs.map .cfgTune) (withCfg s c t []) =
      withCfg s c (chs.foldl (fun t (ch : Fin Z.NCH) => t.set ch (tuneTable Z (paramRead s) ch.val)) t) [] := by
  induction chs generalizing t with
  | nil => rfl
  | cons ch chs ih =>
    rw [List.map_cons, issueAll, List.foldl_cons, issue_cfgTune]
    exact ih _

/-- Writing some elements, each the value of its own index. -/
theorem getElem_foldl_set_const {α : Type} {n : Nat} (f : Fin n → α) (js : List (Fin n)) (r : Vector α n) (k : Fin n) :
    (js.foldl (fun r (j : Fin n) => r.set j (f j)) r)[k] = if k ∈ js then f k else r[k] := by
  induction js generalizing r with
  | nil => simp
  | cons j js ih =>
    rw [List.foldl_cons, ih]
    by_cases same : k = j
    · subst same
      simp
    · have : j.val ≠ k.val := fun e => same (Fin.ext e.symm)
      simp [same, this]

/-- Writing every element, whatever was there. -/
theorem foldl_set_const {α : Type} {n : Nat} (f : Fin n → α) (r : Vector α n) :
    (List.finRange n).foldl (fun r (j : Fin n) => r.set j (f j)) r = Vector.ofFn f := by
  ext k hk
  have written := getElem_foldl_set_const f (List.finRange n) r ⟨k, hk⟩
  simpa using written

/-- The whole schedule builds CFG and TABLE as RECALC does (R353). -/
theorem issueAll_recalcSchedule (fs : Num) (s : State Z) :
    issueAll (recalcSchedule fs) s =
      withCfg s (rebuildCfg Z (paramRead s) fs s.dcap s.cfg) (rebuildTables Z (paramRead s)) [] := by
  have cfg := issueAll_cfg fs s s.cfg s.table s.ret
  have tables := issueAll_cfgTune (List.finRange Z.NCH) s (rebuildCfg Z (paramRead s) fs s.dcap s.cfg) s.table
  rw [foldl_set_const, ← cfg] at tables
  rw [recalcSchedule, issueAll, List.foldl_append]
  exact tables

/-- Settles O23: the schedule leaves CFG and TABLE as RECALC rebuilds them (`issueAll_recalcSchedule`), and RECALC clips
the cursors to its length (`clipCursor_eq`). -/
theorem recalcIsItsSchedule : Obligations.RecalcIsItsSchedule := by
  intro Z fs s active quiet u
  have status : (⟨s.status.active, true⟩ : Status) = ⟨true, true⟩ := by rw [active]
  have schedule : u = withCfg s (rebuildCfg Z (paramRead s) fs s.dcap s.cfg) (rebuildTables Z (paramRead s)) [] :=
    issueAll_recalcSchedule fs s
  rw [schedule, Config.Params.exec, execRecalc_of_not_ready active quiet, recalcWith, clipCursor_eq, clipCursor_eq,
    status]
  rfl

/-! ## Idempotency -/

theorem clipCursor_clipCursor (len : Nat) (d : DelayChan) : clipCursor len (clipCursor len d) = clipCursor len d := by
  rw [clipCursor_eq, clipCursor_eq]
  dsimp only
  congr 1
  split_ifs <;> omega

/-- A second RECALC with the same snapshot changes nothing: CFG and TABLE are rebuilt from the snapshot
(`rebuildCfg_congr`), and a clipped cursor is below the length. -/
theorem recalcWith_recalcWith (snap : Nat → Num) (fs : Num) (s : State Z) :
    recalcWith snap fs (recalcWith snap fs s) = recalcWith snap fs s := by
  have cfg : rebuildCfg Z snap fs s.dcap (rebuildCfg Z snap fs s.dcap s.cfg) = rebuildCfg Z snap fs s.dcap s.cfg :=
    rebuildCfg_congr ..
  unfold recalcWith
  dsimp only
  rw [cfg, clipCursor_clipCursor, clipCursor_clipCursor]

/-- Settles O24: `recalcWith_recalcWith`, and what it builds is a function of PARAM, rate and capacity
(`recalcWith_cfg_table`). -/
theorem recalcIsIdempotent : Obligations.RecalcIsIdempotent := by
  intro Z
  constructor
  · intro fs s t active quiet h
    obtain rfl : recalcWith (paramRead s) fs s = t :=
      Host.Outcome.next.inj ((execRecalc_of_not_ready active quiet).symm.trans h)
    refine (execRecalc_of_not_ready (s := recalcWith (paramRead s) fs s) active quiet).trans ?_
    exact congrArg _ (recalcWith_recalcWith (paramRead s) fs s)
  · intro fs s s' t t' active active' quiet quiet' param dcap h h'
    obtain rfl : recalcWith (paramRead s) fs s = t :=
      Host.Outcome.next.inj ((execRecalc_of_not_ready active quiet).symm.trans h)
    obtain rfl : recalcWith (paramRead s') fs s' = t' :=
      Host.Outcome.next.inj ((execRecalc_of_not_ready active' quiet').symm.trans h')
    have snap : paramRead s = paramRead s' := by
      unfold paramRead
      rw [param]
    rw [snap]
    exact recalcWith_cfg_table _ fs dcap

end Sys2Proof.Machine
end

-- ==== Processor: selection, MIX, OUT and PROCESS ====
section
/-! PROOFS. Which voices a sample renders, MIX as its voices, OUT, and PROCESS as its samples (49_processor.md R363 to
R368). -/

namespace Sys2Proof.Machine

variable {Z : Config.Params}

/-! ## The selection (R365) -/

theorem liveVoices_eq (vs : Vector (Voice Z) Z.NV) :
    liveVoices vs = (List.finRange Z.NV).filter fun i => decide ((vs[i]).state ≠ .inactive) := by
  simp only [liveVoices, indices, ← live_iff, Bool.decide_eq_true]

theorem mem_liveVoices {vs : Vector (Voice Z) Z.NV} {i : Fin Z.NV} :
    i ∈ liveVoices vs ↔ (vs[i]).state ≠ .inactive := by
  simp [liveVoices_eq]

theorem liveVoices_sublist (vs : Vector (Voice Z) Z.NV) : (liveVoices vs).Sublist (List.finRange Z.NV) :=
  List.filter_sublist

/-- The scan for the youngest is the scan for the largest age in the reverse order. -/
theorem youngest_mem_argmax (vs : Vector (Voice Z) Z.NV) (i : Fin Z.NV) (is : List (Fin Z.NV)) :
    youngest vs i (i :: is) ∈ (i :: is).argmax fun k => OrderDual.toDual (vs[k]).length.toNat := by
  rw [argmax_eq_foldl _ (List.head?_cons (a := i))]
  rfl

/-- Settles O59: the live voices ascending; in mono mode the scan `youngest` (`youngest_mem_argmax`). -/
theorem selectionRule : Obligations.SelectionRule := by
  intro Z vs
  refine ⟨liveVoices_eq vs, fun idle => ?_, fun ⟨i, alive⟩ => ?_⟩
  · have empty : liveVoices vs = [] := List.eq_nil_iff_forall_not_mem.mpr fun i h => mem_liveVoices.mp h (idle i)
    simp [select, empty]
  · have sorted : (liveVoices vs).Pairwise (· < ·) := (List.pairwise_lt_finRange _).sublist (liveVoices_sublist vs)
    have listed := mem_liveVoices.mpr alive
    cases live : liveVoices vs with
    | nil => simp [live] at listed
    | cons k ks =>
      rw [live] at sorted
      obtain ⟨mem, youngest, first⟩ := argmax_first sorted (youngest_mem_argmax vs k ks)
      have member {j : Fin Z.NV} : j ∈ k :: ks ↔ (vs[j]).state ≠ .inactive := live ▸ mem_liveVoices
      refine ⟨_, by simp [select, live], member.mp mem, fun j h => youngest j (member.mpr h),
        fun j before h => first j (member.mpr h) before⟩

/-! ## MIX (R366) -/

/-- One voice of MIX as VOICE.RENDER of it, the result latch aside. -/
theorem issueMixed_eq (s : State Z) (a : Vector (Voice Z) Z.NV × Num × Num) (xs : List Num) (i : Fin Z.NV) :
    ∃ ys, issueMixed (returned { s with voices := a.1 } xs, a.2) i =
      (returned { s with voices := (mixVoice s.cfg a i).1 } ys, (mixVoice s.cfg a i).2) := by
  rw [issueMixed, issue_voiceRender]
  exact ⟨_, rfl⟩

theorem foldl_issueMixed_eq (s : State Z) (is : List (Fin Z.NV)) (a : Vector (Voice Z) Z.NV × Num × Num)
    (xs : List Num) :
    ∃ ys, is.foldl issueMixed (returned { s with voices := a.1 } xs, a.2) =
      (returned { s with voices := (is.foldl (mixVoice s.cfg) a).1 } ys, (is.foldl (mixVoice s.cfg) a).2) := by
  induction is generalizing a xs with
  | nil => exact ⟨xs, rfl⟩
  | cons i is ih =>
    obtain ⟨ys, first⟩ := issueMixed_eq s a xs i
    rw [List.foldl_cons, List.foldl_cons, first]
    exact ih _ ys

theorem exec_mix (sel : BitVec Z.NV) (s : State Z) :
    Z.exec (.mix sel) s = .next (returned { s with voices := (mixVoices s.cfg s.voices (maskVoices sel)).1 }
      [(mixVoices s.cfg s.voices (maskVoices sel)).2.1, (mixVoices s.cfg s.voices (maskVoices sel)).2.2]) := rfl

/-- Settles O56: voice by voice (`foldl_issueMixed_eq`). -/
theorem mixIsItsVoices : Obligations.MixIsItsVoices := by
  intro Z sel s r
  obtain ⟨ys, voices⟩ := foldl_issueMixed_eq s (maskVoices sel) (s.voices, n0, n0) s.ret
  have schedule : r = _ := voices
  rw [schedule, exec_mix]
  rfl

/-! ## OUT (R367) -/

theorem exec_out (mixL mixR dl dr : Num) (s : State Z) :
    Z.exec (.out mixL mixR dl dr) s = .next (returned (outStep mixL mixR dl dr s) []) := rfl

/-- Settles O57: each channel of `outStep` is the formula, and the pair is emitted. -/
theorem outEmitsOnePair : Obligations.OutEmitsOnePair := by
  intro Z mixL mixR dl dr s o
  have channel (dry wet : Num) : toF32 (guardNum (outMix s.cfg dry wet)) = o dry wet := rfl
  rw [exec_out, outStep, channel, channel, emit, returned]

/-! ## PROCESS (R363, R364) -/

/-- Setting some bits, one after the other. -/
theorem getLsbD_foldl_twoPow (sel : List (Fin Z.NV)) (m : BitVec Z.NV) (i : Fin Z.NV) :
    (sel.foldl (fun m j => m ||| BitVec.twoPow Z.NV j.val) m).getLsbD i = (m.getLsbD i || decide (i ∈ sel)) := by
  induction sel generalizing m with
  | nil => simp
  | cons j sel ih =>
    rw [List.foldl_cons, ih]
    simp [Fin.ext_iff, Bool.or_assoc]

theorem getLsbD_maskOf (sel : List (Fin Z.NV)) (i : Fin Z.NV) : (maskOf sel).getLsbD i = decide (i ∈ sel) := by
  rw [maskOf, getLsbD_foldl_twoPow]
  simp

/-- A selection in ascending order is what its mask selects. -/
theorem maskVoices_maskOf {sel : List (Fin Z.NV)} (h : sel.Sublist (List.finRange Z.NV)) :
    maskVoices (maskOf sel) = sel := by
  have ascending : (List.finRange Z.NV).Pairwise (· < ·) := List.pairwise_lt_finRange _
  refine (ascending.sublist List.filter_sublist).eq_of_mem_iff (ascending.sublist h) fun i => ?_
  rw [List.mem_filter, getLsbD_maskOf, decide_eq_true_eq, and_iff_right (List.mem_finRange i)]

theorem select_sublist (mono : Bool) (vs : Vector (Voice Z) Z.NV) : (select mono vs).Sublist (List.finRange Z.NV) := by
  unfold select
  split
  · exact List.singleton_sublist.mpr (List.mem_finRange _)
  · exact liveVoices_sublist vs

/-- One sample is its four unit operations. -/
theorem issueSample_eq (s : State Z) : issueSample s = sample s := by
  obtain ⟨vs, n, p, ticked⟩ := tick_eq s
  simp only [issueSample, sample, issue_tick, issue_mix, issue_delayStep, issue_out, result_returned,
    maskVoices_maskOf (select_sublist _ _), ticked]
  rfl

theorem issueSamples_eq (n : Nat) (s : State Z) : issueSamples n s = samples n s := by
  induction n generalizing s with
  | zero => rfl
  | succ n ih => rw [issueSamples, issueSample_eq, ih, samples]

theorem exec_process_of_ready {s : State Z} {count : Word} (fs : Num) (ready : ready s = true) (h : 0 ≤ count.toInt) :
    Z.exec (.process fs count) s = .next (samples count.toInt.toNat s) := by
  rw [Config.Params.exec, execProcess, if_pos ready]
  exact if_neg (not_lt.mpr h)

/-- Settles O58: sample by sample (`issueSample_eq`), and each emits one pair (`samples_eq`). -/
theorem processIsItsSamples : Obligations.ProcessIsItsSamples := by
  intro Z fs count s active valid natural
  obtain ⟨vs, nr, pr, d, f, os, sampled, emitted⟩ := samples_eq count.toInt.toNat s
  rw [issueSamples_eq]
  refine ⟨exec_process_of_ready fs (ready_of active valid) natural, os, by rw [sampled], ?_⟩
  rw [emitted, Int.toNat_of_nonneg natural]

end Sys2Proof.Machine
end

-- ==== Processor: silence ====
section
/-! PROOFS. With no live voice, no pending reservation and a cleared delay, every sample emits a pair of `+0` and leaves
the core silent (49_processor.md R363 to R367, 48_delay.md R331). -/

namespace Sys2Proof.Machine

variable {Z : Config.Params}

/-! ## Arithmetic with zeros (00_scope.md R14) -/

theorem roundMag_zero {den : Nat} (h : 0 < den) : roundMag 53 0 den = 0 :=
  roundMag_exact h (by rw [show magOf 0 = 0 by decide +kernel, Nat.zero_mul])

/-- A product with a factor of magnitude 0 is a zero of the product's sign. -/
theorem fmul_eq_zeroOf {a b : Num} (ha : isFinite a = true) (hb : isFinite b = true)
    (zero : magUnits a * magUnits b = 0) : fmul a b = zeroOf (signBit a != signBit b) := by
  have one_pos : 0 < unitsPerOne := Int.natCast_pos.mp unitsPerOne_pos
  simp only [fmul, isNaN_of_isFinite ha, isNaN_of_isFinite hb, isInf_of_isFinite ha, isInf_of_isFinite hb, Bool.or_self,
    Bool.false_eq_true, if_false, zero, roundNum, roundMag_zero one_pos, zeroOf]

theorem signBit_n0 : signBit n0 = false := by decide +kernel

theorem magUnits_n0 : magUnits n0 = 0 := by decide +kernel

/-- `+0` times a finite number is a zero of that number's sign. -/
theorem fmul_n0_left {x : Num} (h : isFinite x = true) : fmul n0 x = zeroOf (signBit x) := by
  rw [fmul_eq_zeroOf isFinite_n0 h (by rw [magUnits_n0, Nat.zero_mul]), signBit_n0, Bool.false_bne]

theorem fmul_n0_right {x : Num} (h : isFinite x = true) : fmul x n0 = zeroOf (signBit x) := by
  rw [fmul_eq_zeroOf h isFinite_n0 (by rw [magUnits_n0, Nat.mul_zero]), signBit_n0, Bool.bne_false]

theorem fsub_n0_n0 : fsub n0 n0 = n0 := by decide +kernel

theorem fadd_n0_n0 : fadd n0 n0 = n0 := by decide +kernel

/-- A zero of either sign added to `+0` is `+0`. -/
theorem fadd_n0_zeroOf (neg : Bool) : fadd n0 (zeroOf neg) = n0 := by cases neg <;> decide +kernel

theorem fadd_zeroOf_n0 (neg : Bool) : fadd (zeroOf neg) n0 = n0 := by cases neg <;> decide +kernel

theorem zeroOf_false : zeroOf false = n0 := by decide +kernel

/-- The only number of `[0, 1]` with its sign bit set is `-0`. -/
theorem eq_negZero_of_signBit {x : Num} (h : inClosedUnit x = true) (neg : signBit x = true) : x = zeroOf true := by
  obtain ⟨least, -⟩ := units_of_inClosedUnit h
  have below : units x = -(magUnits x : Int) := if_pos neg
  have zero : magUnits (zeroOf true) = 0 := by decide +kernel
  refine eq_iff_sign_mag.mpr ⟨neg.trans (signBit_packNum _ _).symm, ?_⟩
  omega

/-! ## A cleared delay channel (R331 to R334) -/

/-- Every element of the line, the feedback and both filter states are `+0`. -/
def Cleared (d : DelayChan) : Prop := (∀ a, ramRead d.ram a = n0) ∧ d.fb = n0 ∧ d.lp = n0 ∧ d.hp = n0

/-- A filter at rest stays at rest (43_filters.md R211, R212). -/
theorem smooth_n0 {alpha : Num} (h : inClosedUnit alpha = true) : smooth alpha n0 n0 = n0 := by
  rw [smooth, fsub_n0_n0, fmul_n0_right (isFinite_of_inClosedUnit h), fadd_n0_zeroOf]

theorem fbGate_zeroOf (neg : Bool) : fbGate (zeroOf neg) = n0 := by cases neg <;> decide +kernel

/-- The coefficients of a configured core that a silent sample uses, in the ranges of 10_state.md, and a master volume
that is not `-0`. -/
structure SilentCfg (c : Cfg) : Prop where
  lp : inClosedUnit c.dLpAlpha = true
  hp : inClosedUnit c.dHpAlpha = true
  fb : inClosedUnit c.dFb = true
  mix : inClosedUnit c.dMix = true
  master : inClosedUnit c.master = true
  masterSign : signBit c.master = false

/-- A channel that is cleared and gets no input stays cleared and gives `+0`. -/
theorem Cleared.delayChannel {c : Cfg} (hc : SilentCfg c) {dcap : Nat} {d : DelayChan} (h : Cleared d)
    (wf : Memory.wf ramDefault d.ram = true) (backed : d.w < dcap) (tag : Nat) :
    Cleared (delayChannel c dcap tag d n0 n0).1 ∧ (delayChannel c dcap tag d n0 n0).2 = n0 := by
  obtain ⟨ram, fb, lp, hp⟩ := h
  have low : lp1Step c.dLpAlpha d.lp (delayRead dcap tag d) = (n0, n0) := by
    rw [delayRead_of_lt backed, ram, lp, lp1Step, smooth_n0 hc.lp]
  have high : hp1Step c.dHpAlpha d.hp n0 = (n0, n0) := by
    rw [hp, hp1Step, smooth_n0 hc.hp, fsub_n0_n0]
  have channel : Machine.delayChannel c dcap tag d n0 n0 =
      ({ ram := delayWrite dcap d n0, w := nextCursor c.dLen tag d.w, fb := n0, lp := n0, hp := n0 }, n0) := by
    simp only [Machine.delayChannel, low, high, fadd_n0_n0, fmul_n0_left (isFinite_of_inClosedUnit hc.fb),
      fbGate_zeroOf]
  obtain ⟨-, -, written⟩ := delayWrite_spec (dcap := dcap) n0 wf
  rw [channel]
  refine ⟨⟨fun a => ?_, rfl, rfl, rfl⟩, rfl⟩
  rw [written, ram, ite_self]

/-- OUT of a silent pair (49_processor.md R367). -/
theorem outMix_n0 {c : Cfg} (h : SilentCfg c) : outMix c n0 n0 = n0 := by
  have dry : fadd (fmul n0 (fsub n1 c.dMix)) (fmul n0 c.dMix) = n0 := by
    have rest : inClosedUnit (fsub n1 c.dMix) = true :=
      one_sub_within h.mix (by decide +kernel) (by decide +kernel) (by decide +kernel)
    rw [fmul_n0_left (isFinite_of_inClosedUnit rest), fmul_n0_left (isFinite_of_inClosedUnit h.mix)]
    cases sign : signBit c.dMix with
    | false => rw [zeroOf_false, fadd_zeroOf_n0]
    | true =>
      have positive : signBit (fsub n1 (zeroOf true)) = false := by decide +kernel
      rw [eq_negZero_of_signBit h.mix sign, positive, zeroOf_false, fadd_n0_zeroOf]
  rw [outMix, dry, fmul_n0_left (isFinite_of_inClosedUnit h.master), h.masterSign, zeroOf_false]

theorem toF32_guardNum_n0 : toF32 (guardNum n0) = 0 := by decide +kernel

/-! ## A silent sample -/

/-- No live voice, no pending reservation, the delay cleared and its line in use. -/
structure Silent (s : State Z) : Prop where
  cfg : SilentCfg s.cfg
  line : LineReady s
  voices : ∀ i : Fin Z.NV, (s.voices[i]).state = .inactive
  notes : ∀ j : Fin Z.RN, (s.nres[j]).offset < 0
  pressures : ∀ j : Fin Z.RP, (s.pres[j]).offset < 0
  cleared : ∀ c, Cleared (chanGet s.dly c)

/-- TICK of a pool and rings with nothing live changes nothing (46_scheduler.md R274). -/
theorem tick_of_idle {s : State Z} (voices : ∀ i : Fin Z.NV, (s.voices[i]).state = .inactive)
    (notes : ∀ j : Fin Z.RN, (s.nres[j]).offset < 0) (pressures : ∀ j : Fin Z.RP, (s.pres[j]).offset < 0) :
    tick s = s := by
  have ages : tickAges s.voices = s.voices := by
    ext1 i hi
    have idle : live s.voices[i] = false := by simpa [live] using voices ⟨i, hi⟩
    simp [tickAges, idle]
  have first : (indices Z.RN).foldl tickNoteSlot s = s :=
    List.foldl_fixed' (fun j => tickNoteSlot_of_free (notes j)) _
  have second : (indices Z.RP).foldl tickPressSlot s = s :=
    List.foldl_fixed' (fun j => tickPressSlot_of_free (pressures j)) _
  rw [tick, ages, first, second]

/-- With no live voice nothing is selected (R365). -/
theorem select_of_idle {vs : Vector (Voice Z) Z.NV} (idle : ∀ i : Fin Z.NV, (vs[i]).state = .inactive) (mono : Bool) :
    select mono vs = [] := by
  obtain ⟨live, youngest, -⟩ := selectionRule Z vs
  cases mono with
  | true => exact youngest idle
  | false =>
    rw [live, List.filter_eq_nil_iff]
    simpa using idle

/-- DELAY.STEP of a silent core with no input gives a pair of `+0` and leaves the core silent (48_delay.md R331). -/
theorem Silent.delayRun {s : State Z} (h : Silent s) :
    ∃ d, delayRun n0 n0 s = ({ s with dly := d }, n0, n0) ∧ Silent { s with dly := d } := by
  have backed (c : Chan) : (chanGet s.dly c).w < s.dcap := (h.line.cursor c).trans_le h.line.short
  have stepped (c : Chan) := (h.cleared c).delayChannel h.cfg (h.line.wf c) (backed c)
  have fb (c : Chan) : (chanGet s.dly c).fb = n0 := by
    obtain ⟨-, fb, -⟩ := h.cleared c
    exact fb
  have fbLeft : s.dly.left.fb = n0 := fb .left
  have fbRight : s.dly.right.fb = n0 := fb .right
  have step : delayStep s.cfg s.dcap s.free s.dly n0 n0 =
      (⟨(delayChannel s.cfg s.dcap (2 * s.free) s.dly.left n0 n0).1,
        (delayChannel s.cfg s.dcap (2 * s.free + 1) s.dly.right n0 n0).1⟩, n0, n0) := by
    obtain ⟨-, left⟩ := stepped .left (2 * s.free)
    obtain ⟨-, right⟩ := stepped .right (2 * s.free + 1)
    simp only [chanGet] at left right
    simp only [delayStep, fbLeft, fbRight, ite_self, left, right]
  have pair : (delayStep s.cfg s.dcap s.free s.dly n0 n0).2 = (n0, n0) := congrArg (fun r => r.2) step
  have line := h.line.step (n0, n0)
  refine ⟨(delayStep s.cfg s.dcap s.free s.dly n0 n0).1, ?_, ?_⟩
  · exact Prod.ext (delayRun_of_backed (delayBacked_iff.mpr ⟨backed .left, backed .right, h.line.pos⟩)) pair
  · refine ⟨h.cfg, ⟨line.wf, line.cursor, line.short⟩, h.voices, h.notes, h.pressures, fun c => ?_⟩
    rw [step]
    cases c with
    | left => exact (stepped .left _).1
    | right => exact (stepped .right _).1

/-- One sample of a silent core emits a pair of `+0` and leaves the core silent (R364). -/
theorem Silent.sample {s : State Z} (h : Silent s) :
    ∃ d, sample s = { s with dly := d, out := s.out ++ [(0, 0)] } ∧
      Silent { s with dly := d, out := s.out ++ [(0, 0)] } := by
  obtain ⟨d, delayed, silent⟩ := h.delayRun
  refine ⟨d, ?_, ⟨silent.cfg, ⟨silent.line.wf, silent.line.cursor, silent.line.short⟩, silent.voices, silent.notes,
    silent.pressures, silent.cleared⟩⟩
  have mixed : mixVoices s.cfg s.voices [] = (s.voices, n0, n0) := rfl
  simp only [Machine.sample, tick_of_idle h.voices h.notes h.pressures, select_of_idle h.voices, mixed, delayed,
    outStep, outMix_n0 h.cfg, toF32_guardNum_n0, emit]

theorem Silent.samples {s : State Z} (h : Silent s) (n : Nat) :
    ∃ d, samples n s = { s with dly := d, out := s.out ++ List.replicate n (0, 0) } := by
  induction n generalizing s with
  | zero => exact ⟨s.dly, by rw [Machine.samples, List.replicate_zero, List.append_nil]⟩
  | succ n ih =>
    obtain ⟨d, sampled, silent⟩ := h.sample
    obtain ⟨d', rest⟩ := ih silent
    exact ⟨d', by rw [Machine.samples, sampled, rest, List.append_assoc, List.singleton_append, List.replicate_succ]⟩

/-- Settles O60: the premises make the core silent, and every sample keeps it so (`Silent.samples`). -/
theorem silenceStaysSilent : Obligations.SilenceStaysSilent := by
  intro Z fs count s form active valid left right short natural voices notes pressures clear lp hp fb mix master sign
  obtain ⟨-, wfLeft, wfRight, -⟩ := form
  have silent : Silent s :=
    { cfg := ⟨lp, hp, fb, mix, master, sign⟩
      line := ⟨fun | .left => wfLeft | .right => wfRight, fun | .left => left | .right => right, short⟩
      voices := voices
      notes := notes
      pressures := pressures
      cleared := clear }
  obtain ⟨d, emitted⟩ := silent.samples count.toInt.toNat
  refine ⟨_, exec_process_of_ready fs (ready_of active valid) natural, ?_⟩
  rw [emitted]
  exact ⟨rfl, rfl, rfl, rfl⟩

end Sys2Proof.Machine
end
